-- ==== Sys2Proof/Word.lean ====
section
/-! DEFINITION. The word types of TC-CORE (R12, R13): 32-bit registers and addresses, 8-bit bytes, and the buffers and bit
sequences of R15 and R97 as plain lists. -/

namespace Sys2Proof

/-- A register, a buffer-memory address, a length: 32 bits (R13). -/
abbrev Word := BitVec 32

/-- A byte, always read as unsigned (R12, R15). -/
abbrev Byte := BitVec 8

/-- A buffer: a finite list of bytes that carries its own length (R15). -/
abbrev Buffer := List Byte

/-- A sequence of code or payload bits, the first bit first (R97, R205). -/
abbrev Bits := List Bool

end Sys2Proof
end

