-- ==== Sys2Proof/Config.lean ====
section
/-! DEFINITION. What an implementation fixes (the three OPEN parameters of 92_eei_decisions.md) and the free values, which
are constants without a body: nothing can be proved of the value of one. -/

namespace Sys2Proof

/-- The parameters "a model takes as arguments" (R10, R11, D3). They stand in `State.cfg`, so every statement over all
states is a statement over all parameters (log 1). -/
structure Config where
  /-- `MEM_BYTES`, the size of the buffer memory in bytes (R10). -/
  memBytes : Nat
  /-- `SCRATCH_LEN`, the most elements one internal buffer can hold (R11). -/
  scratchLen : Nat
  /-- `REG_BASE`, the base address of the register window, chosen by the platform (D3). -/
  regBase : Nat
  deriving DecidableEq, Repr

/-- The parameters the vectors of 95_test_vectors.md use. DESIGN CHOICE (log 1): `State.reset` has these. -/
def Config.vectors : Config := ⟨0x00100000, 0x00010000, 0⟩

/-- FREE VALUE (log 7). The byte at an address after the reset number `draw` abandoned a command that owned the address
as output: "an arbitrary value afterwards (a draw per byte)" (R301). -/
opaque Config.abandonedByte : (draw address : Nat) → Byte

/-- FREE VALUE (log 8). Whether a host read of a result register sees the completion that wrote it, when no STATUS read has
synchronised with that completion yet: "No other ordering is promised" (R71). -/
opaque Config.seesCompletion : (draw : Nat) → Bool

end Sys2Proof
end

