-- ==== Sys2Proof/Syntax.lean ====
section
/-! DEFINITION. The commands of TC-CORE, one constructor per row of spec/opcode_table.json (R92). A command has no operand
field: "every operand is an operand register latched at acceptance" (R91). -/

namespace Sys2Proof

/-- One command of the opcode map (R92). -/
inductive Instr where
  /-- SA_BUILD, opcode 0x01 (R125). -/
  | saBuild
  /-- BWT_ENC, opcode 0x02 (R141). -/
  | bwtEnc
  /-- BWT_DEC, opcode 0x03 (R146). -/
  | bwtDec
  /-- MTF_ENC, opcode 0x04 (R162). -/
  | mtfEnc
  /-- MTF_DEC, opcode 0x05 (R163). -/
  | mtfDec
  /-- RLE_ENC, opcode 0x06 (R181). -/
  | rleEnc
  /-- RLE_DEC, opcode 0x07 (R183). -/
  | rleDec
  /-- HUF_CODES, opcode 0x08 (R210). -/
  | hufCodes
  /-- HUF_ENC, opcode 0x09 (R211). -/
  | hufEnc
  /-- HUF_DEC, opcode 0x0A (R213). -/
  | hufDec
  /-- PIPE_ENC, opcode 0x0B (R241). -/
  | pipeEnc
  /-- PIPE_DEC, opcode 0x0C (R243). -/
  | pipeDec
  deriving DecidableEq, Repr

end Sys2Proof
end

