-- ==== Sys2Proof/WellFormed.lean ====
section
/-! DEFINITION. Well-formedness: of a command (it has no operand, so each one is), of a command word (R91) and of the
implementation parameters (R10, R11). -/

namespace Sys2Proof

/-- A command carries no operand field (R91), so there is nothing in it that could be ill formed. -/
def Instr.wellFormed : Instr → Bool
  | .saBuild | .bwtEnc | .bwtDec | .mtfEnc | .mtfDec | .rleEnc | .rleDec
  | .hufCodes | .hufEnc | .hufDec | .pipeEnc | .pipeDec => true

/-- A command word is well formed when its reserved bits 31:8 are zero and its opcode is one of 0x01–0x0C (R91): as a
number it is then the opcode itself. The decoder does not use this; `Laws/Decode.lean` compares the two. -/
def cmdWordWellFormed (w : Word) : Bool :=
  decide (1 ≤ w.toNat) && decide (w.toNat ≤ 0x0C)

/-- The ranges of the parameters: `1 <= MEM_BYTES <= 2^32` (R10) and `9216 <= SCRATCH_LEN <= 2^31 - 1` (R11).
`REG_BASE` is any address. -/
def Config.legal (c : Config) : Bool :=
  decide (1 ≤ c.memBytes) && decide (c.memBytes ≤ 2 ^ 32) &&
    decide (9216 ≤ c.scratchLen) && decide (c.scratchLen ≤ 2 ^ 31 - 1)

end Sys2Proof
end

