-- ==== Sys2Proof/Decode.lean ====
section
/-! DEFINITION. The command word (R91, R92, R94): the decoder, total on all 32-bit words and rejecting by name, and after it
the encoder, both written from the table of R92. -/

namespace Sys2Proof

/-- Why a word written to CMD is no command. The machine then completes with ILLEGAL_CMD (R91, R93). -/
inductive DecodeError where
  /-- Bits 31:8 are not all zero (R91). -/
  | reservedBits (field : BitVec 24)
  /-- The opcode is 0x00 or one of 0x0D–0xFF (R93). -/
  | unknownOpcode (op : Byte)
  deriving DecidableEq, Repr

/-- Bits 7:0 of a command word, OPCODE (R22, R91). -/
def cmdOpcode (w : Word) : Byte := w.extractLsb' 0 8

/-- Bits 31:8 of a command word, RESERVED (R22, R91). -/
def cmdReserved (w : Word) : BitVec 24 := w.extractLsb' 8 24

/-- The opcode map (R92). -/
def decodeOpcode (op : Byte) : Except DecodeError Instr :=
  match op.toNat with
  | 0x01 => .ok .saBuild
  | 0x02 => .ok .bwtEnc
  | 0x03 => .ok .bwtDec
  | 0x04 => .ok .mtfEnc
  | 0x05 => .ok .mtfDec
  | 0x06 => .ok .rleEnc
  | 0x07 => .ok .rleDec
  | 0x08 => .ok .hufCodes
  | 0x09 => .ok .hufEnc
  | 0x0A => .ok .hufDec
  | 0x0B => .ok .pipeEnc
  | 0x0C => .ok .pipeDec
  | _ => .error (.unknownOpcode op)

/-- Decode a command word: the reserved bits first, then the opcode (R91, R93). -/
def decode (w : Word) : Except DecodeError Instr :=
  if cmdReserved w = 0 then decodeOpcode (cmdOpcode w) else .error (.reservedBits (cmdReserved w))

/-- The opcode of a command (R92). -/
def Instr.opcode : Instr → Byte
  | .saBuild => 0x01
  | .bwtEnc => 0x02
  | .bwtDec => 0x03
  | .mtfEnc => 0x04
  | .mtfDec => 0x05
  | .rleEnc => 0x06
  | .rleDec => 0x07
  | .hufCodes => 0x08
  | .hufEnc => 0x09
  | .hufDec => 0x0A
  | .pipeEnc => 0x0B
  | .pipeDec => 0x0C

/-- The command word of a command: reserved bits zero, then the opcode (R91). -/
def encode (i : Instr) : Word := (0 : BitVec 24) ++ i.opcode

/-- The table's word of `nbits` bits as it stands in CMD. A command word is one 32-bit register write and is never stored
in memory (R74, R94), so it has no byte order; the bits above `nbits` are zero (log 15). -/
def tableWord (nbits w : Nat) : Word := BitVec.ofNat 32 (w % 2 ^ nbits)

/-- What the decoder reads from a table word of `nbits` bits; no command is wider than 32 bits (R94). -/
def decodeTableWord (nbits w : Nat) : Option Instr :=
  if w % 2 ^ nbits < 2 ^ 32 then (decode (tableWord nbits w)).toOption else none

end Sys2Proof
end

