-- ==== Sys2Proof/Machine/State.lean ====
section
/-! DEFINITION. The state of TC-CORE as plain data: the register window (10_state.md section 2), the latched operand record
(R36), the buffer memory (R60), the host agent and the turn order (R20, R37), and the reasons a step can stop. -/

namespace Sys2Proof.Machine

/-- The named registers of the window (10_state.md section 2). -/
inductive RegName where
  | id | cmd | status | err | errInfo0 | errInfo1
  | srcAddr | srcLen | dstAddr | dstCap | auxAddr | auxLen
  | primaryIndex | origLen | outLen | scratchLen | memTop
  deriving DecidableEq, Repr

/-- The latched operand record `L` (R36): the command word and the operand registers as they stood at acceptance. -/
structure Latch where
  cmd : Word
  srcAddr : Word
  srcLen : Word
  dstAddr : Word
  dstCap : Word
  auxAddr : Word
  auxLen : Word
  primaryIndex : Word
  deriving DecidableEq, Repr

/-- The buffer memory (R60): the bytes that differ from what an unlisted address reads as, by rising address. -/
abbrev Memory := List Host.Cell

/-- Whether a running command reads a region or writes it (R72). -/
inductive RegionUse where
  | input
  | output
  deriving DecidableEq, Repr

/-- A region the host must leave alone until it observes BUSY = 0 (R72, R308). -/
structure HeldRegion where
  address : Word
  len : Word
  use : RegionUse
  deriving DecidableEq, Repr

/-- The width of a host access to the register window (R34). -/
inductive AccessWidth where
  | byte
  | half
  | word
  deriving DecidableEq, Repr

/-- One statement of a host script (R101, R102). Register accesses carry the host's own address, which is
`REG_BASE + offset`. The address of a byte access is a number that does not wrap, as `<addr>+1` of R101 (R61; log 13). The other pseudo-statements expand to these (`Machine/Host.lean`); `EXPECT` does nothing. -/
inductive HostOp where
  /-- `WR`: write a value at an address of the register window. -/
  | regWrite (width : AccessWidth) (address : Nat) (value : Word)
  /-- `RD`: read at an address of the register window. -/
  | regRead (width : AccessWidth) (address : Nat)
  /-- One byte of `MEMW`. -/
  | memWrite (address : Nat) (value : Byte)
  /-- One byte of `MEMR`. -/
  | memRead (address : Nat)
  /-- `WAIT`: read STATUS, and again while BUSY = 1. -/
  | wait
  deriving DecidableEq, Repr

/-- Who moves next (log 5): the host, the engine, or the platform, which asserts reset (R20, R37, R300). -/
inductive Turn where
  | host
  | engine
  | reset
  deriving DecidableEq, Repr

/-- The error and warning codes of R270. -/
inductive ErrCode where
  | illegalCmd
  | addrRange
  | allocationFailure
  | emptyInput
  | capacityExceeded
  | dstTooSmall
  | metadataMissing
  | metadataTruncated
  | primaryRange
  | rleMalformed
  | hufTableTruncated
  | hufBitstreamUnderrun
  | lengthMismatch
  deriving DecidableEq, Repr

/-- The stages of R272. -/
inductive Stage where
  | frame
  | suffixArray
  | bwtEncoder
  | bwtDecoder
  | mtfEncoder
  | mtfDecoder
  | rleEncoder
  | rleDecoder
  | huffmanTree
  | huffmanEncoder
  | huffmanDecoder
  | pipeline
  deriving DecidableEq, Repr

/-- What `raise E(stage, i0, i1)` reports (R17, R271). -/
structure Report where
  code : ErrCode
  stage : Stage
  info0 : Word
  info1 : Word
  deriving DecidableEq, Repr

/-- What an `OP_*` function returns (R90): the output buffer, the registers to write, the metadata record of PIPE_ENC,
and the two information words of a LENGTH_MISMATCH warning. -/
structure CmdResult where
  out : Buffer
  primaryIndex : Option Word := none
  origLen : Option Word := none
  metadata : Option Buffer := none
  warn : Option (Word × Word) := none
  deriving DecidableEq, Repr

/-- The function `OP_[op](src, aux, L)` of R90, with `SCRATCH_LEN` in front. -/
abbrev CmdBody := (scratch : Nat) → (src aux : Buffer) → (l : Latch) → Except Report CmdResult

/-- Why a step stops with a fault. -/
inductive Fault where
  /-- A host byte access at an address that is not `0 .. MEM_BYTES-1` (R60); raised by `hostMemWrite` and `hostMemRead`.
  SAFE: the spec gives such an access no effect (log 13). -/
  | hostByteOutsideMemory (address : Nat)
  deriving DecidableEq, Repr

/-- Why a step is refused. -/
inductive Refusal where
  /-- A command without a meaning; raised by `exec` only. SAFE. No arm raises it in this model. -/
  | notModelled (mnemonic : String)
  /-- A host register access that is not 32 bits wide (R34: "a model refuses it"); raised by `regAccess`. SAFE. -/
  | registerAccessNot32Bit (width : AccessWidth)
  /-- A host register access at an offset that is not a multiple of 4 (R34); raised by `regAccess`. SAFE. -/
  | registerOffsetUnaligned (offset : Nat)
  /-- A host access at an address outside the 64 words of the window, which is no access to TC-CORE; raised by
  `regAccess`. SAFE (log 12). -/
  | outsideRegisterWindow (address : Nat)
  /-- A host write to a region of a command whose end the host has not observed (R72: "A model refuses such a host
  step"); raised by `hostMemWrite`. SAFE. -/
  | hostWriteToHeldRegion (address : Nat)
  /-- A host read of an output region of a command whose end the host has not observed (R72); raised by `hostMemRead`.
  SAFE. -/
  | hostReadOfHeldOutput (address : Nat)
  deriving DecidableEq, Repr

/-- The machine. Fields after `mem` are the model's own: the host agent, the turn order and the bookkeeping of the host's
duties (logs 4, 5, 7, 8, 9). -/
structure State where
  /-- The implementation parameters; no step changes them (R10, R11, D3; log 1). -/
  cfg : Config
  /-- CMD (R22). -/
  cmd : Word
  /-- STATUS (R23). -/
  status : Word
  /-- ERR (R24). -/
  err : Word
  /-- ERR_INFO0 (R25). -/
  errInfo0 : Word
  /-- ERR_INFO1 (R25). -/
  errInfo1 : Word
  /-- SRC_ADDR (R26). -/
  srcAddr : Word
  /-- SRC_LEN (R26). -/
  srcLen : Word
  /-- DST_ADDR (R27). -/
  dstAddr : Word
  /-- DST_CAP (R27). -/
  dstCap : Word
  /-- AUX_ADDR (R28). -/
  auxAddr : Word
  /-- AUX_LEN (R28). -/
  auxLen : Word
  /-- PRIMARY_INDEX (R29). -/
  primaryIndex : Word
  /-- ORIG_LEN (R30). -/
  origLen : Word
  /-- OUT_LEN (R31). -/
  outLen : Word
  /-- `L`, meaningful only while BUSY (R36, R41; log 3). -/
  latch : Latch
  /-- The buffer memory (R60). -/
  mem : Memory
  /-- The regions the host must leave alone until it observes BUSY = 0 (R72; log 9). -/
  held : List HeldRegion
  /-- The result registers the last completion wrote and the host has not synchronised with, each with the value it held
  before (R71, R307; log 8). -/
  unseen : List (RegName × Word)
  /-- The value the host's last read returned (R101; log 4). -/
  rdata : Word
  /-- The host's remaining statements (R101; log 4). -/
  script : List HostOp
  /-- Who moves next; when it is empty, the fair default of `State.nextTurn` (R37; log 5). -/
  turns : List Turn
  /-- How many free values have been drawn (logs 7, 8). -/
  draws : Nat
  deriving DecidableEq, Repr

/-- `L` after reset: "undefined after reset and … never read before a command is accepted" (R41). DESIGN CHOICE (log 3). -/
def Latch.zero : Latch := ⟨0, 0, 0, 0, 0, 0, 0, 0⟩

/-- The machine right after reset (R41, R300): every register 0, phase IDLE. The parameters are the vectors' (log 1), the
memory lists nothing (log 2), the model's own fields are empty (log 20). -/
def State.reset : State where
  cfg := Config.vectors
  cmd := 0
  status := 0
  err := 0
  errInfo0 := 0
  errInfo1 := 0
  srcAddr := 0
  srcLen := 0
  dstAddr := 0
  dstCap := 0
  auxAddr := 0
  auxLen := 0
  primaryIndex := 0
  origLen := 0
  outLen := 0
  latch := Latch.zero
  mem := []
  held := []
  unseen := []
  rdata := 0
  script := []
  turns := []
  draws := 0

/-- The machine at power-on of an implementation with parameters `c`: reset is "taken the same way at power-on" (R300) and
the content of buffer memory is unspecified (R62), so `m` is any memory. -/
def State.powerOn (c : Config) (m : Memory) : State := { State.reset with cfg := c, mem := m }

end Sys2Proof.Machine
end

