-- ==== Sys2Proof/Machine/Flags.lean ====
section
/-! DEFINITION. STATUS and ERR: every bit of STATUS (R23), how acceptance, completion, an error and an ignored CMD write
change it (R36, R90, R271), and the two fields of ERR (R24, R270, R272). -/

namespace Sys2Proof.Machine

/-- STATUS bit 0 (R23). -/
def statusBusy : Word := 0x01
/-- STATUS bit 1 (R23). -/
def statusDone : Word := 0x02
/-- STATUS bit 2 (R23). -/
def statusError : Word := 0x04
/-- STATUS bit 3 (R23). -/
def statusWarn : Word := 0x08
/-- STATUS bit 4 (R23). -/
def statusOverrun : Word := 0x10

/-- BUSY is set: "a command is accepted and not completed" (R23). -/
def State.busy (s : State) : Bool := s.status.getLsbD 0

/-- DONE is set (R23). -/
def State.done (s : State) : Bool := s.status.getLsbD 1

/-- ERROR is set (R23). -/
def State.error (s : State) : Bool := s.status.getLsbD 2

/-- WARN is set (R23). -/
def State.warned (s : State) : Bool := s.status.getLsbD 3

/-- OVERRUN is set (R23). -/
def State.overrun (s : State) : Bool := s.status.getLsbD 4

/-- STATUS when a command is accepted: BUSY alone (R36). -/
def statusOnAccept : Word := statusBusy

/-- STATUS when a CMD write is ignored: OVERRUN is set (R36). -/
def statusOnIgnoredWrite (old : Word) : Word := old ||| statusOverrun

/-- STATUS at a successful completion: "DONE | (OVERRUN as it stands)", with WARN for a LENGTH_MISMATCH (R90). -/
def statusOnDone (old : Word) (warn : Bool) : Word :=
  (if warn then statusDone ||| statusWarn else statusDone) ||| (old &&& statusOverrun)

/-- STATUS at an error: "ERROR | (OVERRUN as it stands)" (R271). -/
def statusOnError (old : Word) : Word := statusError ||| (old &&& statusOverrun)

/-- The legal values of STATUS: idle, BUSY, DONE, DONE with WARN, ERROR, and each but idle with OVERRUN also set (R23). -/
def statusLegal (w : Word) : Bool :=
  [0x00, 0x01, 0x11, 0x02, 0x12, 0x0A, 0x1A, 0x04, 0x14].contains w.toNat

/-- ERR.CODE (R270). -/
def ErrCode.num : ErrCode → Nat
  | .illegalCmd => 0x01
  | .addrRange => 0x02
  | .allocationFailure => 0x03
  | .emptyInput => 0x04
  | .capacityExceeded => 0x05
  | .dstTooSmall => 0x06
  | .metadataMissing => 0x07
  | .metadataTruncated => 0x08
  | .primaryRange => 0x09
  | .rleMalformed => 0x0A
  | .hufTableTruncated => 0x0B
  | .hufBitstreamUnderrun => 0x0C
  | .lengthMismatch => 0x0D

/-- ERR.STAGE (R272). -/
def Stage.num : Stage → Nat
  | .frame => 0
  | .suffixArray => 1
  | .bwtEncoder => 2
  | .bwtDecoder => 3
  | .mtfEncoder => 4
  | .mtfDecoder => 5
  | .rleEncoder => 6
  | .rleDecoder => 7
  | .huffmanTree => 8
  | .huffmanEncoder => 9
  | .huffmanDecoder => 10
  | .pipeline => 11

/-- The word of ERR: `(stage << 8) | code`, bits 31:16 zero (R24, R271). -/
def errWord (stage : Stage) (code : ErrCode) : Word := BitVec.ofNat 32 (stage.num * 256 + code.num)

end Sys2Proof.Machine
end

