-- ==== Sys2Proof/Machine/Operands.lean ====
section
/-! DEFINITION. The operand forms of a command: its three regions, taken from the latched record (R26–R28, R36), their
validity (R61), who holds them while BUSY (R72), and the stage numbers of the frame (R272). -/

namespace Sys2Proof.Machine

/-- A region is valid when `a + n <= MEM_BYTES`, "computed without wrap-around" (R61). -/
def regionValid (memBytes : Nat) (address len : Word) : Bool :=
  decide (address.toNat + len.toNat ≤ memBytes)

/-- Byte `a` lies in the region `(address, len)` (R61). -/
def inRegion (address len : Word) (a : Nat) : Bool :=
  decide (address.toNat ≤ a) && decide (a < address.toNat + len.toNat)

/-- `STAGE_OF[op]` (R272). -/
def stageOf : Instr → Stage
  | .saBuild => .suffixArray
  | .bwtEnc => .bwtEncoder
  | .bwtDec => .bwtDecoder
  | .mtfEnc => .mtfEncoder
  | .mtfDec => .mtfDecoder
  | .rleEnc => .rleEncoder
  | .rleDec => .rleDecoder
  | .hufCodes => .huffmanTree
  | .hufEnc => .huffmanEncoder
  | .hufDec => .huffmanDecoder
  | .pipeEnc => .pipeline
  | .pipeDec => .pipeline

/-- What a command does with its AUX region: PIPE_ENC writes it, PIPE_DEC reads it, "all other commands ignore them"
(R28). -/
def auxUse : Instr → Option RegionUse
  | .pipeEnc => some .output
  | .pipeDec => some .input
  | .saBuild | .bwtEnc | .bwtDec | .mtfEnc | .mtfDec | .rleEnc | .rleDec
  | .hufCodes | .hufEnc | .hufDec => none

/-- The use of the AUX region by an accepted word; an illegal word uses none (R91). -/
def auxUseOfWord (w : Word) : Option RegionUse :=
  match decode w with
  | .ok i => auxUse i
  | .error _ => none

/-- The regions of an accepted command that the host must leave alone: SRC as input, DST as output, and AUX as the command
uses it (R72; for an illegal word SRC and DST all the same, log 9). -/
def heldRegions (l : Latch) : List HeldRegion :=
  [⟨l.srcAddr, l.srcLen, .input⟩, ⟨l.dstAddr, l.dstCap, .output⟩] ++
    (match auxUseOfWord l.cmd with
     | some use => [⟨l.auxAddr, l.auxLen, use⟩]
     | none => [])

/-- The regions whose bytes are arbitrary after a reset abandoned the command: DST and, for PIPE_ENC, AUX (R301): the ones
held as output. -/
def abandonedRegions (l : Latch) : List HeldRegion :=
  (heldRegions l).filter (fun h => h.use == .output)

/-- Some held region contains byte `a`: the host may not write it (R72). -/
def hostMayNotWrite (held : List HeldRegion) (a : Nat) : Bool :=
  held.any (fun h => inRegion h.address h.len a)

/-- Some held output region contains byte `a`: the host may not read it (R72). -/
def hostMayNotRead (held : List HeldRegion) (a : Nat) : Bool :=
  held.any (fun h => h.use == .output && inRegion h.address h.len a)

/-- The offset of a register in the window (10_state.md section 2). -/
def RegName.offset : RegName → Nat
  | .id => 0x00
  | .cmd => 0x04
  | .status => 0x08
  | .err => 0x0C
  | .errInfo0 => 0x10
  | .errInfo1 => 0x14
  | .srcAddr => 0x18
  | .srcLen => 0x1C
  | .dstAddr => 0x20
  | .dstCap => 0x24
  | .auxAddr => 0x28
  | .auxLen => 0x2C
  | .primaryIndex => 0x30
  | .origLen => 0x34
  | .outLen => 0x38
  | .scratchLen => 0x3C
  | .memTop => 0x40

/-- The register at a word-aligned offset of the window; `none` for the reserved offsets 0x44–0xFC (R33). -/
def regAt (offset : Nat) : Option RegName :=
  match offset with
  | 0x00 => some .id
  | 0x04 => some .cmd
  | 0x08 => some .status
  | 0x0C => some .err
  | 0x10 => some .errInfo0
  | 0x14 => some .errInfo1
  | 0x18 => some .srcAddr
  | 0x1C => some .srcLen
  | 0x20 => some .dstAddr
  | 0x24 => some .dstCap
  | 0x28 => some .auxAddr
  | 0x2C => some .auxLen
  | 0x30 => some .primaryIndex
  | 0x34 => some .origLen
  | 0x38 => some .outLen
  | 0x3C => some .scratchLen
  | 0x40 => some .memTop
  | _ => none

/-- The size of the window in bytes: 64 words (10_state.md section 2). -/
def windowBytes : Nat := 0x100

/-- The offset of a host register access, where the access has a meaning: 32 bits wide, inside the window, at a
word-aligned offset (R34). Every other access is refused by name. -/
def regAccess (c : Config) (width : AccessWidth) (address : Nat) : Except Refusal Nat :=
  if width ≠ .word then .error (.registerAccessNot32Bit width)
  else if address < c.regBase ∨ c.regBase + windowBytes ≤ address then .error (.outsideRegisterWindow address)
  else if (address - c.regBase) % 4 ≠ 0 then .error (.registerOffsetUnaligned (address - c.regBase))
  else .ok (address - c.regBase)

end Sys2Proof.Machine
end

