-- ==== Sys2Proof/Machine/Ops.lean ====
section
/-! DEFINITION. The named operations over memory and registers: byte order (R16, R63), buffer memory (R60, R65, R66), the
register window (10_state.md section 2), command issue (R36), error entry (R271) and return from it (R274), successful
completion (R90), the observation of a completion (R71) and reset (R300, R301). -/

namespace Sys2Proof.Machine

/-! ### Numbers and byte order -/

/-- `sat32(v) = min(v, 2^32 - 1)` (R17, R25). -/
def sat32 (n : Nat) : Word := BitVec.ofNat 32 (min n (2 ^ 32 - 1))

/-- `le32(v)`: the least significant byte first (R16, R63). -/
def le32 (v : Word) : Buffer :=
  [v.extractLsb' 0 8, v.extractLsb' 8 8, v.extractLsb' 16 8, v.extractLsb' 24 8]

/-- `b[i]` (R15); every use is inside the buffer. -/
def byteAt (b : Buffer) (i : Nat) : Byte := b.getD i 0

/-- `rd_le32(b, off)` (R16). -/
def rdLe32 (b : Buffer) (off : Nat) : Word :=
  (byteAt b off).setWidth 32 ||| (byteAt b (off + 1)).setWidth 32 <<< 8 |||
    (byteAt b (off + 2)).setWidth 32 <<< 16 ||| (byteAt b (off + 3)).setWidth 32 <<< 24

/-! ### Buffer memory -/

/-- What an address that is not listed reads as. DESIGN CHOICE (log 2): R62 leaves the power-on content open. -/
def unlistedByte : Byte := 0

/-- The canonical form of a memory: addresses strictly rising, no entry equal to what an unlisted address reads as. -/
abbrev Memory.wf (m : Memory) : Prop :=
  m.Pairwise (fun c d => c.1 < d.1) ∧ ∀ c ∈ m, c.2 ≠ unlistedByte

/-- Every listed address exists: `0 .. MEM_BYTES-1` (R60). -/
abbrev Memory.inside (memBytes : Nat) (m : Memory) : Prop := ∀ c ∈ m, c.1 < memBytes

/-- Read one byte (R65): no side effect. -/
def Memory.read (m : Memory) (a : Nat) : Byte := (m.lookup a).getD unlistedByte

/-- The entries of a buffer that starts at an address. -/
def cellsOf (a : Nat) : Buffer → Memory
  | [] => []
  | b :: bs => if b = unlistedByte then cellsOf (a + 1) bs else (a, b) :: cellsOf (a + 1) bs

/-- `MemWrite(addr, n, v)`: byte `v[i]` to address `addr+i` (R16). -/
def Memory.write (m : Memory) (a : Nat) (v : Buffer) : Memory :=
  m.filter (fun c => decide (c.1 < a)) ++ cellsOf a v ++ m.filter (fun c => decide (a + v.length ≤ c.1))

/-- `MemRead(addr, n)`: the bytes at `addr .. addr+n-1` (R16). -/
def Memory.readBuf (m : Memory) (a n : Nat) : Buffer := (List.range n).map (fun i => m.read (a + i))

/-- The bytes of an abandoned region hold arbitrary values; bytes that do not exist stay so (R301, R60; logs 7, 10). -/
def Memory.abandon (memBytes draw : Nat) (m : Memory) (h : HeldRegion) : Memory :=
  m.write h.address.toNat
    ((List.range (min h.len.toNat (memBytes - h.address.toNat))).map
      (fun i => Config.abandonedByte draw (h.address.toNat + i)))

/-! ### Reporting an allocation -/

/-- `Alloc(stage, L)` (R17). -/
def alloc (scratch : Nat) (stage : Stage) (len : Nat) : Except Report Unit :=
  if scratch < len then .error ⟨.allocationFailure, stage, sat32 len, sat32 scratch⟩ else .ok ()

/-! ### The register window -/

/-- The value of a register as it stands (R21–R32). -/
def State.reg (s : State) : RegName → Word
  | .id => 0x54430007
  | .cmd => s.cmd
  | .status => s.status
  | .err => s.err
  | .errInfo0 => s.errInfo0
  | .errInfo1 => s.errInfo1
  | .srcAddr => s.srcAddr
  | .srcLen => s.srcLen
  | .dstAddr => s.dstAddr
  | .dstCap => s.dstCap
  | .auxAddr => s.auxAddr
  | .auxLen => s.auxLen
  | .primaryIndex => s.primaryIndex
  | .origLen => s.origLen
  | .outLen => s.outLen
  | .scratchLen => BitVec.ofNat 32 s.cfg.scratchLen
  | .memTop => BitVec.ofNat 32 (s.cfg.memBytes - 1)

/-- The accepting branch of a CMD write (R36): latch the operands, BUSY, clear the report. It is also the return from an
error (R274). From here on the host must leave the command's regions alone (R72), and while BUSY a result register reads the
value it has here, from before the command (R307, D42). -/
def State.accept (w : Word) (s : State) : State :=
  let l : Latch := ⟨w, s.srcAddr, s.srcLen, s.dstAddr, s.dstCap, s.auxAddr, s.auxLen, s.primaryIndex⟩
  { s with
    cmd := w
    latch := l
    status := statusOnAccept
    err := 0
    errInfo0 := 0
    errInfo1 := 0
    outLen := 0
    held := s.held ++ heldRegions l
    unseen := [] }

/-- The ignoring branch of a CMD write: only OVERRUN is set (R36, R306). -/
def State.ignoreCmd (s : State) : State := { s with status := statusOnIgnoredWrite s.status }

/-- Command issue: a host write of a word to CMD (R36). -/
def State.issue (w : Word) (s : State) : State := if s.busy then s.ignoreCmd else s.accept w

/-- A host write to a register (R21–R33): CMD issues a command, the operand registers take the value, and the read-only
registers ignore it. A host write to PRIMARY_INDEX supersedes an unobserved result in it (log 8). -/
def State.hostWriteReg (s : State) (v : Word) : RegName → State
  | .cmd => s.issue v
  | .srcAddr => { s with srcAddr := v }
  | .srcLen => { s with srcLen := v }
  | .dstAddr => { s with dstAddr := v }
  | .dstCap => { s with dstCap := v }
  | .auxAddr => { s with auxAddr := v }
  | .auxLen => { s with auxLen := v }
  | .primaryIndex => { s with primaryIndex := v, unseen := s.unseen.filter (fun e => e.1 != .primaryIndex) }
  | .id | .status | .err | .errInfo0 | .errInfo1 | .origLen | .outLen | .scratchLen | .memTop => s

/-- The host reads STATUS: once it sees BUSY = 0 every earlier completion is visible to it, and its duties end
(R71, R72). -/
def State.observe (s : State) : State :=
  if s.busy then s else { s with held := [], unseen := [] }

/-- A host read of a register (R21–R33). A result register that a completion wrote and no STATUS read has synchronised
with yet gives its new value or the one it held before, as a free value decides (R71, R307; log 8). -/
def State.hostReadReg (s : State) (r : RegName) : State :=
  match r with
  | .status => { s.observe with rdata := s.status }
  | r =>
    match s.unseen.lookup r with
    | some old => { s with rdata := if Config.seesCompletion s.draws then s.reg r else old, draws := s.draws + 1 }
    | none => { s with rdata := s.reg r }

/-! ### Ending a command -/

/-- The registers an ending writes, each with the value it still holds (log 8). -/
def State.before (s : State) (written : List RegName) : List (RegName × Word) := written.map (fun r => (r, s.reg r))

/-- Error entry, `raise E(stage, i0, i1)` (R271): the error registers, OUT_LEN = 0 and STATUS; nothing else changes, no byte
of memory is written (R66). -/
def State.raiseError (r : Report) (s : State) : State :=
  { s with
    err := errWord r.stage r.code
    errInfo0 := r.info0
    errInfo1 := r.info1
    outLen := 0
    status := statusOnError s.status
    unseen := s.before [.err, .errInfo0, .errInfo1] }

/-- The result registers a successful completion writes (R90). -/
def CmdResult.regsWritten (res : CmdResult) : List RegName :=
  [.outLen] ++ (if res.primaryIndex.isSome then [.primaryIndex] else []) ++
    (if res.origLen.isSome then [.origLen] else []) ++
    (if res.warn.isSome then [.err, .errInfo0, .errInfo1] else [])

/-- The memory after the commit: the output bytes at DST, then the metadata record at AUX (R66, R67). -/
def CmdResult.commit (res : CmdResult) (l : Latch) (m : Memory) : Memory :=
  let m := m.write l.dstAddr.toNat res.out
  match res.metadata with
  | some record => m.write l.auxAddr.toNat record
  | none => m

/-- Successful completion (R90): commit, OUT_LEN, the registers of the result, and DONE, with WARN and the LENGTH_MISMATCH
report when the result carries the warning (R246, R276). -/
def State.complete (res : CmdResult) (s : State) : State :=
  { s with
    mem := res.commit s.latch s.mem
    outLen := BitVec.ofNat 32 res.out.length
    primaryIndex := res.primaryIndex.getD s.primaryIndex
    origLen := res.origLen.getD s.origLen
    err := if res.warn.isSome then errWord .pipeline .lengthMismatch else s.err
    errInfo0 := match res.warn with | some w => w.1 | none => s.errInfo0
    errInfo1 := match res.warn with | some w => w.2 | none => s.errInfo1
    status := statusOnDone s.status res.warn.isSome
    unseen := s.before res.regsWritten }

/-! ### Reset -/

/-- The memory after a reset: as it was, but for the output regions of a command the reset abandoned (R41, R301). -/
def State.memAfterReset (s : State) : Memory :=
  if s.busy then (abandonedRegions s.latch).foldl (Memory.abandon s.cfg.memBytes s.draws) s.mem else s.mem

/-- The reset event (R300, R301): every register as `State.reset` has it. The parameters are the implementation's; the
host's script, its last read and the turn order are no part of the block and stay (log 14). -/
def State.resetEvent (s : State) : State :=
  { State.reset with
    cfg := s.cfg
    mem := s.memAfterReset
    rdata := s.rdata
    script := s.script
    turns := s.turns
    draws := if s.busy then s.draws + 1 else s.draws }

end Sys2Proof.Machine
end

