-- ==== Sys2Proof/Machine/Frame.lean ====
section
/-! DEFINITION. The command frame `Execute(L)` (R90): the checks in their order of priority (R273), the command's own
function, the capacity checks, and then either the commit or the error entry. -/

namespace Sys2Proof.Machine

/-- `raise` when a condition holds (R17). -/
def failIf (bad : Bool) (code : ErrCode) (stage : Stage) (info0 info1 : Word) : Except Report Unit :=
  if bad then .error ⟨code, stage, info0, info1⟩ else .ok ()

/-- The region checks (R61): SRC, then DST, then AUX for the two commands that use it (R273). -/
def regionChecks (i : Instr) (memBytes : Nat) (l : Latch) : Except Report Unit := do
  failIf (!regionValid memBytes l.srcAddr l.srcLen) .addrRange .frame 1 l.srcLen
  failIf (!regionValid memBytes l.dstAddr l.dstCap) .addrRange .frame 2 l.dstCap
  failIf ((auxUse i).isSome && !regionValid memBytes l.auxAddr l.auxLen) .addrRange .frame 3 l.auxLen

/-- `src <- MemRead(L.src_addr, L.src_len)` (R90). -/
def State.srcBuf (s : State) : Buffer := s.mem.readBuf s.latch.srcAddr.toNat s.latch.srcLen.toNat

/-- `aux <- (op = PIPE_DEC) ? MemRead(L.aux_addr, L.aux_len) : []` (R90). -/
def State.auxBuf (i : Instr) (s : State) : Buffer :=
  if auxUse i = some .input then s.mem.readBuf s.latch.auxAddr.toNat s.latch.auxLen.toNat else []

/-- The capacity checks after the computation (R90, R273): DST, then the AUX region of PIPE_ENC. -/
def capacityChecks (i : Instr) (l : Latch) (res : CmdResult) : Except Report Unit := do
  failIf (decide (l.dstCap.toNat < res.out.length)) .dstTooSmall (stageOf i) l.dstCap (sat32 res.out.length)
  failIf (decide (auxUse i = some .output) && decide (l.auxLen.toNat < 8)) .dstTooSmall .pipeline l.auxLen 8

/-- Everything of `Execute(L)` before the commit: the result, or the one error the command reports (R90, R273). -/
def frameResult (i : Instr) (body : CmdBody) (s : State) : Except Report CmdResult := do
  regionChecks i s.cfg.memBytes s.latch
  alloc s.cfg.scratchLen (stageOf i) s.latch.srcLen.toNat
  let res ← body s.cfg.scratchLen s.srcBuf (s.auxBuf i) s.latch
  capacityChecks i s.latch res
  return res

/-- `Execute(L)` for a legal command word (R90): commit or error entry, in one indivisible transition (R37, R66). -/
def execute (i : Instr) (body : CmdBody) (s : State) : Host.Outcome State Fault Refusal :=
  match frameResult i body s with
  | .ok res => .next (s.complete res)
  | .error r => .next (s.raiseError r)

/-- `Execute(L)` for an illegal command word: ILLEGAL_CMD, stage 0, the word, and no memory access (R91, R93). -/
def executeIllegal (s : State) : Host.Outcome State Fault Refusal :=
  .next (s.raiseError ⟨.illegalCmd, .frame, s.latch.cmd, 0⟩)

end Sys2Proof.Machine
end

