-- ==== Sys2Proof/Machine/SuffixArray.lean ====
section
/-! DEFINITION. The suffix array builder (40_suffix_array.md): rank doubling over a stable counting sort, and SA_BUILD. -/

namespace Sys2Proof.Machine

/-- `rank[i]`; every use is inside the array. -/
def rankAt (rank : List Nat) (i : Nat) : Nat := rank.getD i 0

/-- `key2(i)`: the rank `k` places on, shifted by one, or 0 for the sentinel (R121, D38). -/
def key2 (rank : List Nat) (n k i : Nat) : Nat := if i + k < n then rankAt rank (i + k) + 1 else 0

/-- `a[j] <- a[j] + 1`. -/
def bump (a : List Nat) (j : Nat) : List Nat := a.set j (a.getD j 0 + 1)

/-- `cnt` of `CountingSort`: how many entries have each key (R122). -/
def keyCounts (key : Nat → Nat) (buckets : Nat) (arr : List Nat) : List Nat :=
  arr.foldl (fun cnt x => bump cnt (key x)) (List.replicate buckets 0)

/-- `start` of `CountingSort`: the sums of the counts before each bucket (R122). -/
def bucketStarts : (sum : Nat) → (cnt : List Nat) → List Nat
  | _, [] => []
  | sum, c :: cs => sum :: bucketStarts (sum + c) cs

/-- The last loop of `CountingSort`: each entry, in order, goes to the next free place of its bucket (R122). -/
def scatter (key : Nat → Nat) : (arr start out : List Nat) → List Nat
  | [], _, out => out
  | x :: xs, start, out => scatter key xs (bump start (key x)) (out.set (start.getD (key x) 0) x)

/-- `CountingSort(arr, key, B)` (R122). -/
def countingSort (arr : List Nat) (key : Nat → Nat) (buckets : Nat) : List Nat :=
  scatter key arr (bucketStarts 0 (keyCounts key buckets arr)) (List.replicate arr.length 0)

/-- `pair(x) < pair(y)`, lexicographic (R18, R121); `key2` orders as the rank or `SENT` does. -/
def pairLt (rank : List Nat) (n k x y : Nat) : Bool :=
  decide (rankAt rank x < rankAt rank y) ||
    (decide (rankAt rank x = rankAt rank y) && decide (key2 rank n k x < key2 rank n k y))

/-- The new ranks of `Rerank` along the suffix array: one more than the previous entry's where its pair is smaller, else the
same (R123). -/
def ranksAlong (lt : Nat → Nat → Bool) : (prev r : Nat) → (sa : List Nat) → List (Nat × Nat)
  | _, _, [] => []
  | prev, r, x :: xs =>
    (x, if lt prev x then r + 1 else r) :: ranksAlong lt x (if lt prev x then r + 1 else r) xs

/-- `Rerank(sa, rank, k, n)`: every pair is evaluated on the old ranks (R123). -/
def rerank (sa rank : List Nat) (k n : Nat) : List Nat :=
  match sa with
  | [] => []
  | x :: xs =>
    ((x, 0) :: ranksAlong (pairLt rank n k) x 0 xs).foldl (fun new p => new.set p.1 p.2) (List.replicate n 0)

/-- `m`, the largest rank (R124). -/
def maxRank (rank : List Nat) : Nat := rank.foldl max 0

/-- Steps a and b of a round: the secondary pass with `m + 2` buckets, then the primary pass with `m + 1` (R124, R128). -/
def sortRound (sa rank : List Nat) (k n : Nat) : List Nat :=
  countingSort (countingSort sa (key2 rank n k) (maxRank rank + 2)) (rankAt rank) (maxRank rank + 1)

/-- The `while k < n` loop of `SuffixArray` (R124). `fuel` bounds the rounds; `n` of them are always enough, since `k`
doubles (log 16). -/
def doublingRounds (n : Nat) : (fuel k : Nat) → (sa rank : List Nat) → List Nat
  | 0, _, sa, _ => sa
  | fuel + 1, k, sa, rank =>
    if k < n then
      let sa := sortRound sa rank k n
      let rank := rerank sa rank k n
      if rankAt rank (sa.getD (n - 1) 0) = n - 1 then sa else doublingRounds n fuel (2 * k) sa rank
    else sa

/-- `SuffixArray(buf)` (R124). -/
def suffixArray (buf : Buffer) : List Nat :=
  doublingRounds buf.length buf.length 1 (List.range buf.length) (buf.map BitVec.toNat)

/-- The suffix-array record (R95). -/
def saRecord (sa : List Nat) : Buffer := sa.flatMap (fun i => le32 (BitVec.ofNat 32 i))

/-- `OP_SA_BUILD` (R125). -/
def opSaBuild : CmdBody := fun scratch src _aux _l => do
  alloc scratch .suffixArray src.length
  return { out := saRecord (suffixArray src) }

/-- SA_BUILD (R125). -/
def execSaBuild (s : State) : Host.Outcome State Fault Refusal := execute .saBuild opSaBuild s

end Sys2Proof.Machine
end

