-- ==== Sys2Proof/Machine/Bwt.lean ====
section
/-! DEFINITION. The BWT encoder and decoder (41_bwt.md): BWT_ENC and BWT_DEC. -/

namespace Sys2Proof.Machine

/-- sa_to_bwt: `buf[(sa[i] - 1 + n) mod n]` for each entry (R140). -/
def saToBwt (buf : Buffer) (sa : List Nat) : Buffer :=
  sa.map (fun j => byteAt buf ((j + buf.length - 1) % buf.length))

/-- primary_index_calc: the `i` with `sa[i] = 0` (R140). -/
def primaryIndexCalc (sa : List Nat) : Nat := sa.idxOf 0

/-- `BwtEncode(buf)` (R140). -/
def bwtEncode (buf : Buffer) : Buffer × Nat :=
  if buf.length = 0 then ([], 0)
  else (saToBwt buf (suffixArray buf), primaryIndexCalc (suffixArray buf))

/-- `OP_BWT_ENC` (R141). -/
def opBwtEnc : CmdBody := fun scratch src _aux _l => do
  alloc scratch .bwtEncoder src.length
  return { out := (bwtEncode src).1, primaryIndex := some (BitVec.ofNat 32 (bwtEncode src).2) }

/-- BWT_ENC (R141). -/
def execBwtEnc (s : State) : Host.Outcome State Fault Refusal := execute .bwtEnc opBwtEnc s

/-- `rankL[i]`: "the count of occurrences of that byte among BWT positions `0..i-1`" (R142 item 2). -/
def rankL (bwt : Buffer) (i : Nat) : Nat := (bwt.take i).count (byteAt bwt i)

/-- `firstOcc[byte]`: the "cumulative count of strictly smaller byte values" (R142 item 3), bytes unsigned (D45). -/
def firstOcc (bwt : Buffer) (c : Byte) : Nat := bwt.countP (fun b => decide (b.toNat < c.toNat))

/-- `LfTable(bwt)`: `LF[i] = firstOcc[bwt[i]] + rankL[i]` (R142 item 4). -/
def lfTable (bwt : Buffer) : List Nat :=
  (List.range bwt.length).map (fun i => firstOcc bwt (byteAt bwt i) + rankL bwt i)

/-- The walk of `BwtDecode`: it fills the buffer from its end, `decoded[n-1-step] = bwt[pos]` (R143). -/
def lfWalk (bwt : Buffer) (lf : List Nat) : (steps pos : Nat) → (decoded : Buffer) → Buffer
  | 0, _, decoded => decoded
  | steps + 1, pos, decoded => lfWalk bwt lf steps (lf.getD pos 0) (byteAt bwt pos :: decoded)

/-- `BwtDecode(bwt, p)` (R143). -/
def bwtDecode (bwt : Buffer) (p : Nat) : Buffer := lfWalk bwt (lfTable bwt) bwt.length p []

/-- The primary index range check: `p` is a signed int32, out of range only for a nonempty buffer (R144). -/
def primaryRangeCheck (p : Word) (n : Nat) : Except Report Unit :=
  failIf (decide (0 < n) && (decide (p.toInt < 0) || decide ((n : Int) ≤ p.toInt)))
    .primaryRange .bwtDecoder p (sat32 n)

/-- `OP_BWT_DEC` (R146). -/
def opBwtDec : CmdBody := fun scratch src _aux l => do
  primaryRangeCheck l.primaryIndex src.length
  alloc scratch .bwtDecoder src.length
  return { out := bwtDecode src l.primaryIndex.toNat }

/-- BWT_DEC (R146). -/
def execBwtDec (s : State) : Host.Outcome State Fault Refusal := execute .bwtDec opBwtDec s

end Sys2Proof.Machine
end

