-- ==== Sys2Proof/Machine/HuffmanTree.lean ====
section
/-! DEFINITION. The type of Huffman tree nodes (R201). -/

namespace Sys2Proof.Machine

/-- A node (R201): a leaf carries one byte value, an internal node its children; both a frequency, exact and without
wrap-around, and a sequence number. -/
inductive HuffNode where
  | leaf (sym : Byte) (freq seq : Nat)
  | node (left right : HuffNode) (freq seq : Nat)
  deriving DecidableEq, Repr

end Sys2Proof.Machine
end

