-- ==== Sys2Proof/Machine/Huffman.lean ====
section
/-! DEFINITION. The Huffman tree builder, encoder with bitstream packer and decoder with bitstream unpacker (44_huffman.md):
HUF_CODES, HUF_ENC and HUF_DEC. -/

namespace Sys2Proof.Machine

/-! ### Frequency table and tree -/

/-- The 256 byte values in order. -/
def allBytes : List Byte := (List.range 256).map (BitVec.ofNat 8)

/-- `Freq(buf)`: the occurrences of each byte value, zero entries included (R200). -/
def freqOf (buf : Buffer) : List Nat := allBytes.map (fun s => buf.count s)

/-- The frequency of a node (R201). -/
def nodeFreq : HuffNode → Nat
  | .leaf _ f _ => f
  | .node _ _ f _ => f

/-- The sequence number of a node (R201). -/
def nodeSeq : HuffNode → Nat
  | .leaf _ _ q => q
  | .node _ _ _ q => q

/-- The order of extraction: the smaller pair `(f, seq)`, lexicographic (R203). -/
def nodeBefore (a b : HuffNode) : Bool :=
  decide (nodeFreq a < nodeFreq b) || (decide (nodeFreq a = nodeFreq b) && decide (nodeSeq a < nodeSeq b))

/-- The queue at the start: one leaf per byte value with nonzero frequency, its `seq` the symbol (R202, R203). -/
def huffLeaves (freq : List Nat) : List HuffNode :=
  (List.range 256).filterMap
    (fun s => if freq.getD s 0 = 0 then none else some (.leaf (BitVec.ofNat 8 s) (freq.getD s 0) s))

/-- `ExtractMin(Q)` (R203): the smallest node and the nodes left. -/
def extractMin : List HuffNode → Option (HuffNode × List HuffNode)
  | [] => none
  | a :: rest =>
    match extractMin rest with
    | none => some (a, [])
    | some (m, others) => if nodeBefore a m then some (a, rest) else some (m, a :: others)

/-- The loop of `BuildTree` (R202): the first node extracted becomes the left child (R205), the new node's `seq` is
`256 + t`. `fuel` is at least the size of the queue, so it never ends the loop. -/
def mergeNodes : (fuel t : Nat) → List HuffNode → Option HuffNode
  | 0, _, _ => none
  | fuel + 1, t, q =>
    match extractMin q with
    | none => none
    | some (a, q) =>
      match extractMin q with
      | none => some a
      | some (b, q) => mergeNodes fuel (t + 1) (.node a b (nodeFreq a + nodeFreq b) (256 + t) :: q)

/-- `BuildTree(freq)` (R202); `none` when all frequencies are zero, a single leaf when one is not (R204). -/
def buildTree (freq : List Nat) : Option HuffNode :=
  mergeNodes (huffLeaves freq).length 0 (huffLeaves freq)

/-- `visit(n, p)` of `Codes`: 0 descending left, 1 descending right (R205). -/
def visitCodes : HuffNode → (path : Bits) → List (Byte × Bits)
  | .leaf sym _ _, path => [(sym, path)]
  | .node left right _ _, path => visitCodes left (path ++ [false]) ++ visitCodes right (path ++ [true])

/-- `Codes(root)` (R205): an entry exactly for the symbols of the tree. -/
def codesOf : Option HuffNode → List (Byte × Bits)
  | none => []
  | some root => visitCodes root []

/-- `Codes(BuildTree(freq))`. -/
def codeTable (freq : List Nat) : List (Byte × Bits) := codesOf (buildTree freq)

/-- `code[s]`, absent for a symbol without an entry (R205). -/
def codeFor (code : List (Byte × Bits)) (s : Byte) : Option Bits := code.lookup s

/-! ### Packing and unpacking -/

/-- The byte whose bit `7 - r` is bit `r` of the sequence, and 0 past its end (R97). -/
def packByte (bits : Bits) : Byte :=
  BitVec.ofNat 8 ((List.range 8).foldl (fun acc r => 2 * acc + (bits.getD r false).toNat) 0)

/-- `Pack(bits)`: MSB first, the final byte zero-padded on the low bits (R97, R208). -/
def packBits (bits : Bits) : Buffer :=
  (List.range ((bits.length + 7) / 8)).map (fun q => packByte ((bits.drop (8 * q)).take 8))

/-- The bits of a byte, bit 7 first (R209). -/
def unpackByte (b : Byte) : Bits := (List.range 8).map (fun r => b.getLsbD (7 - r))

/-- The bits of a buffer in the order the decoder reads them (R209). -/
def unpackBits (b : Buffer) : Bits := b.flatMap unpackByte

/-! ### The frequency-table record -/

/-- The frequency-table record: 256 little-endian words, 1024 bytes (R96). -/
def freqRecord (freq : List Nat) : Buffer :=
  (List.range 256).flatMap (fun s => le32 (BitVec.ofNat 32 (freq.getD s 0)))

/-- The first `n` little-endian words of a buffer, read from left to right (R16, R96). -/
def readWords : (n : Nat) → Buffer → List Nat
  | n + 1, a :: b :: c :: d :: rest => (rdLe32 [a, b, c, d] 0).toNat :: readWords n rest
  | _, _ => []

/-- `freq[s] = rd_le32(table, 4s)` for each of the 256 entries (R96); every use is on a table of at least 1024 bytes, where
`Laws/Stages.lean` says so entry by entry. -/
def readFreqs (table : Buffer) : List Nat := readWords 256 table

/-- A table shorter than 1024 bytes is HUF_TABLE_TRUNCATED (R209, R210). -/
def tableCheck (stage : Stage) (table : Buffer) : Except Report Unit :=
  failIf (decide (table.length < 1024)) .hufTableTruncated stage (sat32 table.length) 1024

/-! ### Encoding and decoding -/

/-- `B = Σ_s freq[s] · len(code[s])`, the number of payload bits (R208, R211). -/
def payloadBits (freq : List Nat) : Nat :=
  ((codeTable freq).map (fun e => freq.getD e.1.toNat 0 * e.2.length)).sum

/-- The length of a payload, `1024 + ceil(B/8)` (R97). -/
def payloadLength (freq : List Nat) : Nat := 1024 + (payloadBits freq + 7) / 8

/-- The code bits of a buffer, one code after the other (R208). -/
def codeBits (code : List (Byte × Bits)) (buf : Buffer) : Bits := buf.flatMap (fun b => (codeFor code b).getD [])

/-- `HuffEncode(buf)` (R208). -/
def huffEncode (buf : Buffer) : Buffer :=
  freqRecord (freqOf buf) ++ packBits (codeBits (codeTable (freqOf buf)) buf)

/-- One walk of `HuffDecode` from a node to a leaf: the symbol and the bits left, or `none` when the bits run out
(R209). -/
def huffWalk : HuffNode → Bits → Option (Byte × Bits)
  | .leaf sym _ _, bits => some (sym, bits)
  | .node _ _ _ _, [] => none
  | .node left right _ _, bit :: bits => if bit then huffWalk right bits else huffWalk left bits

/-- The loop of `HuffDecode`: `n` more symbols, `out` holding those decoded so far, the last first. When the bits run out,
the error is the number of symbols decoded (R209). -/
def huffSymbols (root : HuffNode) : (n : Nat) → Bits → (out : Buffer) → Except Nat Buffer
  | 0, _, out => .ok out.reverse
  | n + 1, bits, out =>
    match huffWalk root bits with
    | none => .error out.length
    | some (sym, bits) => huffSymbols root n bits (sym :: out)

/-- The symbols of a payload once the tree is known: a one-leaf tree consumes no bits (R206, R209). -/
def huffEmit (root : HuffNode) (total : Nat) (bits : Bits) : Except Nat Buffer :=
  match root with
  | .leaf sym _ _ => .ok (List.replicate total sym)
  | .node l r f q => huffSymbols (.node l r f q) total bits []

/-- `HuffDecode(payload, stage)` (R209). -/
def huffDecode (scratch : Nat) (stage : Stage) (payload : Buffer) : Except Report Buffer := do
  tableCheck stage payload
  let total := (readFreqs payload).sum
  alloc scratch stage total
  match buildTree (readFreqs payload) with
  | none => return []
  | some root =>
    match huffEmit root total (unpackBits (payload.drop 1024)) with
    | .ok out => return out
    | .error decoded => throw ⟨.hufBitstreamUnderrun, stage, sat32 decoded, sat32 total⟩

/-! ### The commands -/

/-- One entry of the code-table record: PRESENT, LEN, two reserved bytes and 32 bytes of CODE (R100). -/
def codeEntry : Option Bits → Buffer
  | none => List.replicate 36 0
  | some c => [1, BitVec.ofNat 8 c.length, 0, 0] ++ packBits c ++ List.replicate (32 - (packBits c).length) 0

/-- The code-table record: 256 entries of 36 bytes (R100). -/
def codeRecord (code : List (Byte × Bits)) : Buffer := allBytes.flatMap (fun s => codeEntry (codeFor code s))

/-- `OP_HUF_CODES` (R210). -/
def opHufCodes : CmdBody := fun _scratch src _aux _l => do
  tableCheck .huffmanTree src
  return { out := codeRecord (codeTable (readFreqs src)) }

/-- HUF_CODES (R210). -/
def execHufCodes (s : State) : Host.Outcome State Fault Refusal := execute .hufCodes opHufCodes s

/-- `OP_HUF_ENC` (R211). -/
def opHufEnc : CmdBody := fun scratch src _aux _l => do
  alloc scratch .huffmanEncoder (payloadLength (freqOf src))
  return { out := huffEncode src }

/-- HUF_ENC (R211). -/
def execHufEnc (s : State) : Host.Outcome State Fault Refusal := execute .hufEnc opHufEnc s

/-- `OP_HUF_DEC` (R213). -/
def opHufDec : CmdBody := fun scratch src _aux _l => do
  let out ← huffDecode scratch .huffmanDecoder src
  return { out := out }

/-- HUF_DEC (R213). -/
def execHufDec (s : State) : Host.Outcome State Fault Refusal := execute .hufDec opHufDec s

end Sys2Proof.Machine
end

