-- ==== Sys2Proof/Machine/Mtf.lean ====
section
/-! DEFINITION. The MTF encoder and decoder (42_mtf.md): MTF_ENC and MTF_DEC. -/

namespace Sys2Proof.Machine

/-- The symbol list at the start of each transform: the identity (R160). -/
def mtfIdentity : List Byte := (List.range 256).map (BitVec.ofNat 8)

/-- `MoveToFront(list, j)`: the entry at `j` goes to the front, the entries before it move right by one (R161). -/
def moveToFront (list : List Byte) (j : Nat) : List Byte := list.getD j 0 :: list.eraseIdx j

/-- The loop of `MtfEncode` from a given list (R164). -/
def mtfEncodeFrom : (list : List Byte) → Buffer → Buffer
  | _, [] => []
  | list, b :: bs => BitVec.ofNat 8 (list.idxOf b) :: mtfEncodeFrom (moveToFront list (list.idxOf b)) bs

/-- `MtfEncode(buf)` (R164). -/
def mtfEncode (buf : Buffer) : Buffer := mtfEncodeFrom mtfIdentity buf

/-- The loop of `MtfDecode` from a given list (R164). -/
def mtfDecodeFrom : (list : List Byte) → Buffer → Buffer
  | _, [] => []
  | list, j :: js => list.getD j.toNat 0 :: mtfDecodeFrom (moveToFront list j.toNat) js

/-- `MtfDecode(idx)` (R164). -/
def mtfDecode (idx : Buffer) : Buffer := mtfDecodeFrom mtfIdentity idx

/-- An empty buffer is EMPTY_INPUT for an MTF command (R165). -/
def emptyCheck (stage : Stage) (src : Buffer) : Except Report Unit := failIf src.isEmpty .emptyInput stage 0 0

/-- `OP_MTF_ENC` (R162). -/
def opMtfEnc : CmdBody := fun scratch src _aux _l => do
  emptyCheck .mtfEncoder src
  alloc scratch .mtfEncoder src.length
  return { out := mtfEncode src }

/-- MTF_ENC (R162). -/
def execMtfEnc (s : State) : Host.Outcome State Fault Refusal := execute .mtfEnc opMtfEnc s

/-- `OP_MTF_DEC` (R163). -/
def opMtfDec : CmdBody := fun scratch src _aux _l => do
  emptyCheck .mtfDecoder src
  alloc scratch .mtfDecoder src.length
  return { out := mtfDecode src }

/-- MTF_DEC (R163). -/
def execMtfDec (s : State) : Host.Outcome State Fault Refusal := execute .mtfDec opMtfDec s

end Sys2Proof.Machine
end

