-- ==== Sys2Proof/Machine/Rle.lean ====
section
/-! DEFINITION. The RLE encoder and decoder (43_rle.md): RLE_ENC and RLE_DEC. -/

namespace Sys2Proof.Machine

/-- The scan of `RleEncode` inside the run `(v, count)`: "incrementing `count` while the next byte equals `value` and
`count < 255`; otherwise flush `(count, value)`"; the final run is flushed (R180). -/
def rleRuns (v : Byte) (count : Nat) : Buffer → Buffer
  | [] => [BitVec.ofNat 8 count, v]
  | b :: bs =>
    if b = v ∧ count < 255 then rleRuns v (count + 1) bs
    else BitVec.ofNat 8 count :: v :: rleRuns b 1 bs

/-- `RleEncode(buf)` (R180); an empty input has no run (D24). -/
def rleEncode : Buffer → Buffer
  | [] => []
  | b :: bs => rleRuns b 1 bs

/-- `RleDecode(stream)` for an even-length stream (R182); a zero count emits nothing. -/
def rleDecode : Buffer → Buffer
  | c :: v :: rest => List.replicate c.toNat v ++ rleDecode rest
  | _ => []

/-- `Σ_j src[2j]`, the decoded length (R183). -/
def rleTotal : Buffer → Nat
  | c :: _ :: rest => c.toNat + rleTotal rest
  | _ => 0

/-- An odd-length stream is RLE_MALFORMED, before any byte is decoded (R182). -/
def rleOddCheck (stream : Buffer) : Except Report Unit :=
  failIf (decide (stream.length % 2 = 1)) .rleMalformed .rleDecoder (sat32 stream.length) 0

/-- `OP_RLE_ENC` (R181): the capacity test is on the worst case, before any run is formed. -/
def opRleEnc : CmdBody := fun scratch src _aux l => do
  failIf (decide (l.dstCap.toNat < 2 * src.length)) .capacityExceeded .rleEncoder l.dstCap (sat32 (2 * src.length))
  alloc scratch .rleEncoder (2 * src.length)
  return { out := rleEncode src }

/-- RLE_ENC (R181). -/
def execRleEnc (s : State) : Host.Outcome State Fault Refusal := execute .rleEnc opRleEnc s

/-- `OP_RLE_DEC` (R183). -/
def opRleDec : CmdBody := fun scratch src _aux _l => do
  rleOddCheck src
  alloc scratch .rleDecoder (rleTotal src)
  return { out := rleDecode src }

/-- RLE_DEC (R183). -/
def execRleDec (s : State) : Host.Outcome State Fault Refusal := execute .rleDec opRleDec s

end Sys2Proof.Machine
end

