-- ==== Sys2Proof/Machine/Pipeline.lean ====
section
/-! DEFINITION. The pipeline orchestrator and its metadata contract (45_pipeline.md): PIPE_ENC and PIPE_DEC. -/

namespace Sys2Proof.Machine

/-- The metadata record: `le32(primary_index mod 2^32) ++ le32(original_length)` (R99). -/
def metadataRecord (primaryIndex originalLength : Word) : Buffer := le32 primaryIndex ++ le32 originalLength

/-- The MTF stage of the forward pipeline: an empty buffer passes unchanged (R240). -/
def pipeMtfEncode (scratch : Nat) (b : Buffer) : Except Report Buffer :=
  if b.isEmpty then .ok []
  else do
    alloc scratch .mtfEncoder b.length
    return mtfEncode b

/-- The stages of the forward pipeline after the BWT: MTF, RLE into a buffer of capacity `2n`, Huffman (R240, R241). -/
def pipeForward (scratch n : Nat) (b : Buffer) : Except Report Buffer := do
  let m ← pipeMtfEncode scratch b
  alloc scratch .rleEncoder (2 * n)
  let r := rleEncode m
  alloc scratch .huffmanEncoder (payloadLength (freqOf r))
  return huffEncode r

/-- `OP_PIPE_ENC` (R241). -/
def opPipeEnc : CmdBody := fun scratch src _aux _l => do
  alloc scratch .bwtEncoder src.length
  let p : Word := BitVec.ofNat 32 (bwtEncode src).2
  let n : Word := BitVec.ofNat 32 src.length
  let h ← pipeForward scratch src.length (bwtEncode src).1
  return { out := h, primaryIndex := some p, origLen := some n, metadata := some (metadataRecord p n) }

/-- PIPE_ENC (R241). -/
def execPipeEnc (s : State) : Host.Outcome State Fault Refusal := execute .pipeEnc opPipeEnc s

/-- The metadata check of the backward pipeline, "before attempting any decode stage" (R244). -/
def metadataCheck (aux : Buffer) : Except Report Unit := do
  failIf (decide (aux.length = 0)) .metadataMissing .pipeline 0 8
  failIf (decide (aux.length < 8)) .metadataTruncated .pipeline (sat32 aux.length) 8

/-- The MTF stage of the backward pipeline: an empty buffer passes unchanged (R240). -/
def pipeMtfDecode (scratch : Nat) (m : Buffer) : Except Report Buffer :=
  if m.isEmpty then .ok []
  else do
    alloc scratch .mtfDecoder m.length
    return mtfDecode m

/-- The stages of the backward pipeline: Huffman, RLE, MTF, BWT (R240, R243). -/
def pipeBackward (scratch : Nat) (payload : Buffer) (primaryIndex : Word) : Except Report Buffer := do
  let r ← huffDecode scratch .huffmanDecoder payload
  rleOddCheck r
  alloc scratch .rleDecoder (rleTotal r)
  let b ← pipeMtfDecode scratch (rleDecode r)
  primaryRangeCheck primaryIndex b.length
  alloc scratch .bwtDecoder b.length
  return bwtDecode b primaryIndex.toNat

/-- `warn <- (n != olen) ? LENGTH_MISMATCH(sat32(n), olen) : NONE` (R243, R246). -/
def lengthWarning (n : Nat) (originalLength : Word) : Option (Word × Word) :=
  if n = originalLength.toNat then none else some (sat32 n, originalLength)

/-- `OP_PIPE_DEC` (R243). -/
def opPipeDec : CmdBody := fun scratch src aux _l => do
  metadataCheck aux
  let p := rdLe32 aux 0
  let n := rdLe32 aux 4
  let x ← pipeBackward scratch src p
  return { out := x, primaryIndex := some p, origLen := some n, warn := lengthWarning x.length n }

/-- PIPE_DEC (R243). -/
def execPipeDec (s : State) : Host.Outcome State Fault Refusal := execute .pipeDec opPipeDec s

end Sys2Proof.Machine
end

