-- ==== Sys2Proof/Machine/Dispatch.lean ====
section
/-! DEFINITION. The dispatch: one arm per command of the opcode map (R92), each one direct call of its meaning. -/

namespace Sys2Proof.Machine

def exec (i : Instr) (s : State) : Host.Outcome State Fault Refusal :=
  match i with
  | .saBuild => Sys2Proof.Machine.execSaBuild s
  | .bwtEnc => Sys2Proof.Machine.execBwtEnc s
  | .bwtDec => Sys2Proof.Machine.execBwtDec s
  | .mtfEnc => Sys2Proof.Machine.execMtfEnc s
  | .mtfDec => Sys2Proof.Machine.execMtfDec s
  | .rleEnc => Sys2Proof.Machine.execRleEnc s
  | .rleDec => Sys2Proof.Machine.execRleDec s
  | .hufCodes => Sys2Proof.Machine.execHufCodes s
  | .hufEnc => Sys2Proof.Machine.execHufEnc s
  | .hufDec => Sys2Proof.Machine.execHufDec s
  | .pipeEnc => Sys2Proof.Machine.execPipeEnc s
  | .pipeDec => Sys2Proof.Machine.execPipeDec s

end Sys2Proof.Machine
end

