-- ==== Sys2Proof/Machine/Host.lean ====
section
/-! DEFINITION. The host agent (R20) and the order of the agents' steps (R37, R38): host register and memory accesses (R34,
R60, R72), the host script notation and its pseudo-statements (R101, R102), and whose turn it is (log 5). -/

namespace Sys2Proof.Machine

/-! ### Host accesses -/

/-- A host write in the register window: a named register, or a reserved offset, which ignores it (R33, R34). -/
def hostRegWrite (width : AccessWidth) (address : Nat) (v : Word) (s : State) : Host.Outcome State Fault Refusal :=
  match regAccess s.cfg width address with
  | .error r => .refused r
  | .ok offset =>
    match regAt offset with
    | some r => .next (s.hostWriteReg v r)
    | none => .next s

/-- A host read in the register window: a named register, or a reserved offset, which reads as zero (R33, R34). -/
def hostRegRead (width : AccessWidth) (address : Nat) (s : State) : Host.Outcome State Fault Refusal :=
  match regAccess s.cfg width address with
  | .error r => .refused r
  | .ok offset =>
    match regAt offset with
    | some r => .next (s.hostReadReg r)
    | none => .next { s with rdata := 0 }

/-- A host byte write to buffer memory (R60); a write to a region held by a command is refused (R72). -/
def hostMemWrite (address : Nat) (v : Byte) (s : State) : Host.Outcome State Fault Refusal :=
  if s.cfg.memBytes ≤ address then .fault (.hostByteOutsideMemory address)
  else if hostMayNotWrite s.held address then .refused (.hostWriteToHeldRegion address)
  else .next { s with mem := s.mem.write address [v] }

/-- A host byte read of buffer memory (R60); a read of a region a command writes is refused (R72). -/
def hostMemRead (address : Nat) (s : State) : Host.Outcome State Fault Refusal :=
  if s.cfg.memBytes ≤ address then .fault (.hostByteOutsideMemory address)
  else if hostMayNotRead s.held address then .refused (.hostReadOfHeldOutput address)
  else .next { s with rdata := (s.mem.read address).setWidth 32 }

/-- One poll of `WAIT`: read STATUS; while BUSY = 1 the statement stays at the head of the script (R102). -/
def hostWait (s : State) : Host.Outcome State Fault Refusal :=
  .next { s.hostReadReg .status with script := if s.busy then .wait :: s.script else s.script }

/-- The effect of one statement, already taken off the script. -/
def hostOp (op : HostOp) (s : State) : Host.Outcome State Fault Refusal :=
  match op with
  | .regWrite width address v => hostRegWrite width address v s
  | .regRead width address => hostRegRead width address s
  | .memWrite address v => hostMemWrite address v s
  | .memRead address => hostMemRead address s
  | .wait => hostWait s

/-- The host's step: its next statement; a host whose script is at its end does nothing. -/
def hostStep (s : State) : Host.Outcome State Fault Refusal :=
  match s.script with
  | [] => .next s
  | op :: rest => hostOp op { s with script := rest }

/-! ### Whose turn it is -/

/-- Who moves next: the head of `turns`; when no turn is listed, the engine while BUSY (it "is eventually taken", R37),
else the host (log 5). -/
def State.nextTurn (s : State) : Turn :=
  match s.turns with
  | t :: _ => t
  | [] => if s.busy then .engine else .host

/-- The turn is used up. -/
def State.takeTurn (s : State) : State := { s with turns := s.turns.drop 1 }

/-! ### Host script notation -/

/-- `WR <REG>, <value>` (R101): one 32-bit write at `REG_BASE + offset(<REG>)`. -/
def scriptWr (c : Config) (r : RegName) (v : Word) : List HostOp := [.regWrite .word (c.regBase + r.offset) v]

/-- `RD <REG>` (R101). -/
def scriptRd (c : Config) (r : RegName) : List HostOp := [.regRead .word (c.regBase + r.offset)]

/-- `MEMW <addr>, <bytes>` (R101): one byte write per byte, at `<addr>`, `<addr>+1`, …, which never wraps (log 13). -/
def scriptMemw (address : Nat) : Buffer → List HostOp
  | [] => []
  | b :: bs => .memWrite address b :: scriptMemw (address + 1) bs

/-- `MEMR <addr>, <n>` (R101): `n` byte reads, at `<addr>`, `<addr>+1`, … (log 13). -/
def scriptMemr (address : Nat) : Nat → List HostOp
  | 0 => []
  | n + 1 => .memRead address :: scriptMemr (address + 1) n

/-- `RUN <MNEMONIC>` is `WR CMD, <opcode>` (R102). -/
def scriptRun (c : Config) (i : Instr) : List HostOp := scriptWr c .cmd (encode i)

/-- `WAIT` (R102). -/
def scriptWait : List HostOp := [.wait]

/-- `SETUP <src>, <srclen>, <dst>, <cap>` (R102). -/
def scriptSetup (c : Config) (src srcLen dst cap : Word) : List HostOp :=
  scriptWr c .srcAddr src ++ scriptWr c .srcLen srcLen ++ scriptWr c .dstAddr dst ++ scriptWr c .dstCap cap

/-- `SETAUX <addr>, <len>` (R102). -/
def scriptSetAux (c : Config) (aux len : Word) : List HostOp := scriptWr c .auxAddr aux ++ scriptWr c .auxLen len

/-- `DO <MNEMONIC>` is `RUN <MNEMONIC>; WAIT` (R102). -/
def scriptDo (c : Config) (i : Instr) : List HostOp := scriptRun c i ++ scriptWait

end Sys2Proof.Machine
end

