-- ==== Sys2Proof/Machine/Step.lean ====
section
/-! DEFINITION. One step of the machine: the agent whose turn it is moves (R37, R38, R300). -/

namespace Sys2Proof.Machine

/-- The engine's step: while BUSY it runs the latched command to its end (R37); an illegal word completes with ILLEGAL_CMD
(R91); in IDLE, DONE and ERROR it has no step (R38). -/
def engineStep (s : State) : Host.Outcome State Fault Refusal :=
  if s.busy then
    match decode s.latch.cmd with
    | .ok i => exec i s
    | .error _ => executeIllegal s
  else .next s

/-- One step: the agent whose turn it is moves. -/
def step (s : State) : Host.Outcome State Fault Refusal :=
  match s.nextTurn with
  | .engine => engineStep s.takeTurn
  | .host => hostStep s.takeTurn
  | .reset => .next s.takeTurn.resetEvent

/-- The state in which the next step runs the command word `w`: TC-CORE fetches nothing; a command is "exactly the word
written to CMD" (R74), so the word is accepted as by R36, with the operands as they stand, and the engine moves next
(log 11). -/
def State.withFetchWord (s : State) (nbits w : Nat) : State :=
  { s.accept (tableWord nbits w) with turns := .engine :: s.turns }

end Sys2Proof.Machine
end

