-- ==== Sys2Proof/Safety.lean ====
section
/-! DEFINITION. What counts as a safe state and a safe run (R303, R304, the invariant that reset meets and every step keeps),
and the terms the claims are stated in: when a command's operands are in order, and the next state an ending gives. -/

namespace Sys2Proof.Machine

/-! ### Runs -/

/-- The launch premise of a host program: STATUS.BUSY = 0, as it also is once reset has been taken; no command is in flight
(R303). -/
def State.cleanEntry (s : State) : Bool := !s.busy

/-- A run has ended: the host has executed its last statement and BUSY = 0 (R304). -/
def State.runEnded (s : State) : Bool := !s.busy && s.script.isEmpty

/-! ### The invariant -/

/-- ERR holds a code and a stage of the tables R270 and R272, and nothing in its reserved bits (R24). -/
def errLegal (w : Word) : Bool :=
  decide (w.toNat % 256 ≤ 0x0D) && decide (w.toNat / 256 ≤ 11) && (decide (w.toNat % 256 ≠ 0) || decide (w = 0))

/-- The report agrees with the phase (R23, R24, R25, R31, R36, R90, R271): ERR is nonzero exactly in the ERROR phase and after
a warning, a warning is LENGTH_MISMATCH of stage 11, the information words are 0 without a report, and OUT_LEN is 0 unless
the last command completed. -/
def reportAgrees (s : State) : Bool :=
  (decide (s.err ≠ 0) == (s.error || s.warned)) &&
    (!s.warned || decide (s.err = errWord .pipeline .lengthMismatch)) &&
    (!s.error || decide (s.err.toNat % 256 ≠ ErrCode.lengthMismatch.num)) &&
    (decide (s.err ≠ 0) || (decide (s.errInfo0 = 0) && decide (s.errInfo1 = 0))) &&
    (s.done || decide (s.outLen = 0))

/-- While BUSY, CMD reads the running command's word, the host is kept off its regions, and it sees every register as it
stands (R22, R36, R72, R307). -/
def busyAgrees (s : State) : Bool :=
  !s.busy || (decide (s.latch.cmd = s.cmd) && (heldRegions s.latch).all (fun h => s.held.contains h) &&
    s.unseen.isEmpty)

/-- A completion the host has not synchronised with wrote result registers only, and the report registers held their
acceptance value 0 before it (R36, R90, R271, R307). -/
def unseenAgrees (s : State) : Bool :=
  s.unseen.all (fun e => [RegName.primaryIndex, .origLen].contains e.1 ||
    ([RegName.err, .errInfo0, .errInfo1, .outLen].contains e.1 && decide (e.2 = 0)))

/-- The invariant: legal parameters (R10, R11), a legal STATUS (R23) and ERR (R24), a report that agrees with the phase, and a
memory in canonical form whose every listed address exists (R60). -/
structure State.Inv (s : State) : Prop where
  cfgLegal : s.cfg.legal = true
  statusLegal : statusLegal s.status = true
  errLegal : errLegal s.err = true
  reportAgrees : reportAgrees s = true
  busyAgrees : busyAgrees s = true
  unseenAgrees : unseenAgrees s = true
  memWf : s.mem.wf
  memInside : s.mem.inside s.cfg.memBytes

/-! ### Operands in order -/

/-- The SRC region is valid and its length fits the scratch (R61, R90). -/
def State.srcReady (s : State) : Prop :=
  s.latch.srcAddr.toNat + s.latch.srcLen.toNat ≤ s.cfg.memBytes ∧ s.latch.srcLen.toNat ≤ s.cfg.scratchLen

/-- The DST region is valid and holds `n` bytes (R61, R90). -/
def State.dstRoom (s : State) (n : Nat) : Prop :=
  s.latch.dstAddr.toNat + s.latch.dstCap.toNat ≤ s.cfg.memBytes ∧ n ≤ s.latch.dstCap.toNat

/-- The AUX region is valid (R61). -/
def State.auxReady (s : State) : Prop :=
  s.latch.auxAddr.toNat + s.latch.auxLen.toNat ≤ s.cfg.memBytes

/-! ### Endings, up to the model's own field `unseen` -/

/-- `s` after a completion that wrote `out` at DST: the bytes, OUT_LEN and DONE with OVERRUN as it stands (R90). -/
def State.doneWith (s : State) (out : Buffer) : State :=
  { s with
    mem := s.mem.write s.latch.dstAddr.toNat out
    outLen := BitVec.ofNat 32 out.length
    status := statusDone ||| (s.status &&& statusOverrun) }

/-- `s` after `raise E(stage, i0, i1)`: ERR, the information words, OUT_LEN = 0 and ERROR with OVERRUN as it stands (R271). -/
def State.errorWith (s : State) (code : ErrCode) (stage : Stage) (info0 info1 : Word) : State :=
  { s with
    err := BitVec.ofNat 32 (stage.num * 256 + code.num)
    errInfo0 := info0
    errInfo1 := info1
    outLen := 0
    status := statusError ||| (s.status &&& statusOverrun) }

/-- The command ends like this: its next state is `t`, whatever the model keeps in `unseen` (log 8). -/
def EndsIn (i : Instr) (s t : State) : Prop := ∃ u, exec i s = .next { t with unseen := u }

/-! ### Terms of the algorithms -/

/-- Suffix `i` sorts before suffix `j`: byte by byte as unsigned values, a proper prefix first (R126). -/
def suffixBefore (buf : Buffer) (i j : Nat) : Prop :=
  List.Lex (fun a b : Byte => a.toNat < b.toNat) (buf.drop i) (buf.drop j)

/-- `(f, seq)` of `a` is the smaller pair, lexicographic (R203). -/
def extractedFirst (a b : HuffNode) : Prop :=
  nodeFreq a < nodeFreq b ∨ (nodeFreq a = nodeFreq b ∧ nodeSeq a < nodeSeq b)

/-- `BuildTree`'s loop as a relation (R202, R203, R205): the queue `q`, in any order, is merged into `root`, `t` merges being
done. Each merge takes the two smallest nodes, the first as the left child, and puts back a node with the sum of the
frequencies and `seq = 256 + t`. -/
inductive MergesTo : (t : Nat) → (q : List HuffNode) → (root : HuffNode) → Prop where
  | done (t : Nat) (a : HuffNode) : MergesTo t [a] a
  | merge {t : Nat} {q rest : List HuffNode} {a b root : HuffNode} (queue : q.Perm (a :: b :: rest))
      (first : ∀ c ∈ b :: rest, extractedFirst a c) (second : ∀ c ∈ rest, extractedFirst b c)
      (next : MergesTo (t + 1) (.node a b (nodeFreq a + nodeFreq b) (256 + t) :: rest) root) : MergesTo t q root

/-- The leaf a path ends at: 0 descends left, 1 descends right, and no bit is left over (R205). -/
def leafAt : HuffNode → (path : Bits) → Option Byte
  | .leaf sym _ _, [] => some sym
  | .node left _ _ _, false :: path => leafAt left path
  | .node _ right _ _, true :: path => leafAt right path
  | _, _ => none

/-- The stream the forward pipeline gives its Huffman stage (R240). -/
def forwardStream (x : Buffer) : Buffer := rleEncode (mtfEncode (bwtEncode x).1)

end Sys2Proof.Machine
end

