-- ==== Sys2Proof/Certificates/Slice0/Obligations.lean ====
section
/-! DEFINITION. The statements for the provers. Those marked "stated" in OBLIGATIONS.json formalise a numbered rule of spec/;
where a clause rests on a choice of the model the docstring names its log entry. `EndsIn i s t` (Safety.lean) says that
`exec i s` answers the next state `t` whatever the model keeps in its own field `unseen` (log 8). -/

open Sys2Proof Sys2Proof.Machine

/-! ### Encoding -/

/-- R91, R92, R93: of all 2^32 command words, exactly the twelve of the opcode map decode, each to its command, and the
encoder gives back the word. -/
def Obligations.DecodeExactlyTheOpcodeMap : Prop :=
  ∀ w : Word, (∀ i : Instr, decode w = .ok i ↔ w = encode i) ∧
    ((∃ e, decode w = .error e) ↔ w = 0 ∨ 0x0C < w.toNat)

/-- R92: the words of the opcode map, written out. -/
def Obligations.OpcodeMapWordsDecode : Prop :=
  decode 0x00000001 = .ok .saBuild ∧ decode 0x00000002 = .ok .bwtEnc ∧ decode 0x00000003 = .ok .bwtDec ∧
  decode 0x00000004 = .ok .mtfEnc ∧ decode 0x00000005 = .ok .mtfDec ∧ decode 0x00000006 = .ok .rleEnc ∧
  decode 0x00000007 = .ok .rleDec ∧ decode 0x00000008 = .ok .hufCodes ∧ decode 0x00000009 = .ok .hufEnc ∧
  decode 0x0000000A = .ok .hufDec ∧ decode 0x0000000B = .ok .pipeEnc ∧ decode 0x0000000C = .ok .pipeDec ∧
  decode 0x00000102 = .error (.reservedBits 1) ∧ decode 0x0000000D = .error (.unknownOpcode 0x0D)

/-! ### Steps, issue and the host -/

/-- 10_state.md section 4: the engine's turn while BUSY runs the latched command, with the turn used up. And how a program
comes to run (log 11): the word is accepted as by R36 and the very next step runs its command. -/
def Obligations.StepRunsTheDecodedCommand : Prop :=
  (∀ (s : State) (i : Instr), s.nextTurn = .engine → s.busy = true → decode s.latch.cmd = .ok i →
    step s = exec i { s with turns := s.turns.drop 1 }) ∧
  ∀ (s : State) (i : Instr),
    step (s.withFetchWord 32 (encode i).toNat) = exec i { s.accept (encode i) with turns := s.turns }

/-- R93: an illegal word completes with ILLEGAL_CMD, and has no other effect: no byte of memory is written. -/
def Obligations.IllegalWordsCompleteWithIllegalCmd : Prop :=
  ∀ s : State, s.nextTurn = .engine → s.busy = true →
    (s.latch.cmd.toNat % 256 = 0 ∨ 0x0D ≤ s.latch.cmd.toNat % 256 ∨ s.latch.cmd.toNat / 256 ≠ 0) →
    ∃ u, step s = .next
      { s.errorWith .illegalCmd .frame s.latch.cmd 0 with turns := s.turns.drop 1, unseen := u }

/-- R36: a host write of `w` to CMD, both branches, for every word, the illegal ones included, which then complete with
ILLEGAL_CMD; and no host write to a register changes `L` while BUSY. What `held` becomes is the model's bookkeeping (log 9). -/
def Obligations.CmdWriteIssuesACommand : Prop :=
  (∀ (s : State) (w : Word) (rest : List HostOp),
    s.nextTurn = .host → s.script = scriptWr s.cfg .cmd w ++ rest →
    (s.busy = true → step s = .next
      { s with status := s.status ||| statusOverrun, script := rest, turns := s.turns.drop 1 }) ∧
    (s.busy = false → ∃ h u, step s = .next
      { s with
        cmd := w
        latch := ⟨w, s.srcAddr, s.srcLen, s.dstAddr, s.dstCap, s.auxAddr, s.auxLen, s.primaryIndex⟩
        status := statusBusy, err := 0, errInfo0 := 0, errInfo1 := 0, outLen := 0
        held := h, unseen := u, script := rest, turns := s.turns.drop 1 })) ∧
  (∀ (s : State) (w : Word), (∃ e, decode w = .error e) →
    ∃ u, engineStep (s.accept w) = .next { (s.accept w).errorWith .illegalCmd .frame w 0 with unseen := u }) ∧
  (∀ (s : State) (v : Word) (r : RegName), s.busy = true → (s.hostWriteReg v r).latch = s.latch)

/-- R38: without BUSY the engine has no step, and STATUS leaves such a phase only by a host CMD write or by reset. -/
def Obligations.OnlyCmdWriteOrResetLeavesAPhase : Prop :=
  ∀ s : State, s.busy = false → engineStep s = .next s ∧
    ∀ t, step s = .next t → t.status ≠ s.status →
      s.nextTurn = .reset ∨ (s.nextTurn = .host ∧
        ∃ w rest, s.script = .regWrite .word (s.cfg.regBase + RegName.cmd.offset) w :: rest)

/-- 10_state.md section 2, 70_reset_and_hazards.md section 3: a host write to an operand register changes that register,
whatever the phase, and nothing else: not `L`, not another register, not memory. A host write to a read-only register is
ignored. -/
def Obligations.HostWriteChangesOneOperandRegister : Prop :=
  ∀ (s : State) (r : RegName) (v : Word) (rest : List HostOp),
    s.nextTurn = .host → s.script = scriptWr s.cfg r v ++ rest →
    (r ∈ [RegName.srcAddr, .srcLen, .dstAddr, .dstCap, .auxAddr, .auxLen, .primaryIndex] →
      ∃ t, step s = .next t ∧ t.reg r = v ∧ (∀ q, q ≠ r → t.reg q = s.reg q) ∧ t.latch = s.latch ∧ t.mem = s.mem ∧
        t.cfg = s.cfg ∧ t.held = s.held ∧ t.rdata = s.rdata ∧ t.script = rest) ∧
    (r ∈ [RegName.id, .status, .err, .errInfo0, .errInfo1, .origLen, .outLen, .scratchLen, .memTop] →
      step s = .next { s with script := rest, turns := s.turns.drop 1 })

/-- R33: reserved offsets read as zero and ignore writes; the reserved bits of STATUS and ERR are zero and a host reads
them as zero, also where it may see ERR as it was before a completion (in every state that meets the invariant); CMD reads back the word as accepted, all 32 bits. -/
def Obligations.ReservedOffsetsAndBitsReadZero : Prop :=
  (∀ (s : State) (k : Nat), 0x44 ≤ 4 * k → 4 * k ≤ 0xFC →
    (∀ v, hostRegWrite .word (s.cfg.regBase + 4 * k) v s = .next s) ∧
    hostRegRead .word (s.cfg.regBase + 4 * k) s = .next { s with rdata := 0 }) ∧
  (∀ s : State, s.Inv → (s.reg .status).toNat / 2 ^ 5 = 0 ∧ (s.reg .err).toNat / 2 ^ 16 = 0 ∧
    (s.hostReadReg .status).rdata.toNat / 2 ^ 5 = 0 ∧ (s.hostReadReg .err).rdata.toNat / 2 ^ 16 = 0) ∧
  (∀ (s : State) (w : Word), (s.accept w).reg .cmd = w)

/-- R21, R32: ID, SCRATCH_LEN and MEM_TOP read their constants, host writes are ignored, and reset does not change them. -/
def Obligations.ConstantsReadTheirParameters : Prop :=
  ∀ s : State, s.cfg.legal = true →
    s.reg .id = 0x54430007 ∧ (s.reg .scratchLen).toNat = s.cfg.scratchLen ∧
    (s.reg .memTop).toNat = s.cfg.memBytes - 1 ∧
    ∀ r ∈ [RegName.id, .scratchLen, .memTop],
      s.resetEvent.reg r = s.reg r ∧ ∀ v, s.hostWriteReg v r = s

/-- 10_state.md section 2, 70_reset_and_hazards.md section 3: a host read of a register gives its value and changes nothing
but the host's own `rdata`. A result the host has not synchronised with reads as its new value or the one before the
completion (log 8); a STATUS read with BUSY = 0 ends the host's duties (log 9). While BUSY every register reads as it stands,
the report registers as 0, in every state that meets the invariant. -/
def Obligations.RegisterReadGivesItsValue : Prop :=
  (∀ (s : State) (r : RegName) (rest : List HostOp),
    s.nextTurn = .host → s.script = scriptRd s.cfg r ++ rest →
    (r ≠ .status → s.unseen.lookup r = none → step s = .next
      { s with rdata := s.reg r, script := rest, turns := s.turns.drop 1 }) ∧
    (∀ old, r ≠ .status → s.unseen.lookup r = some old → ∃ v, (v = s.reg r ∨ v = old) ∧ step s = .next
      { s with rdata := v, draws := s.draws + 1, script := rest, turns := s.turns.drop 1 }) ∧
    (r = .status → s.busy = true → step s = .next
      { s with rdata := s.status, script := rest, turns := s.turns.drop 1 }) ∧
    (r = .status → s.busy = false → step s = .next
      { s with rdata := s.status, held := [], unseen := [], script := rest, turns := s.turns.drop 1 })) ∧
  (∀ (s : State) (r : RegName), s.Inv → s.busy = true → (s.hostReadReg r).rdata = s.reg r ∧
    (r ∈ [RegName.outLen, .err, .errInfo0, .errInfo1] → (s.hostReadReg r).rdata = 0) ∧
    (s.hostReadReg .status).rdata.getLsbD 0 = true)

/-- 30_encoding.md section 4 (WAIT): one poll reads STATUS; the statement stays while BUSY = 1 and is left when BUSY = 0. -/
def Obligations.WaitPollsUntilNotBusy : Prop :=
  ∀ (s : State) (rest : List HostOp), s.nextTurn = .host → s.script = .wait :: rest →
    (s.busy = true → step s = .next { s with rdata := s.status, turns := s.turns.drop 1 }) ∧
    (s.busy = false → step s = .next
      { s with rdata := s.status, held := [], unseen := [], script := rest, turns := s.turns.drop 1 })

/-- R34: in the window, a host access that is not 32 bits wide or not at a multiple of 4 is refused, and every other one has
a next state. -/
def Obligations.SubWordAndUnalignedAccessesRefused : Prop :=
  ∀ (s : State) (width : AccessWidth) (address : Nat) (v : Word),
    s.cfg.regBase ≤ address → address < s.cfg.regBase + 0x100 →
    ((width ≠ .word ∨ (address - s.cfg.regBase) % 4 ≠ 0) →
      ∃ r, hostRegWrite width address v s = .refused r ∧ hostRegRead width address s = .refused r) ∧
    (width = .word → (address - s.cfg.regBase) % 4 = 0 →
      (∃ t, hostRegWrite width address v s = .next t) ∧ ∃ t, hostRegRead width address s = .next t)

/-- 20_memory.md sections 1, 3 and 5: a host byte write that no held region forbids changes that byte and no other, and a byte
read that no held output region forbids, also one of the input of a running command, returns the byte and changes nothing. At
an address past the memory, also one that `<addr>+1` of R101 reaches, either access faults (log 13). -/
def Obligations.HostByteAccess : Prop :=
  ∀ (s : State) (a : Nat) (v : Byte),
    (a < s.cfg.memBytes → hostMayNotWrite s.held a = false →
      ∃ m, hostMemWrite a v s = .next { s with mem := m } ∧ m.read a = v ∧ ∀ b, b ≠ a → m.read b = s.mem.read b) ∧
    (a < s.cfg.memBytes → hostMayNotRead s.held a = false →
      hostMemRead a s = .next { s with rdata := (s.mem.read a).setWidth 32 }) ∧
    (s.cfg.memBytes ≤ a → hostMemWrite a v s = .fault (.hostByteOutsideMemory a) ∧
      hostMemRead a s = .fault (.hostByteOutsideMemory a))

/-- 20_memory.md section 5, with the model's reading of the host's duty (log 9): while BUSY a host write into SRC, into DST or into the AUX region of a pipeline command is refused, and so is a
host read of DST or of the AUX region of PIPE_ENC, in every state that meets the invariant; the regions stay held, and the
same accesses refused, until a host read of STATUS while BUSY = 0, or reset. That an illegal word holds SRC and DST too, and
that the regions of commands accepted before that read accumulate, is the model's choice (log 9). -/
def Obligations.HostKeptOffARunningCommandsRegions : Prop :=
  (∀ (s : State) (a : Nat), s.Inv → s.busy = true → a < s.cfg.memBytes →
    ((inRegion s.latch.srcAddr s.latch.srcLen a ∨ inRegion s.latch.dstAddr s.latch.dstCap a ∨
        ((s.latch.cmd = encode .pipeEnc ∨ s.latch.cmd = encode .pipeDec) ∧
          inRegion s.latch.auxAddr s.latch.auxLen a)) →
      ∀ v, hostMemWrite a v s = .refused (.hostWriteToHeldRegion a)) ∧
    ((inRegion s.latch.dstAddr s.latch.dstCap a ∨
        (s.latch.cmd = encode .pipeEnc ∧ inRegion s.latch.auxAddr s.latch.auxLen a)) →
      hostMemRead a s = .refused (.hostReadOfHeldOutput a))) ∧
  (∀ (s : State) (h : HeldRegion) (a : Nat), h ∈ s.held → a < s.cfg.memBytes → inRegion h.address h.len a →
    (∀ v, hostMemWrite a v s = .refused (.hostWriteToHeldRegion a)) ∧
    (h.use = .output → hostMemRead a s = .refused (.hostReadOfHeldOutput a))) ∧
  (∀ s t : State, step s = .next t →
    (∀ h ∈ s.held, h ∈ t.held) ∨ s.nextTurn = .reset ∨
    (s.nextTurn = .host ∧ s.busy = false ∧ ∃ rest, s.script = .wait :: rest ∨
      s.script = .regRead .word (s.cfg.regBase + RegName.status.offset) :: rest))

/-! ### Reset -/

/-- 70_reset_and_hazards.md section 1: the reset event, from any state: every register 0, phase IDLE, the constants and, outside
a running command, the memory as they were; then the engine executes nothing until the host writes CMD. At power-on it is
taken the same way: the power-on state is its own reset, whatever the parameters and the memory. -/
def Obligations.ResetSetsEveryRegister : Prop :=
  (∀ (c : Config) (m : Memory), (State.powerOn c m).resetEvent = State.powerOn c m) ∧
  ∀ s : State, s.nextTurn = .reset → ∃ t, step s = .next t ∧
    t.cmd = 0 ∧ t.status = 0 ∧ t.err = 0 ∧ t.errInfo0 = 0 ∧ t.errInfo1 = 0 ∧ t.srcAddr = 0 ∧ t.srcLen = 0 ∧
    t.dstAddr = 0 ∧ t.dstCap = 0 ∧ t.auxAddr = 0 ∧ t.auxLen = 0 ∧ t.primaryIndex = 0 ∧ t.origLen = 0 ∧
    t.outLen = 0 ∧ t.cfg = s.cfg ∧ (s.busy = false → t.mem = s.mem) ∧
    engineStep t = .next t ∧ (t.script = [] → t.turns = [] → step t = .next t)

/-- 70_reset_and_hazards.md section 1 (R301): a reset while BUSY abandons the command: no register holds a result of it, and every byte outside its DST region
and, for PIPE_ENC, its AUX region keeps its value. -/
def Obligations.ResetWhileBusyAbandonsTheCommand : Prop :=
  ∀ s : State, s.nextTurn = .reset → s.busy = true → ∃ t, step s = .next t ∧ t.busy = false ∧ t.outLen = 0 ∧
    t.primaryIndex = 0 ∧ t.origLen = 0 ∧ t.err = 0 ∧
    ∀ a, inRegion s.latch.dstAddr s.latch.dstCap a = false →
      (s.latch.cmd = encode .pipeEnc → inRegion s.latch.auxAddr s.latch.auxLen a = false) →
      t.mem.read a = s.mem.read a

/-- 70_reset_and_hazards.md section 1 (log 7): each byte of the abandoned DST region and, for PIPE_ENC, of the abandoned AUX
region that exists is the free value drawn for it, for whatever draw. That the DST region of an illegal word is abandoned too,
and of a region that is not valid the bytes that exist, is the model's reading (log 10). -/
def Obligations.AbandonedBytesAreFreeValues : Prop :=
  ∀ (s : State) (a : Nat), s.nextTurn = .reset → s.busy = true → a < s.cfg.memBytes →
    (inRegion s.latch.dstAddr s.latch.dstCap a = true ∨
      (s.latch.cmd = encode .pipeEnc ∧ inRegion s.latch.auxAddr s.latch.auxLen a = true)) →
    ∃ t, step s = .next t ∧ t.mem.read a = Config.abandonedByte s.draws a ∧ t.draws = s.draws + 1

/-! ### How a command ends -/

/-- 70_reset_and_hazards.md section 4, 60_exceptions.md section 3: every command ends, in DONE or in ERROR and not both, with
OVERRUN as it stood; only PIPE_DEC warns, and only with DONE. While BUSY, with no turn listed, the next step is the engine's
and ends the command (10_state.md section 4, fairness; log 5). -/
def Obligations.EveryCommandEnds : Prop :=
  (∀ (i : Instr) (s : State), ∃ t, exec i s = .next t ∧ t.busy = false ∧ t.done = !t.error ∧ t.overrun = s.overrun ∧
    (t.warned = true → i = .pipeDec ∧ t.done = true)) ∧
  (∀ s : State, s.busy = true → s.turns = [] → ∃ t, step s = .next t ∧ t.busy = false ∧ t.script = s.script)

/-- R271: the error entry is precise. A command that ends in ERROR, legal word or not, leaves the state before it, but for the
error registers, OUT_LEN = 0 and STATUS, whose OVERRUN stands; every byte of memory keeps its value. ERR holds the stage's
number in bits 15:8 and the code's in bits 7:0, by the numbers of 60_exceptions.md section 1, written out here. -/
def Obligations.ErrorEntryIsPrecise : Prop :=
  (∀ s t : State, s.busy = true → engineStep s = .next t → t.error = true →
    ∃ code stage i0 i1 u, code ≠ .lengthMismatch ∧
      t = { s.errorWith code stage i0 i1 with unseen := u } ∧ ∀ a, t.mem.read a = s.mem.read a) ∧
  ∀ (s : State) (code : ErrCode) (stage : Stage) (i0 i1 : Word) (c g : Nat),
    (code, c) ∈ [(ErrCode.illegalCmd, 0x01), (.addrRange, 0x02), (.allocationFailure, 0x03), (.emptyInput, 0x04),
      (.capacityExceeded, 0x05), (.dstTooSmall, 0x06), (.metadataMissing, 0x07), (.metadataTruncated, 0x08),
      (.primaryRange, 0x09), (.rleMalformed, 0x0A), (.hufTableTruncated, 0x0B), (.hufBitstreamUnderrun, 0x0C),
      (.lengthMismatch, 0x0D)] →
    (stage, g) ∈ [(Stage.frame, 0), (.suffixArray, 1), (.bwtEncoder, 2), (.bwtDecoder, 3), (.mtfEncoder, 4),
      (.mtfDecoder, 5), (.rleEncoder, 6), (.rleDecoder, 7), (.huffmanTree, 8), (.huffmanEncoder, 9),
      (.huffmanDecoder, 10), (.pipeline, 11)] →
    (s.errorWith code stage i0 i1).err.toNat = 256 * g + c

/-- R61: a region is valid when `a + n <= MEM_BYTES`, without wrap-around. A command with a region that is not valid ends with
ADDR_RANGE and leaves memory alone; with valid regions no command ends with it. -/
def Obligations.InvalidRegionsEndWithAddrRange : Prop :=
  ∀ (i : Instr) (s : State),
    ((s.cfg.memBytes < s.latch.srcAddr.toNat + s.latch.srcLen.toNat ∨
      s.cfg.memBytes < s.latch.dstAddr.toNat + s.latch.dstCap.toNat ∨
      ((i = .pipeEnc ∨ i = .pipeDec) ∧ s.cfg.memBytes < s.latch.auxAddr.toNat + s.latch.auxLen.toNat)) ↔
    ∃ region len, EndsIn i s (s.errorWith .addrRange .frame region len))

/-- 60_exceptions.md section 2, 30_encoding.md section 1: the first errors in order of priority: SRC, DST, AUX (region number
and length reported), then the allocation of the input buffer at the command's own stage. -/
def Obligations.FrameErrorsInOrder : Prop :=
  ∀ (i : Instr) (s : State),
    let src := s.latch.srcAddr.toNat + s.latch.srcLen.toNat ≤ s.cfg.memBytes
    let dst := s.latch.dstAddr.toNat + s.latch.dstCap.toNat ≤ s.cfg.memBytes
    let aux := (i = .pipeEnc ∨ i = .pipeDec) → s.latch.auxAddr.toNat + s.latch.auxLen.toNat ≤ s.cfg.memBytes
    (¬ src → EndsIn i s (s.errorWith .addrRange .frame 1 s.latch.srcLen)) ∧
    (src → ¬ dst → EndsIn i s (s.errorWith .addrRange .frame 2 s.latch.dstCap)) ∧
    (src → dst → ¬ aux → EndsIn i s (s.errorWith .addrRange .frame 3 s.latch.auxLen)) ∧
    (src → dst → aux → s.cfg.scratchLen < s.latch.srcLen.toNat →
      EndsIn i s (s.errorWith .allocationFailure (stageOf i) s.latch.srcLen (sat32 s.cfg.scratchLen)))

/-- 30_encoding.md section 1: the output is larger than DST. Each command but RLE_ENC, which tests its worst case itself, then
ends with DST_TOO_SMALL, the capacity and the length needed, at its own stage; PIPE_DEC also where the lengths differ, since
the error wins over the warning (60_exceptions.md section 2). -/
def Obligations.OutputTooLargeEndsWithDstTooSmall : Prop :=
  ∀ s : State, s.srcReady → s.dstRoom 0 →
    (s.latch.dstCap.toNat < 4 * s.latch.srcLen.toNat →
      EndsIn .saBuild s (s.errorWith .dstTooSmall .suffixArray s.latch.dstCap (sat32 (4 * s.latch.srcLen.toNat)))) ∧
    (s.latch.dstCap.toNat < s.latch.srcLen.toNat →
      EndsIn .bwtEnc s (s.errorWith .dstTooSmall .bwtEncoder s.latch.dstCap s.latch.srcLen) ∧
      EndsIn .mtfEnc s (s.errorWith .dstTooSmall .mtfEncoder s.latch.dstCap s.latch.srcLen) ∧
      EndsIn .mtfDec s (s.errorWith .dstTooSmall .mtfDecoder s.latch.dstCap s.latch.srcLen)) ∧
    (s.latch.dstCap.toNat < s.latch.srcLen.toNat → 0 ≤ s.latch.primaryIndex.toInt →
      s.latch.primaryIndex.toInt < (s.latch.srcLen.toNat : Int) →
      EndsIn .bwtDec s (s.errorWith .dstTooSmall .bwtDecoder s.latch.dstCap s.latch.srcLen)) ∧
    (s.latch.srcLen.toNat % 2 = 0 → rleTotal s.srcBuf ≤ s.cfg.scratchLen → s.latch.dstCap.toNat < rleTotal s.srcBuf →
      EndsIn .rleDec s (s.errorWith .dstTooSmall .rleDecoder s.latch.dstCap (sat32 (rleTotal s.srcBuf)))) ∧
    (1024 ≤ s.latch.srcLen.toNat → s.latch.dstCap.toNat < 9216 →
      EndsIn .hufCodes s (s.errorWith .dstTooSmall .huffmanTree s.latch.dstCap 9216)) ∧
    (payloadLength (freqOf s.srcBuf) ≤ s.cfg.scratchLen → s.latch.dstCap.toNat < payloadLength (freqOf s.srcBuf) →
      EndsIn .hufEnc s (s.errorWith .dstTooSmall .huffmanEncoder s.latch.dstCap
        (sat32 (payloadLength (freqOf s.srcBuf))))) ∧
    (∀ x : Buffer, huffDecode s.cfg.scratchLen .huffmanDecoder s.srcBuf = .ok x → s.latch.dstCap.toNat < x.length →
      EndsIn .hufDec s (s.errorWith .dstTooSmall .huffmanDecoder s.latch.dstCap (sat32 x.length))) ∧
    (s.auxReady → 2 * s.latch.srcLen.toNat ≤ s.cfg.scratchLen →
      payloadLength (freqOf (forwardStream s.srcBuf)) ≤ s.cfg.scratchLen →
      s.latch.dstCap.toNat < payloadLength (freqOf (forwardStream s.srcBuf)) →
      EndsIn .pipeEnc s (s.errorWith .dstTooSmall .pipeline s.latch.dstCap
        (sat32 (payloadLength (freqOf (forwardStream s.srcBuf)))))) ∧
    (∀ x : Buffer, s.auxReady → 8 ≤ s.latch.auxLen.toNat →
      pipeBackward s.cfg.scratchLen s.srcBuf (rdLe32 (s.mem.readBuf s.latch.auxAddr.toNat 8) 0) = .ok x →
      s.latch.dstCap.toNat < x.length →
      EndsIn .pipeDec s (s.errorWith .dstTooSmall .pipeline s.latch.dstCap (sat32 x.length)))

/-- The frame of the commands (30_encoding.md section 1, 20_memory.md section 3): what a command leaves unchanged. The stored
bytes are the `OUT_LEN` bytes at `L.dst_addr` and, for PIPE_ENC, the 8 bytes at `L.aux_addr`. And what the model keeps of an
ending, legal word or not, in its own field `unseen` (log 8): result registers, each with its value before the ending, and in
every state that meets the invariant all those that changed, but STATUS. -/
def Obligations.CommandFrame : Prop :=
  (∀ (i : Instr) (s t : State), exec i s = .next t →
    t.cmd = s.cmd ∧ t.srcAddr = s.srcAddr ∧ t.srcLen = s.srcLen ∧ t.dstAddr = s.dstAddr ∧ t.dstCap = s.dstCap ∧
    t.auxAddr = s.auxAddr ∧ t.auxLen = s.auxLen ∧ t.latch = s.latch ∧ t.cfg = s.cfg ∧ t.held = s.held ∧
    t.rdata = s.rdata ∧ t.script = s.script ∧ t.turns = s.turns ∧ t.draws = s.draws ∧
    (i ≠ .bwtEnc → i ≠ .pipeEnc → i ≠ .pipeDec → t.primaryIndex = s.primaryIndex) ∧
    (i ≠ .pipeEnc → i ≠ .pipeDec → t.origLen = s.origLen) ∧
    (t.done = true → t.warned = false → t.err = s.err ∧ t.errInfo0 = s.errInfo0 ∧ t.errInfo1 = s.errInfo1) ∧
    ∀ a, (a < s.latch.dstAddr.toNat ∨ s.latch.dstAddr.toNat + t.outLen.toNat ≤ a) →
      (i = .pipeEnc → a < s.latch.auxAddr.toNat ∨ s.latch.auxAddr.toNat + 8 ≤ a) → t.mem.read a = s.mem.read a) ∧
  ∀ s t : State, s.busy = true → engineStep s = .next t →
    (∀ e ∈ t.unseen, e.2 = s.reg e.1) ∧
    (s.Inv → ∀ r : RegName, r ≠ .status → t.reg r ≠ s.reg r → t.unseen.lookup r = some (s.reg r))

/-- 10_state.md section 5, 20_memory.md section 3: a command's outcome depends on nothing but its latched operands and the bytes
of its input regions: two states that agree on those get the same ending, the same value in every result register the command
writes, and the same bytes at DST and, for PIPE_ENC, at AUX; and every other register, and every other byte, that was the same
before stays the same. -/
def Obligations.OutcomeDependsOnInputsOnly : Prop :=
  ∀ (i : Instr) (s s' t t' : State), s.cfg = s'.cfg → s.latch = s'.latch →
    (∀ a, inRegion s.latch.srcAddr s.latch.srcLen a = true → s.mem.read a = s'.mem.read a) →
    (i = .pipeDec → ∀ a, inRegion s.latch.auxAddr s.latch.auxLen a = true → s.mem.read a = s'.mem.read a) →
    exec i s = .next t → exec i s' = .next t' →
    t.error = t'.error ∧ t.warned = t'.warned ∧ t.done = t'.done ∧ t.outLen = t'.outLen ∧
    (t.error = true ∨ t.warned = true → t.err = t'.err ∧ t.errInfo0 = t'.errInfo0 ∧ t.errInfo1 = t'.errInfo1) ∧
    (t.error = false → i = .bwtEnc ∨ i = .pipeEnc ∨ i = .pipeDec → t.primaryIndex = t'.primaryIndex) ∧
    (t.error = false → i = .pipeEnc ∨ i = .pipeDec → t.origLen = t'.origLen) ∧
    (∀ a, s.latch.dstAddr.toNat ≤ a → a < s.latch.dstAddr.toNat + t.outLen.toNat → t.mem.read a = t'.mem.read a) ∧
    (t.error = false → i = .pipeEnc →
      t.mem.readBuf s.latch.auxAddr.toNat 8 = t'.mem.readBuf s.latch.auxAddr.toNat 8) ∧
    (s.overrun = s'.overrun → t.status = t'.status) ∧
    (∀ r : RegName, r ≠ .status → s.reg r = s'.reg r → t.reg r = t'.reg r) ∧
    (∀ a, s.mem.read a = s'.mem.read a → t.mem.read a = t'.mem.read a)

/-- R67: overlap. Whatever regions overlap, PIPE_ENC's result is the one computed from the input as it stood when the command
began; the metadata record is written last, so its 8 bytes are the ones left in memory. -/
def Obligations.MetadataWinsWhereRegionsOverlap : Prop :=
  ∀ s t : State, exec .pipeEnc s = .next t → t.done = true →
    t.mem.readBuf s.latch.auxAddr.toNat 8 =
      metadataRecord (BitVec.ofNat 32 (bwtEncode s.srcBuf).2) (BitVec.ofNat 32 s.srcBuf.length) ∧
    ∀ k, k < t.outLen.toNat →
      (s.latch.dstAddr.toNat + k < s.latch.auxAddr.toNat ∨ s.latch.auxAddr.toNat + 8 ≤ s.latch.dstAddr.toNat + k) →
      t.mem.read (s.latch.dstAddr.toNat + k) = byteAt (huffEncode (forwardStream s.srcBuf)) k

/-! ### Invariants of the whole machine -/

/-- The state right after power-on meets the invariant, for every legal choice of the parameters and every canonical memory;
`State.reset` is one of them. -/
def Obligations.ResetMeetsTheInvariant : Prop :=
  State.reset.Inv ∧ ∀ (c : Config) (m : Memory), c.legal = true → m.wf → m.inside c.memBytes →
    (State.powerOn c m).Inv

/-- Every step of every agent keeps the invariant. -/
def Obligations.EveryStepKeepsTheInvariant : Prop :=
  ∀ s t : State, s.Inv → step s = .next t → t.Inv

/-- 20_memory.md sections 3 to 5: a byte of memory changes only by the completion of a running command inside its output
regions, by a host write to that byte, or by a reset that abandons a command, inside its output regions. -/
def Obligations.MemoryChangesOnlyByItsWriters : Prop :=
  ∀ (s t : State) (a : Nat), step s = .next t → t.mem.read a ≠ s.mem.read a →
    ((s.nextTurn = .engine ∨ s.nextTurn = .reset) ∧ s.busy = true ∧
      (inRegion s.latch.dstAddr s.latch.dstCap a = true ∨
        (s.latch.cmd = encode .pipeEnc ∧ inRegion s.latch.auxAddr s.latch.auxLen a = true))) ∨
    (s.nextTurn = .host ∧ ∃ v rest, s.script = .memWrite a v :: rest)

/-- 10_state.md section 6: `L` "is never read before a command is accepted". Without BUSY, a step from a state that differs
only in `L` gives the same outcome, up to `L`, which is the same again once a command is accepted. The value 0 that the
model's reset gives `L` (log 3) is therefore never observed. -/
def Obligations.LatchIsNeverReadWithoutBusy : Prop :=
  ∀ (s : State) (l : Latch), s.busy = false →
    match step s with
    | .next t => ∃ l', step { s with latch := l } = .next { t with latch := l' } ∧ (t.busy = true → l' = t.latch)
    | .fault r => step { s with latch := l } = .fault r
    | .refused r => step { s with latch := l } = .refused r

/-! ### Suffix array and BWT -/

/-- R122: the counting sort sorts by key and is stable. -/
def Obligations.CountingSortIsStable : Prop :=
  ∀ (arr : List Nat) (key : Nat → Nat) (buckets : Nat), (∀ x ∈ arr, key x < buckets) →
    (countingSort arr key buckets).Perm arr ∧
    (countingSort arr key buckets).Pairwise (fun x y => key x ≤ key y) ∧
    ∀ b, (countingSort arr key buckets).filter (fun x => key x == b) = arr.filter (fun x => key x == b)

/-- R123: the rank recompute, along any ordering of the positions; the new ranks are dense. -/
def Obligations.RerankFollowsThePairs : Prop :=
  ∀ (sa rank : List Nat) (k n : Nat), 0 < n → sa.Perm (List.range n) →
    rankAt (rerank sa rank k n) (sa.getD 0 0) = 0 ∧
    (∀ i, 0 < i → i < n → rankAt (rerank sa rank k n) (sa.getD i 0) =
      rankAt (rerank sa rank k n) (sa.getD (i - 1) 0) +
        (if pairLt rank n k (sa.getD (i - 1) 0) (sa.getD i 0) then 1 else 0)) ∧
    ∀ v, v ≤ rankAt (rerank sa rank k n) (sa.getD (n - 1) 0) →
      ∃ x, x < n ∧ rankAt (rerank sa rank k n) x = v

/-- R126: the suffix array is the one permutation of the positions that lists the suffixes in order. -/
def Obligations.SuffixArraySortsTheSuffixes : Prop :=
  ∀ (buf : Buffer) (sa : List Nat), sa = suffixArray buf ↔
    sa.Perm (List.range buf.length) ∧
    ∀ i, i + 1 < buf.length → suffixBefore buf (sa.getD i 0) (sa.getD (i + 1) 0)

/-- SA_BUILD completes (40_suffix_array.md section 3): the record of the suffix array, `4n` bytes, `OUT_LEN = 4n`. -/
def Obligations.SaBuildWritesTheRecord : Prop :=
  ∀ s : State, s.srcReady → s.dstRoom (4 * s.latch.srcLen.toNat) →
    EndsIn .saBuild s (s.doneWith (saRecord (suffixArray s.srcBuf))) ∧
    (saRecord (suffixArray s.srcBuf)).length = 4 * s.latch.srcLen.toNat ∧
    ∀ j, j < s.latch.srcLen.toNat →
      rdLe32 (saRecord (suffixArray s.srcBuf)) (4 * j) = BitVec.ofNat 32 ((suffixArray s.srcBuf).getD j 0)

/-- R140: the BWT bytes are those before each suffix, `p` is the one place of the whole buffer in the suffix array. -/
def Obligations.BwtEncodeFollowsTheSuffixArray : Prop :=
  bwtEncode [] = ([], 0) ∧
  ∀ buf : Buffer, buf ≠ [] →
    (bwtEncode buf).1.length = buf.length ∧ (bwtEncode buf).2 < buf.length ∧
    (∀ i, i < buf.length → ((suffixArray buf).getD i 0 = 0 ↔ i = (bwtEncode buf).2)) ∧
    ∀ i, i < buf.length → byteAt (bwtEncode buf).1 i =
      byteAt buf (((suffixArray buf).getD i 0 + buf.length - 1) % buf.length)

/-- BWT_ENC completes (41_bwt.md section 1): the BWT bytes, and PRIMARY_INDEX. -/
def Obligations.BwtEncWritesBytesAndPrimaryIndex : Prop :=
  ∀ s : State, s.srcReady → s.dstRoom s.latch.srcLen.toNat →
    EndsIn .bwtEnc s
      { s.doneWith (bwtEncode s.srcBuf).1 with primaryIndex := BitVec.ofNat 32 (bwtEncode s.srcBuf).2 } ∧
    (bwtEncode s.srcBuf).1.length = s.latch.srcLen.toNat

/-- R142: the LF table, and that it is a permutation of the positions for every BWT string. -/
def Obligations.LfTableIsAPermutation : Prop :=
  ∀ bwt : Buffer, (lfTable bwt).Perm (List.range bwt.length) ∧
    ∀ i, i < bwt.length → (lfTable bwt).getD i 0 =
      ((List.range bwt.length).filter (fun j => decide ((byteAt bwt j).toNat < (byteAt bwt i).toNat))).length +
      ((List.range i).filter (fun j => byteAt bwt j == byteAt bwt i)).length

/-- BWT_DEC completes (41_bwt.md section 2): `n` bytes by the LF walk from the latched primary index, read as int32. The walk's
first visit gives the last byte, and each later one goes on at `LF`. PRIMARY_INDEX is not written. -/
def Obligations.BwtDecWalksTheLfTable : Prop :=
  (∀ s : State, s.srcReady → s.dstRoom s.latch.srcLen.toNat →
    (s.latch.srcLen = 0 ∨
      (0 ≤ s.latch.primaryIndex.toInt ∧ s.latch.primaryIndex.toInt < (s.latch.srcLen.toNat : Int))) →
    EndsIn .bwtDec s (s.doneWith (bwtDecode s.srcBuf s.latch.primaryIndex.toNat))) ∧
  (∀ (bwt : Buffer) (p : Nat), (bwtDecode bwt p).length = bwt.length ∧
    ∀ k, k < bwt.length → byteAt (bwtDecode bwt p) (bwt.length - 1 - k) =
      byteAt bwt (Nat.repeat (fun pos => (lfTable bwt).getD pos 0) k p))

/-- R144: a primary index outside `[0, n)`, read as int32, ends BWT_DEC of a nonempty buffer with PRIMARY_RANGE; for `n = 0`
any value is accepted. -/
def Obligations.PrimaryIndexOutOfRange : Prop :=
  ∀ s : State, s.srcReady → s.dstRoom 0 →
    (s.latch.srcLen ≠ 0 →
      (s.latch.primaryIndex.toInt < 0 ∨ (s.latch.srcLen.toNat : Int) ≤ s.latch.primaryIndex.toInt) →
      EndsIn .bwtDec s
        (s.errorWith .primaryRange .bwtDecoder s.latch.primaryIndex s.latch.srcLen)) ∧
    (s.latch.srcLen = 0 → EndsIn .bwtDec s (s.doneWith []))

/-- 41_bwt.md section 3 and 90_conflicts.md C1: "banana" comes back from its BWT, "baa" and "abaa" do not. -/
def Obligations.BwtRoundTripHoldsForBananaNotForBaa : Prop :=
  bwtEncode [98, 97, 110, 97, 110, 97] = ([110, 110, 98, 97, 97, 97], 3) ∧
  bwtDecode [110, 110, 98, 97, 97, 97] 3 = [98, 97, 110, 97, 110, 97] ∧
  bwtEncode [98, 97, 97] = ([97, 98, 97], 2) ∧ bwtDecode [97, 98, 97] 2 = [97, 98, 97] ∧
  bwtEncode [97, 98, 97, 97] = ([97, 98, 97, 97], 2) ∧ bwtDecode [97, 98, 97, 97] 2 = [97, 97, 98, 97]

/-! ### MTF -/

/-- R161: the entry at `j` moves to the front, those before it move right by one, those after it stay. The list starts as the
identity and stays a permutation of the 256 bytes (42_mtf.md section 1). -/
def Obligations.MoveToFrontShiftsTheEntriesBefore : Prop :=
  (∀ (list : List Byte) (j : Nat), j < list.length →
    (moveToFront list j).length = list.length ∧ (moveToFront list j).getD 0 0 = list.getD j 0 ∧
    (∀ t, 0 < t → t ≤ j → (moveToFront list j).getD t 0 = list.getD (t - 1) 0) ∧
    (∀ t, j < t → (moveToFront list j).getD t 0 = list.getD t 0) ∧ (j = 0 → moveToFront list j = list)) ∧
  mtfIdentity.length = 256 ∧ (∀ k, k < 256 → mtfIdentity.getD k 0 = BitVec.ofNat 8 k) ∧
  ∀ (list : List Byte) (j : Byte), list.Perm mtfIdentity → (moveToFront list j.toNat).Perm mtfIdentity

/-- R166: the MTF round trip for every nonempty buffer; for the empty one both commands report EMPTY_INPUT. -/
def Obligations.MtfRoundTrip : Prop :=
  (∀ x : Buffer, x ≠ [] → mtfDecode (mtfEncode x) = x) ∧
  ∀ s : State, s.srcReady → s.dstRoom 0 → s.latch.srcLen = 0 →
    EndsIn .mtfEnc s (s.errorWith .emptyInput .mtfEncoder 0 0) ∧
    EndsIn .mtfDec s (s.errorWith .emptyInput .mtfDecoder 0 0)

/-- MTF_ENC and MTF_DEC complete (42_mtf.md section 2): `n` bytes. Each encoded byte is the place of the input byte in the list
as the bytes before it left it, each decoded one the entry at the index; either way the entry then moves to the front, and the
list starts as the identity. -/
def Obligations.MtfCommandsWriteOneBytePerByte : Prop :=
  (∀ s : State, s.srcReady → s.dstRoom s.latch.srcLen.toNat → s.latch.srcLen ≠ 0 →
    EndsIn .mtfEnc s (s.doneWith (mtfEncode s.srcBuf)) ∧ EndsIn .mtfDec s (s.doneWith (mtfDecode s.srcBuf)) ∧
    (mtfEncode s.srcBuf).length = s.latch.srcLen.toNat ∧ (mtfDecode s.srcBuf).length = s.latch.srcLen.toNat) ∧
  (∀ (list : List Byte) (b : Byte) (bs : Buffer), list.Perm mtfIdentity → ∃ j, j < 256 ∧ list.getD j 0 = b ∧
    mtfEncodeFrom list (b :: bs) = BitVec.ofNat 8 j :: mtfEncodeFrom (moveToFront list j) bs) ∧
  (∀ x : Buffer, mtfEncode x = mtfEncodeFrom mtfIdentity x ∧ mtfDecode x = mtfDecodeFrom mtfIdentity x) ∧
  ∀ (list : List Byte) (j : Byte) (js : Buffer),
    mtfDecodeFrom list (j :: js) = list.getD j.toNat 0 :: mtfDecodeFrom (moveToFront list j.toNat) js

/-! ### RLE -/

/-- R184: the RLE round trip for every buffer; a maximal run of `n` equal bytes, wherever it stands, is split into ⌈n/255⌉
pairs of its own, which decode back to it; the counts are in `[1,255]` and the number of bytes is even. -/
def Obligations.RleRoundTrip : Prop :=
  (∀ x : Buffer, rleDecode (rleEncode x) = x ∧ (rleEncode x).length % 2 = 0 ∧
    ∀ j, 2 * j < (rleEncode x).length → byteAt (rleEncode x) (2 * j) ≠ 0) ∧
  ∀ (x y : Buffer) (n : Nat) (v : Byte), 0 < n → x.getLast? ≠ some v → y.head? ≠ some v →
    rleEncode (x ++ List.replicate n v ++ y) = rleEncode x ++ rleEncode (List.replicate n v) ++ rleEncode y ∧
    (rleEncode (List.replicate n v)).length = 2 * ((n + 254) / 255)

/-- RLE_ENC completes (43_rle.md sections 1 and 2) with a capacity of the worst case, `2n`, which the stream never exceeds.
Below that capacity it ends with CAPACITY_EXCEEDED, and a scratch below it with
ALLOCATION_FAILURE. -/
def Obligations.RleEncWritesPairsOrReportsCapacity : Prop :=
  (∀ s : State, s.srcReady → s.dstRoom 0 → s.cfg.legal = true →
    (2 * s.latch.srcLen.toNat ≤ s.latch.dstCap.toNat → 2 * s.latch.srcLen.toNat ≤ s.cfg.scratchLen →
      EndsIn .rleEnc s (s.doneWith (rleEncode s.srcBuf))) ∧
    (s.latch.dstCap.toNat < 2 * s.latch.srcLen.toNat → EndsIn .rleEnc s (s.errorWith .capacityExceeded .rleEncoder
      s.latch.dstCap (BitVec.ofNat 32 (2 * s.latch.srcLen.toNat)))) ∧
    (2 * s.latch.srcLen.toNat ≤ s.latch.dstCap.toNat → s.cfg.scratchLen < 2 * s.latch.srcLen.toNat →
      EndsIn .rleEnc s (s.errorWith .allocationFailure .rleEncoder
        (BitVec.ofNat 32 (2 * s.latch.srcLen.toNat)) (BitVec.ofNat 32 s.cfg.scratchLen)))) ∧
  ∀ x : Buffer, (rleEncode x).length ≤ 2 * x.length

/-- RLE_DEC completes (43_rle.md sections 1 and 2): every pair of the stream, an encoder's or not, expands to as many copies of
its value as its count says, none for a count of 0, and the decoded length is the sum of the counts. An odd length ends with
RLE_MALFORMED; a sum the scratch does not hold with ALLOCATION_FAILURE; a DST that is too small with DST_TOO_SMALL. -/
def Obligations.RleDecExpandsPairsOrReports : Prop :=
  (∀ x : Buffer, (rleDecode x).length = rleTotal x) ∧ rleDecode [] = [] ∧
  (∀ (x y : Buffer) (c v : Byte), x.length % 2 = 0 →
    rleDecode (x ++ c :: v :: y) = rleDecode x ++ List.replicate c.toNat v ++ rleDecode y) ∧
  ∀ s : State, s.srcReady → s.dstRoom 0 →
    (s.latch.srcLen.toNat % 2 = 0 → rleTotal s.srcBuf ≤ s.cfg.scratchLen →
      rleTotal s.srcBuf ≤ s.latch.dstCap.toNat → EndsIn .rleDec s (s.doneWith (rleDecode s.srcBuf))) ∧
    (s.latch.srcLen.toNat % 2 = 1 →
      EndsIn .rleDec s (s.errorWith .rleMalformed .rleDecoder s.latch.srcLen 0)) ∧
    (s.latch.srcLen.toNat % 2 = 0 → s.cfg.scratchLen < rleTotal s.srcBuf → EndsIn .rleDec s
      (s.errorWith .allocationFailure .rleDecoder (sat32 (rleTotal s.srcBuf)) (sat32 s.cfg.scratchLen))) ∧
    (s.latch.srcLen.toNat % 2 = 0 → rleTotal s.srcBuf ≤ s.cfg.scratchLen →
      s.latch.dstCap.toNat < rleTotal s.srcBuf → EndsIn .rleDec s
        (s.errorWith .dstTooSmall .rleDecoder s.latch.dstCap (sat32 (rleTotal s.srcBuf))))

/-! ### Huffman -/

/-- R200: the frequency table: for each of the 256 byte values the number of positions that hold it, which fits its
uint32 entry. -/
def Obligations.FrequenciesCountPositions : Prop :=
  ∀ buf : Buffer, (freqOf buf).length = 256 ∧
    ∀ k, k < 256 → (freqOf buf).getD k 0 =
      ((List.range buf.length).filter (fun i => byteAt buf i == BitVec.ofNat 8 k)).length ∧
    (buf.length ≤ 2 ^ 31 - 1 → (freqOf buf).getD k 0 < 2 ^ 32)

/-- 44_huffman.md section 1: `ExtractMin` takes the node with the smallest pair `(f, seq)` out of the queue and leaves the
others. `BuildTree` starts from one leaf per symbol with nonzero frequency, its `seq` the symbol, and merges as `MergesTo` says:
the first node extracted is the left child, the frequency is the sum, the `seq` is 256 and one more for each merge before. It
gives no tree exactly when every frequency is zero. -/
def Obligations.ExtractMinTakesTheSmallestPair : Prop :=
  (∀ q : List HuffNode, extractMin q = none ↔ q = []) ∧
  (∀ (q rest : List HuffNode) (a : HuffNode), extractMin q = some (a, rest) →
    (a :: rest).Perm q ∧
    ∀ b ∈ rest, nodeFreq a < nodeFreq b ∨ (nodeFreq a = nodeFreq b ∧ nodeSeq a ≤ nodeSeq b)) ∧
  ∀ freq : List Nat, (buildTree freq = none ↔ ∀ sym : Byte, freq.getD sym.toNat 0 = 0) ∧
    ∀ root, buildTree freq = some root → ∃ q : List HuffNode, q.Nodup ∧
      (∀ n, n ∈ q ↔ ∃ sym : Byte, freq.getD sym.toNat 0 ≠ 0 ∧ n = .leaf sym (freq.getD sym.toNat 0) sym.toNat) ∧
      MergesTo 0 q root

/-- R207: a code is at most `k - 1 <= 255` bits long, where `k` is the number of symbols with nonzero frequency. And the code
assignment (44_huffman.md section 1): a code exactly for these symbols, one each; it is the path from the root to the symbol's
leaf, 0 descending left and 1 descending right, and the decoder's walk follows the same path; no code is a prefix of
another's. -/
def Obligations.CodesArePrefixFreeAndBounded : Prop :=
  ∀ freq : List Nat,
    ((codeTable freq).map Prod.fst).Nodup ∧
    (∀ s : Byte, (codeFor (codeTable freq) s).isSome = decide (freq.getD s.toNat 0 ≠ 0)) ∧
    (∀ (s : Byte) (c : Bits), codeFor (codeTable freq) s = some c ↔
      ∃ root, buildTree freq = some root ∧ leafAt root c = some s) ∧
    (∀ (root : HuffNode) (s : Byte) (c rest : Bits), leafAt root c = some s →
      huffWalk root (c ++ rest) = some (s, rest)) ∧
    (∀ (s t : Byte) (c d : Bits), codeFor (codeTable freq) s = some c → codeFor (codeTable freq) t = some d →
      c <+: d → s = t) ∧
    (∀ (s : Byte) (c : Bits), codeFor (codeTable freq) s = some c →
      c.length ≤ (codeTable freq).length - 1 ∧ c.length ≤ 255)

/-- 30_encoding.md section 3 (payload): packing is MSB first with the final byte zero-padded on the low bits. -/
def Obligations.PackIsMsbFirstAndZeroPadded : Prop :=
  ∀ bits : Bits, (packBits bits).length = (bits.length + 7) / 8 ∧
    unpackBits (packBits bits) =
      bits ++ List.replicate (8 * ((bits.length + 7) / 8) - bits.length) false

/-- HUF_CODES completes (44_huffman.md section 3, 30_encoding.md section 3): the 9216-byte code-table record, entry `s` at
offset `36s`: PRESENT, LEN, two zero bytes, and code bit `j` in bit `7 - (j mod 8)` of byte `4 + j div 8`. A shorter SRC ends
with HUF_TABLE_TRUNCATED. -/
def Obligations.HufCodesWritesTheCodeTable : Prop :=
  ∀ s : State, s.srcReady → s.dstRoom 0 →
    (s.latch.srcLen.toNat < 1024 →
      EndsIn .hufCodes s (s.errorWith .hufTableTruncated .huffmanTree s.latch.srcLen 1024)) ∧
    (1024 ≤ s.latch.srcLen.toNat → 9216 ≤ s.latch.dstCap.toNat →
      let code := codeTable (readFreqs s.srcBuf)
      let rec' := codeRecord code
      EndsIn .hufCodes s (s.doneWith rec') ∧ rec'.length = 9216 ∧
      ∀ sym : Byte,
        byteAt rec' (36 * sym.toNat) = (if (codeFor code sym).isSome then 1 else 0) ∧
        (byteAt rec' (36 * sym.toNat + 1)).toNat = ((codeFor code sym).getD []).length ∧
        byteAt rec' (36 * sym.toNat + 2) = 0 ∧ byteAt rec' (36 * sym.toNat + 3) = 0 ∧
        ∀ j, j < 256 → (byteAt rec' (36 * sym.toNat + 4 + j / 8)).getLsbD (7 - j % 8) =
          ((codeFor code sym).getD []).getD j false)

/-- HUF_ENC completes (44_huffman.md sections 2 and 3): the frequency table, then the packed codes, `1024 + ceil(B/8)` bytes,
where that fits the scratch and DST; a payload larger than the scratch ends with ALLOCATION_FAILURE, one larger than DST with
DST_TOO_SMALL. The table has 256 words of 32 bits, entry `s` at offset `4s`, and every reader of a table of at least 1024 bytes
takes it so; a word's first byte is the least significant (20_memory.md section 2, 30_encoding.md section 3). -/
def Obligations.HufEncWritesThePayload : Prop :=
  (∀ (b : Buffer) (off : Nat), (rdLe32 b off).toNat = (byteAt b off).toNat + 2 ^ 8 * (byteAt b (off + 1)).toNat +
    2 ^ 16 * (byteAt b (off + 2)).toNat + 2 ^ 24 * (byteAt b (off + 3)).toNat) ∧
  (∀ (x : Buffer) (sym : Nat), sym < 256 →
    rdLe32 (huffEncode x) (4 * sym) = BitVec.ofNat 32 ((freqOf x).getD sym 0)) ∧
  (∀ (b : Buffer) (sym : Nat), 1024 ≤ b.length → sym < 256 →
    (readFreqs b).getD sym 0 = (rdLe32 b (4 * sym)).toNat) ∧
  (∀ b : Buffer, 1024 ≤ b.length → (readFreqs b).length = 256) ∧
  (∀ x : Buffer, (huffEncode x).drop 1024 = packBits (codeBits (codeTable (freqOf x)) x)) ∧
  (∀ (code : List (Byte × Bits)) (b : Byte) (c : Bits) (bs : Buffer), codeFor code b = some c →
    codeBits code (b :: bs) = c ++ codeBits code bs) ∧
  ∀ s : State, s.srcReady → s.dstRoom 0 →
    (huffEncode s.srcBuf).length = payloadLength (freqOf s.srcBuf) ∧
    (payloadLength (freqOf s.srcBuf) ≤ s.cfg.scratchLen → payloadLength (freqOf s.srcBuf) ≤ s.latch.dstCap.toNat →
      EndsIn .hufEnc s (s.doneWith (huffEncode s.srcBuf))) ∧
    (s.cfg.scratchLen < payloadLength (freqOf s.srcBuf) → EndsIn .hufEnc s
      (s.errorWith .allocationFailure .huffmanEncoder (sat32 (payloadLength (freqOf s.srcBuf)))
        (sat32 s.cfg.scratchLen))) ∧
    (payloadLength (freqOf s.srcBuf) ≤ s.cfg.scratchLen → s.latch.dstCap.toNat < payloadLength (freqOf s.srcBuf) →
      EndsIn .hufEnc s (s.errorWith .dstTooSmall .huffmanEncoder s.latch.dstCap
        (sat32 (payloadLength (freqOf s.srcBuf)))))

/-- R214: HUF_DEC of the payload HUF_ENC gives for `x` completes with `x`, single-byte alphabets and the empty buffer
included, whatever bytes follow the payload. -/
def Obligations.HuffmanRoundTrip : Prop :=
  ∀ (s : State) (x rest : Buffer), s.cfg.legal = true → s.srcReady → s.srcBuf = huffEncode x ++ rest →
    x.length ≤ s.cfg.scratchLen → s.dstRoom x.length → EndsIn .hufDec s (s.doneWith x)

/-- HUF_DEC (44_huffman.md sections 2 and 3), on any table, an encoder's or not: a short table, a count the scratch does not
hold, one nonzero entry (that many copies, no bit read), and an all-zero table. With two or more symbols: when the bits start
with the codes of as many symbols as the table counts, these are the output, whatever follows; when they start with the codes
of fewer symbols and what is left starts with no code, they have run out, and the report says how many were decoded. -/
def Obligations.HufDecReportsAndDegenerateTables : Prop :=
  ∀ s : State, s.srcReady → s.dstRoom 0 →
    (s.latch.srcLen.toNat < 1024 →
      EndsIn .hufDec s (s.errorWith .hufTableTruncated .huffmanDecoder s.latch.srcLen 1024)) ∧
    (1024 ≤ s.latch.srcLen.toNat →
      (s.cfg.scratchLen < (readFreqs s.srcBuf).sum →
        EndsIn .hufDec s (s.errorWith .allocationFailure .huffmanDecoder (sat32 (readFreqs s.srcBuf).sum)
          (sat32 s.cfg.scratchLen))) ∧
      ((readFreqs s.srcBuf).sum = 0 → EndsIn .hufDec s (s.doneWith [])) ∧
      (∀ (sym : Byte) (c : Nat), 0 < c → c ≤ s.cfg.scratchLen → c ≤ s.latch.dstCap.toNat →
        readFreqs s.srcBuf = (List.replicate 256 0).set sym.toNat c →
        EndsIn .hufDec s (s.doneWith (List.replicate c sym))) ∧
      ((readFreqs s.srcBuf).sum ≤ s.cfg.scratchLen → s.latch.srcLen.toNat = 1024 →
        2 ≤ ((readFreqs s.srcBuf).filter (fun f => decide (f ≠ 0))).length →
        EndsIn .hufDec s (s.errorWith .hufBitstreamUnderrun .huffmanDecoder 0 (sat32 (readFreqs s.srcBuf).sum))) ∧
      ∀ (x : Buffer) (rest : Bits),
        let code := codeTable (readFreqs s.srcBuf)
        (readFreqs s.srcBuf).sum ≤ s.cfg.scratchLen →
        2 ≤ ((readFreqs s.srcBuf).filter (fun f => decide (f ≠ 0))).length →
        (∀ b ∈ x, (codeFor code b).isSome = true) →
        unpackBits (s.srcBuf.drop 1024) = codeBits code x ++ rest →
        (x.length = (readFreqs s.srcBuf).sum → x.length ≤ s.latch.dstCap.toNat →
          EndsIn .hufDec s (s.doneWith x)) ∧
        (x.length < (readFreqs s.srcBuf).sum →
          (∀ (b : Byte) (c : Bits), codeFor code b = some c → ¬ c <+: rest) →
          EndsIn .hufDec s (s.errorWith .hufBitstreamUnderrun .huffmanDecoder (sat32 x.length)
            (sat32 (readFreqs s.srcBuf).sum))))

/-! ### Pipeline -/

/-- R99: the metadata record is 8 bytes and reads back as the two words, little-endian. -/
def Obligations.MetadataRecordReadsBack : Prop :=
  ∀ p n : Word, (metadataRecord p n).length = 8 ∧ rdLe32 (metadataRecord p n) 0 = p ∧
    rdLe32 (metadataRecord p n) 4 = n ∧
    ∀ k, k < 4 → (byteAt (metadataRecord p n) k).toNat = p.toNat / 2 ^ (8 * k) % 256 ∧
      (byteAt (metadataRecord p n) (4 + k)).toNat = n.toNat / 2 ^ (8 * k) % 256

/-- PIPE_ENC completes (45_pipeline.md section 2): the Huffman payload of the forward stream at DST, the metadata record at AUX
after it, PRIMARY_INDEX and ORIG_LEN. -/
def Obligations.PipeEncWritesPayloadAndMetadata : Prop :=
  ∀ s : State, s.srcReady → s.auxReady → 2 * s.latch.srcLen.toNat ≤ s.cfg.scratchLen →
    payloadLength (freqOf (forwardStream s.srcBuf)) ≤ s.cfg.scratchLen →
    s.dstRoom (payloadLength (freqOf (forwardStream s.srcBuf))) → 8 ≤ s.latch.auxLen.toNat →
    let p : Word := BitVec.ofNat 32 (bwtEncode s.srcBuf).2
    let h := huffEncode (forwardStream s.srcBuf)
    EndsIn .pipeEnc s
      { s.doneWith h with
        mem := (s.mem.write s.latch.dstAddr.toNat h).write s.latch.auxAddr.toNat (metadataRecord p s.latch.srcLen)
        primaryIndex := p
        origLen := s.latch.srcLen }

/-- PIPE_ENC's own errors (45_pipeline.md sections 1 and 2): the worst-case RLE buffer at stage 6, the payload at stage 9, an
AUX region shorter than 8 bytes at stage 11. A payload that outgrows the scratch needs
a `SCRATCH_LEN` below the legal minimum of R11. -/
def Obligations.PipeEncErrorsNameTheirStage : Prop :=
  ∀ s : State, s.srcReady → s.auxReady → s.dstRoom 0 →
    (s.cfg.scratchLen < 2 * s.latch.srcLen.toNat →
      EndsIn .pipeEnc s (s.errorWith .allocationFailure .rleEncoder (sat32 (2 * s.latch.srcLen.toNat))
        (sat32 s.cfg.scratchLen))) ∧
    (2 * s.latch.srcLen.toNat ≤ s.cfg.scratchLen →
      s.cfg.scratchLen < payloadLength (freqOf (forwardStream s.srcBuf)) →
      EndsIn .pipeEnc s (s.errorWith .allocationFailure .huffmanEncoder
        (sat32 (payloadLength (freqOf (forwardStream s.srcBuf)))) (sat32 s.cfg.scratchLen))) ∧
    (2 * s.latch.srcLen.toNat ≤ s.cfg.scratchLen →
      payloadLength (freqOf (forwardStream s.srcBuf)) ≤ s.cfg.scratchLen →
      payloadLength (freqOf (forwardStream s.srcBuf)) ≤ s.latch.dstCap.toNat → s.latch.auxLen.toNat < 8 →
      EndsIn .pipeEnc s (s.errorWith .dstTooSmall .pipeline s.latch.auxLen 8))

/-- R244: an AUX region of no bytes is METADATA_MISSING, one of 1 to 7 bytes METADATA_TRUNCATED, before any decode stage,
whatever the payload holds. -/
def Obligations.ShortMetadataEndsPipeDec : Prop :=
  ∀ s : State, s.srcReady → s.auxReady → s.dstRoom 0 →
    (s.latch.auxLen = 0 → EndsIn .pipeDec s (s.errorWith .metadataMissing .pipeline 0 8)) ∧
    (1 ≤ s.latch.auxLen.toNat → s.latch.auxLen.toNat ≤ 7 →
      EndsIn .pipeDec s (s.errorWith .metadataTruncated .pipeline s.latch.auxLen 8))

/-- R246: PIPE_DEC delivers what the stages decoded and the two words of the record; when the decoded length differs from
`original_length` it completes with DONE and WARN, LENGTH_MISMATCH of stage 11 and the two lengths, and when it does not, with
DONE alone. -/
def Obligations.LengthMismatchIsAWarning : Prop :=
  ∀ (s : State) (x : Buffer), s.srcReady → s.auxReady → 8 ≤ s.latch.auxLen.toNat → s.dstRoom x.length →
    let p := rdLe32 (s.mem.readBuf s.latch.auxAddr.toNat 8) 0
    let olen := rdLe32 (s.mem.readBuf s.latch.auxAddr.toNat 8) 4
    pipeBackward s.cfg.scratchLen s.srcBuf p = .ok x →
    (x.length = olen.toNat → EndsIn .pipeDec s { s.doneWith x with primaryIndex := p, origLen := olen }) ∧
    (x.length ≠ olen.toNat → EndsIn .pipeDec s
      { s.doneWith x with
        primaryIndex := p
        origLen := olen
        status := statusDone ||| statusWarn ||| (s.status &&& statusOverrun)
        err := 0x00000B0D
        errInfo0 := BitVec.ofNat 32 x.length
        errInfo1 := olen })

/-- R247: PIPE_DEC of what PIPE_ENC made of `x`, with the record it made, completes without a warning and with the length of
`x`; its content is the BWT decoding of the BWT encoding of `x`, so it is `x` exactly when that is. -/
def Obligations.PipelineRoundTripUpToTheBwt : Prop :=
  ∀ (s : State) (x : Buffer), s.cfg.legal = true → s.srcReady → s.auxReady → 8 ≤ s.latch.auxLen.toNat →
    x.length ≤ s.cfg.scratchLen → (forwardStream x).length ≤ s.cfg.scratchLen → s.dstRoom x.length →
    s.srcBuf = huffEncode (forwardStream x) →
    let p : Word := BitVec.ofNat 32 (bwtEncode x).2
    let n : Word := BitVec.ofNat 32 x.length
    s.mem.readBuf s.latch.auxAddr.toNat 8 = metadataRecord p n →
    let y := bwtDecode (bwtEncode x).1 (bwtEncode x).2
    y.length = x.length ∧ EndsIn .pipeDec s { s.doneWith y with primaryIndex := p, origLen := n }

/-- 45_pipeline.md sections 1 and 2: an error of a decode stage ends PIPE_DEC with that stage's number and information words: the
errors of the Huffman stage (those of HUF_DEC) at stage 10, an odd stream and a decoded length above the scratch at stage 7, a
primary index out of range for the decoded length at stage 3. Without one of them the stages give the BWT decoding of the MTF
decoding of the expanded pairs. No error outside those the rule lists occurs. -/
def Obligations.PipeDecErrorsNameTheirStage : Prop :=
  (∀ s : State, s.srcReady → s.auxReady → s.dstRoom 0 → 8 ≤ s.latch.auxLen.toNat →
    let p := rdLe32 (s.mem.readBuf s.latch.auxAddr.toNat 8) 0
    (∀ e : Report, huffDecode s.cfg.scratchLen .huffmanDecoder s.srcBuf = .error e →
      e.stage = .huffmanDecoder ∧ e.code ∈ [.hufTableTruncated, .allocationFailure, .hufBitstreamUnderrun] ∧
      EndsIn .hufDec s (s.errorWith e.code e.stage e.info0 e.info1) ∧
      EndsIn .pipeDec s (s.errorWith e.code e.stage e.info0 e.info1)) ∧
    ∀ r : Buffer, huffDecode s.cfg.scratchLen .huffmanDecoder s.srcBuf = .ok r →
      (r.length % 2 = 1 → EndsIn .pipeDec s (s.errorWith .rleMalformed .rleDecoder (sat32 r.length) 0)) ∧
      (r.length % 2 = 0 → s.cfg.scratchLen < rleTotal r → EndsIn .pipeDec s
        (s.errorWith .allocationFailure .rleDecoder (sat32 (rleTotal r)) (sat32 s.cfg.scratchLen))) ∧
      (r.length % 2 = 0 → rleTotal r ≤ s.cfg.scratchLen →
        (0 < rleTotal r → p.toInt < 0 ∨ (rleTotal r : Int) ≤ p.toInt →
          EndsIn .pipeDec s (s.errorWith .primaryRange .bwtDecoder p (sat32 (rleTotal r)))) ∧
        (rleTotal r = 0 ∨ (0 ≤ p.toInt ∧ p.toInt < (rleTotal r : Int)) →
          pipeBackward s.cfg.scratchLen s.srcBuf p = .ok (bwtDecode (mtfDecode (rleDecode r)) p.toNat)))) ∧
  ∀ s t : State, exec .pipeDec s = .next t → t.error = true →
    t.err.toNat ∈ [0x0002, 0x0B03, 0x0B07, 0x0B08, 0x0A0B, 0x0A03, 0x0A0C, 0x070A, 0x0703, 0x0503, 0x0309, 0x0303,
      0x0B06]
end

