-- ==== Sys2Proof/Laws/State.lean ====
section
/-! SUPPORT. One lemma per field per named update of the state, true by rfl, so that no later proof unfolds an update. -/

namespace Sys2Proof.Machine

/-! ### Acceptance of a command (R36) -/

@[simp] theorem State.accept_cfg (w : Word) (s : State) : (s.accept w).cfg = s.cfg := rfl
@[simp] theorem State.accept_cmd (w : Word) (s : State) : (s.accept w).cmd = w := rfl
@[simp] theorem State.accept_status (w : Word) (s : State) : (s.accept w).status = statusOnAccept := rfl
@[simp] theorem State.accept_err (w : Word) (s : State) : (s.accept w).err = 0 := rfl
@[simp] theorem State.accept_errInfo0 (w : Word) (s : State) : (s.accept w).errInfo0 = 0 := rfl
@[simp] theorem State.accept_errInfo1 (w : Word) (s : State) : (s.accept w).errInfo1 = 0 := rfl
@[simp] theorem State.accept_srcAddr (w : Word) (s : State) : (s.accept w).srcAddr = s.srcAddr := rfl
@[simp] theorem State.accept_srcLen (w : Word) (s : State) : (s.accept w).srcLen = s.srcLen := rfl
@[simp] theorem State.accept_dstAddr (w : Word) (s : State) : (s.accept w).dstAddr = s.dstAddr := rfl
@[simp] theorem State.accept_dstCap (w : Word) (s : State) : (s.accept w).dstCap = s.dstCap := rfl
@[simp] theorem State.accept_auxAddr (w : Word) (s : State) : (s.accept w).auxAddr = s.auxAddr := rfl
@[simp] theorem State.accept_auxLen (w : Word) (s : State) : (s.accept w).auxLen = s.auxLen := rfl
@[simp] theorem State.accept_primaryIndex (w : Word) (s : State) : (s.accept w).primaryIndex = s.primaryIndex := rfl
@[simp] theorem State.accept_origLen (w : Word) (s : State) : (s.accept w).origLen = s.origLen := rfl
@[simp] theorem State.accept_outLen (w : Word) (s : State) : (s.accept w).outLen = 0 := rfl
@[simp] theorem State.accept_latch (w : Word) (s : State) : (s.accept w).latch = ⟨w, s.srcAddr, s.srcLen, s.dstAddr, s.dstCap, s.auxAddr, s.auxLen, s.primaryIndex⟩ := rfl
@[simp] theorem State.accept_mem (w : Word) (s : State) : (s.accept w).mem = s.mem := rfl
@[simp] theorem State.accept_held (w : Word) (s : State) : (s.accept w).held = s.held ++ heldRegions ⟨w, s.srcAddr, s.srcLen, s.dstAddr, s.dstCap, s.auxAddr, s.auxLen, s.primaryIndex⟩ := rfl
@[simp] theorem State.accept_unseen (w : Word) (s : State) : (s.accept w).unseen = [] := rfl
@[simp] theorem State.accept_rdata (w : Word) (s : State) : (s.accept w).rdata = s.rdata := rfl
@[simp] theorem State.accept_script (w : Word) (s : State) : (s.accept w).script = s.script := rfl
@[simp] theorem State.accept_turns (w : Word) (s : State) : (s.accept w).turns = s.turns := rfl
@[simp] theorem State.accept_draws (w : Word) (s : State) : (s.accept w).draws = s.draws := rfl

/-! ### An ignored CMD write (R36) -/

@[simp] theorem State.ignoreCmd_cfg (s : State) : (s.ignoreCmd).cfg = s.cfg := rfl
@[simp] theorem State.ignoreCmd_cmd (s : State) : (s.ignoreCmd).cmd = s.cmd := rfl
@[simp] theorem State.ignoreCmd_status (s : State) : (s.ignoreCmd).status = statusOnIgnoredWrite s.status := rfl
@[simp] theorem State.ignoreCmd_err (s : State) : (s.ignoreCmd).err = s.err := rfl
@[simp] theorem State.ignoreCmd_errInfo0 (s : State) : (s.ignoreCmd).errInfo0 = s.errInfo0 := rfl
@[simp] theorem State.ignoreCmd_errInfo1 (s : State) : (s.ignoreCmd).errInfo1 = s.errInfo1 := rfl
@[simp] theorem State.ignoreCmd_srcAddr (s : State) : (s.ignoreCmd).srcAddr = s.srcAddr := rfl
@[simp] theorem State.ignoreCmd_srcLen (s : State) : (s.ignoreCmd).srcLen = s.srcLen := rfl
@[simp] theorem State.ignoreCmd_dstAddr (s : State) : (s.ignoreCmd).dstAddr = s.dstAddr := rfl
@[simp] theorem State.ignoreCmd_dstCap (s : State) : (s.ignoreCmd).dstCap = s.dstCap := rfl
@[simp] theorem State.ignoreCmd_auxAddr (s : State) : (s.ignoreCmd).auxAddr = s.auxAddr := rfl
@[simp] theorem State.ignoreCmd_auxLen (s : State) : (s.ignoreCmd).auxLen = s.auxLen := rfl
@[simp] theorem State.ignoreCmd_primaryIndex (s : State) : (s.ignoreCmd).primaryIndex = s.primaryIndex := rfl
@[simp] theorem State.ignoreCmd_origLen (s : State) : (s.ignoreCmd).origLen = s.origLen := rfl
@[simp] theorem State.ignoreCmd_outLen (s : State) : (s.ignoreCmd).outLen = s.outLen := rfl
@[simp] theorem State.ignoreCmd_latch (s : State) : (s.ignoreCmd).latch = s.latch := rfl
@[simp] theorem State.ignoreCmd_mem (s : State) : (s.ignoreCmd).mem = s.mem := rfl
@[simp] theorem State.ignoreCmd_held (s : State) : (s.ignoreCmd).held = s.held := rfl
@[simp] theorem State.ignoreCmd_unseen (s : State) : (s.ignoreCmd).unseen = s.unseen := rfl
@[simp] theorem State.ignoreCmd_rdata (s : State) : (s.ignoreCmd).rdata = s.rdata := rfl
@[simp] theorem State.ignoreCmd_script (s : State) : (s.ignoreCmd).script = s.script := rfl
@[simp] theorem State.ignoreCmd_turns (s : State) : (s.ignoreCmd).turns = s.turns := rfl
@[simp] theorem State.ignoreCmd_draws (s : State) : (s.ignoreCmd).draws = s.draws := rfl

/-! ### Error entry (R271) -/

@[simp] theorem State.raiseError_cfg (r : Report) (s : State) : (s.raiseError r).cfg = s.cfg := rfl
@[simp] theorem State.raiseError_cmd (r : Report) (s : State) : (s.raiseError r).cmd = s.cmd := rfl
@[simp] theorem State.raiseError_status (r : Report) (s : State) : (s.raiseError r).status = statusOnError s.status := rfl
@[simp] theorem State.raiseError_err (r : Report) (s : State) : (s.raiseError r).err = errWord r.stage r.code := rfl
@[simp] theorem State.raiseError_errInfo0 (r : Report) (s : State) : (s.raiseError r).errInfo0 = r.info0 := rfl
@[simp] theorem State.raiseError_errInfo1 (r : Report) (s : State) : (s.raiseError r).errInfo1 = r.info1 := rfl
@[simp] theorem State.raiseError_srcAddr (r : Report) (s : State) : (s.raiseError r).srcAddr = s.srcAddr := rfl
@[simp] theorem State.raiseError_srcLen (r : Report) (s : State) : (s.raiseError r).srcLen = s.srcLen := rfl
@[simp] theorem State.raiseError_dstAddr (r : Report) (s : State) : (s.raiseError r).dstAddr = s.dstAddr := rfl
@[simp] theorem State.raiseError_dstCap (r : Report) (s : State) : (s.raiseError r).dstCap = s.dstCap := rfl
@[simp] theorem State.raiseError_auxAddr (r : Report) (s : State) : (s.raiseError r).auxAddr = s.auxAddr := rfl
@[simp] theorem State.raiseError_auxLen (r : Report) (s : State) : (s.raiseError r).auxLen = s.auxLen := rfl
@[simp] theorem State.raiseError_primaryIndex (r : Report) (s : State) : (s.raiseError r).primaryIndex = s.primaryIndex := rfl
@[simp] theorem State.raiseError_origLen (r : Report) (s : State) : (s.raiseError r).origLen = s.origLen := rfl
@[simp] theorem State.raiseError_outLen (r : Report) (s : State) : (s.raiseError r).outLen = 0 := rfl
@[simp] theorem State.raiseError_latch (r : Report) (s : State) : (s.raiseError r).latch = s.latch := rfl
@[simp] theorem State.raiseError_mem (r : Report) (s : State) : (s.raiseError r).mem = s.mem := rfl
@[simp] theorem State.raiseError_held (r : Report) (s : State) : (s.raiseError r).held = s.held := rfl
@[simp] theorem State.raiseError_unseen (r : Report) (s : State) : (s.raiseError r).unseen = s.before [.err, .errInfo0, .errInfo1] := rfl
@[simp] theorem State.raiseError_rdata (r : Report) (s : State) : (s.raiseError r).rdata = s.rdata := rfl
@[simp] theorem State.raiseError_script (r : Report) (s : State) : (s.raiseError r).script = s.script := rfl
@[simp] theorem State.raiseError_turns (r : Report) (s : State) : (s.raiseError r).turns = s.turns := rfl
@[simp] theorem State.raiseError_draws (r : Report) (s : State) : (s.raiseError r).draws = s.draws := rfl

/-! ### Successful completion (R90) -/

@[simp] theorem State.complete_cfg (res : CmdResult) (s : State) : (s.complete res).cfg = s.cfg := rfl
@[simp] theorem State.complete_cmd (res : CmdResult) (s : State) : (s.complete res).cmd = s.cmd := rfl
@[simp] theorem State.complete_status (res : CmdResult) (s : State) : (s.complete res).status = statusOnDone s.status res.warn.isSome := rfl
@[simp] theorem State.complete_err (res : CmdResult) (s : State) : (s.complete res).err = if res.warn.isSome then errWord .pipeline .lengthMismatch else s.err := rfl
@[simp] theorem State.complete_errInfo0 (res : CmdResult) (s : State) : (s.complete res).errInfo0 = match res.warn with | some w => w.1 | none => s.errInfo0 := rfl
@[simp] theorem State.complete_errInfo1 (res : CmdResult) (s : State) : (s.complete res).errInfo1 = match res.warn with | some w => w.2 | none => s.errInfo1 := rfl
@[simp] theorem State.complete_srcAddr (res : CmdResult) (s : State) : (s.complete res).srcAddr = s.srcAddr := rfl
@[simp] theorem State.complete_srcLen (res : CmdResult) (s : State) : (s.complete res).srcLen = s.srcLen := rfl
@[simp] theorem State.complete_dstAddr (res : CmdResult) (s : State) : (s.complete res).dstAddr = s.dstAddr := rfl
@[simp] theorem State.complete_dstCap (res : CmdResult) (s : State) : (s.complete res).dstCap = s.dstCap := rfl
@[simp] theorem State.complete_auxAddr (res : CmdResult) (s : State) : (s.complete res).auxAddr = s.auxAddr := rfl
@[simp] theorem State.complete_auxLen (res : CmdResult) (s : State) : (s.complete res).auxLen = s.auxLen := rfl
@[simp] theorem State.complete_primaryIndex (res : CmdResult) (s : State) : (s.complete res).primaryIndex = res.primaryIndex.getD s.primaryIndex := rfl
@[simp] theorem State.complete_origLen (res : CmdResult) (s : State) : (s.complete res).origLen = res.origLen.getD s.origLen := rfl
@[simp] theorem State.complete_outLen (res : CmdResult) (s : State) : (s.complete res).outLen = BitVec.ofNat 32 res.out.length := rfl
@[simp] theorem State.complete_latch (res : CmdResult) (s : State) : (s.complete res).latch = s.latch := rfl
@[simp] theorem State.complete_mem (res : CmdResult) (s : State) : (s.complete res).mem = res.commit s.latch s.mem := rfl
@[simp] theorem State.complete_held (res : CmdResult) (s : State) : (s.complete res).held = s.held := rfl
@[simp] theorem State.complete_unseen (res : CmdResult) (s : State) : (s.complete res).unseen = s.before res.regsWritten := rfl
@[simp] theorem State.complete_rdata (res : CmdResult) (s : State) : (s.complete res).rdata = s.rdata := rfl
@[simp] theorem State.complete_script (res : CmdResult) (s : State) : (s.complete res).script = s.script := rfl
@[simp] theorem State.complete_turns (res : CmdResult) (s : State) : (s.complete res).turns = s.turns := rfl
@[simp] theorem State.complete_draws (res : CmdResult) (s : State) : (s.complete res).draws = s.draws := rfl

/-! ### Reset (R300, R301) -/

@[simp] theorem State.resetEvent_cfg (s : State) : (s.resetEvent).cfg = s.cfg := rfl
@[simp] theorem State.resetEvent_cmd (s : State) : (s.resetEvent).cmd = 0 := rfl
@[simp] theorem State.resetEvent_status (s : State) : (s.resetEvent).status = 0 := rfl
@[simp] theorem State.resetEvent_err (s : State) : (s.resetEvent).err = 0 := rfl
@[simp] theorem State.resetEvent_errInfo0 (s : State) : (s.resetEvent).errInfo0 = 0 := rfl
@[simp] theorem State.resetEvent_errInfo1 (s : State) : (s.resetEvent).errInfo1 = 0 := rfl
@[simp] theorem State.resetEvent_srcAddr (s : State) : (s.resetEvent).srcAddr = 0 := rfl
@[simp] theorem State.resetEvent_srcLen (s : State) : (s.resetEvent).srcLen = 0 := rfl
@[simp] theorem State.resetEvent_dstAddr (s : State) : (s.resetEvent).dstAddr = 0 := rfl
@[simp] theorem State.resetEvent_dstCap (s : State) : (s.resetEvent).dstCap = 0 := rfl
@[simp] theorem State.resetEvent_auxAddr (s : State) : (s.resetEvent).auxAddr = 0 := rfl
@[simp] theorem State.resetEvent_auxLen (s : State) : (s.resetEvent).auxLen = 0 := rfl
@[simp] theorem State.resetEvent_primaryIndex (s : State) : (s.resetEvent).primaryIndex = 0 := rfl
@[simp] theorem State.resetEvent_origLen (s : State) : (s.resetEvent).origLen = 0 := rfl
@[simp] theorem State.resetEvent_outLen (s : State) : (s.resetEvent).outLen = 0 := rfl
@[simp] theorem State.resetEvent_latch (s : State) : (s.resetEvent).latch = Latch.zero := rfl
@[simp] theorem State.resetEvent_mem (s : State) : (s.resetEvent).mem = s.memAfterReset := rfl
@[simp] theorem State.resetEvent_held (s : State) : (s.resetEvent).held = [] := rfl
@[simp] theorem State.resetEvent_unseen (s : State) : (s.resetEvent).unseen = [] := rfl
@[simp] theorem State.resetEvent_rdata (s : State) : (s.resetEvent).rdata = s.rdata := rfl
@[simp] theorem State.resetEvent_script (s : State) : (s.resetEvent).script = s.script := rfl
@[simp] theorem State.resetEvent_turns (s : State) : (s.resetEvent).turns = s.turns := rfl
@[simp] theorem State.resetEvent_draws (s : State) : (s.resetEvent).draws = if s.busy then s.draws + 1 else s.draws := rfl

/-! ### A turn used up -/

@[simp] theorem State.takeTurn_cfg (s : State) : (s.takeTurn).cfg = s.cfg := rfl
@[simp] theorem State.takeTurn_cmd (s : State) : (s.takeTurn).cmd = s.cmd := rfl
@[simp] theorem State.takeTurn_status (s : State) : (s.takeTurn).status = s.status := rfl
@[simp] theorem State.takeTurn_err (s : State) : (s.takeTurn).err = s.err := rfl
@[simp] theorem State.takeTurn_errInfo0 (s : State) : (s.takeTurn).errInfo0 = s.errInfo0 := rfl
@[simp] theorem State.takeTurn_errInfo1 (s : State) : (s.takeTurn).errInfo1 = s.errInfo1 := rfl
@[simp] theorem State.takeTurn_srcAddr (s : State) : (s.takeTurn).srcAddr = s.srcAddr := rfl
@[simp] theorem State.takeTurn_srcLen (s : State) : (s.takeTurn).srcLen = s.srcLen := rfl
@[simp] theorem State.takeTurn_dstAddr (s : State) : (s.takeTurn).dstAddr = s.dstAddr := rfl
@[simp] theorem State.takeTurn_dstCap (s : State) : (s.takeTurn).dstCap = s.dstCap := rfl
@[simp] theorem State.takeTurn_auxAddr (s : State) : (s.takeTurn).auxAddr = s.auxAddr := rfl
@[simp] theorem State.takeTurn_auxLen (s : State) : (s.takeTurn).auxLen = s.auxLen := rfl
@[simp] theorem State.takeTurn_primaryIndex (s : State) : (s.takeTurn).primaryIndex = s.primaryIndex := rfl
@[simp] theorem State.takeTurn_origLen (s : State) : (s.takeTurn).origLen = s.origLen := rfl
@[simp] theorem State.takeTurn_outLen (s : State) : (s.takeTurn).outLen = s.outLen := rfl
@[simp] theorem State.takeTurn_latch (s : State) : (s.takeTurn).latch = s.latch := rfl
@[simp] theorem State.takeTurn_mem (s : State) : (s.takeTurn).mem = s.mem := rfl
@[simp] theorem State.takeTurn_held (s : State) : (s.takeTurn).held = s.held := rfl
@[simp] theorem State.takeTurn_unseen (s : State) : (s.takeTurn).unseen = s.unseen := rfl
@[simp] theorem State.takeTurn_rdata (s : State) : (s.takeTurn).rdata = s.rdata := rfl
@[simp] theorem State.takeTurn_script (s : State) : (s.takeTurn).script = s.script := rfl
@[simp] theorem State.takeTurn_turns (s : State) : (s.takeTurn).turns = s.turns.drop 1 := rfl
@[simp] theorem State.takeTurn_draws (s : State) : (s.takeTurn).draws = s.draws := rfl

/-! ### Power-on (R300, R62) -/

@[simp] theorem State.powerOn_cfg (c : Config) (m : Memory) : (State.powerOn c m).cfg = c := rfl
@[simp] theorem State.powerOn_cmd (c : Config) (m : Memory) : (State.powerOn c m).cmd = 0 := rfl
@[simp] theorem State.powerOn_status (c : Config) (m : Memory) : (State.powerOn c m).status = 0 := rfl
@[simp] theorem State.powerOn_err (c : Config) (m : Memory) : (State.powerOn c m).err = 0 := rfl
@[simp] theorem State.powerOn_errInfo0 (c : Config) (m : Memory) : (State.powerOn c m).errInfo0 = 0 := rfl
@[simp] theorem State.powerOn_errInfo1 (c : Config) (m : Memory) : (State.powerOn c m).errInfo1 = 0 := rfl
@[simp] theorem State.powerOn_srcAddr (c : Config) (m : Memory) : (State.powerOn c m).srcAddr = 0 := rfl
@[simp] theorem State.powerOn_srcLen (c : Config) (m : Memory) : (State.powerOn c m).srcLen = 0 := rfl
@[simp] theorem State.powerOn_dstAddr (c : Config) (m : Memory) : (State.powerOn c m).dstAddr = 0 := rfl
@[simp] theorem State.powerOn_dstCap (c : Config) (m : Memory) : (State.powerOn c m).dstCap = 0 := rfl
@[simp] theorem State.powerOn_auxAddr (c : Config) (m : Memory) : (State.powerOn c m).auxAddr = 0 := rfl
@[simp] theorem State.powerOn_auxLen (c : Config) (m : Memory) : (State.powerOn c m).auxLen = 0 := rfl
@[simp] theorem State.powerOn_primaryIndex (c : Config) (m : Memory) : (State.powerOn c m).primaryIndex = 0 := rfl
@[simp] theorem State.powerOn_origLen (c : Config) (m : Memory) : (State.powerOn c m).origLen = 0 := rfl
@[simp] theorem State.powerOn_outLen (c : Config) (m : Memory) : (State.powerOn c m).outLen = 0 := rfl
@[simp] theorem State.powerOn_latch (c : Config) (m : Memory) : (State.powerOn c m).latch = Latch.zero := rfl
@[simp] theorem State.powerOn_mem (c : Config) (m : Memory) : (State.powerOn c m).mem = m := rfl
@[simp] theorem State.powerOn_held (c : Config) (m : Memory) : (State.powerOn c m).held = [] := rfl
@[simp] theorem State.powerOn_unseen (c : Config) (m : Memory) : (State.powerOn c m).unseen = [] := rfl
@[simp] theorem State.powerOn_rdata (c : Config) (m : Memory) : (State.powerOn c m).rdata = 0 := rfl
@[simp] theorem State.powerOn_script (c : Config) (m : Memory) : (State.powerOn c m).script = [] := rfl
@[simp] theorem State.powerOn_turns (c : Config) (m : Memory) : (State.powerOn c m).turns = [] := rfl
@[simp] theorem State.powerOn_draws (c : Config) (m : Memory) : (State.powerOn c m).draws = 0 := rfl

/-! ### Derived reads of the state -/

@[simp] theorem State.takeTurn_busy (s : State) : s.takeTurn.busy = s.busy := rfl
@[simp] theorem State.takeTurn_srcBuf (s : State) : s.takeTurn.srcBuf = s.srcBuf := rfl
@[simp] theorem State.takeTurn_auxBuf (i : Instr) (s : State) : s.takeTurn.auxBuf i = s.auxBuf i := rfl

/-! ### The two branches of a CMD write (R36) -/

@[simp] theorem State.issue_busy {s : State} (w : Word) (h : s.busy = true) : s.issue w = s.ignoreCmd := by
  simp [State.issue, h]

@[simp] theorem State.issue_not_busy {s : State} (w : Word) (h : s.busy = false) : s.issue w = s.accept w := by
  simp [State.issue, h]

/-! ### Observation of a completion (R71, R72) -/

@[simp] theorem State.observe_busy {s : State} (h : s.busy = true) : s.observe = s := by
  simp [State.observe, h]

@[simp] theorem State.observe_not_busy {s : State} (h : s.busy = false) :
    s.observe = { s with held := [], unseen := [] } := by
  simp [State.observe, h]

/-! ### Host reads of a register (R71, R307) -/

theorem State.hostReadReg_status (s : State) : s.hostReadReg .status = { s.observe with rdata := s.status } := rfl

theorem State.hostReadReg_synchronised {s : State} {r : RegName} (hr : r ≠ .status) (h : s.unseen.lookup r = none) :
    s.hostReadReg r = { s with rdata := s.reg r } := by
  cases r <;> first | exact absurd rfl hr | simp only [State.hostReadReg, h]

/-- A read the host has not synchronised with gives the new value or the one before, and draws one free value (log 8). -/
theorem State.hostReadReg_unsynchronised {s : State} {r : RegName} {old : Word} (hr : r ≠ .status)
    (h : s.unseen.lookup r = some old) :
    ∃ v, (v = s.reg r ∨ v = old) ∧ s.hostReadReg r = { s with rdata := v, draws := s.draws + 1 } := by
  refine ⟨if Config.seesCompletion s.draws then s.reg r else old, ?_, ?_⟩
  · split
    · exact .inl rfl
    · exact .inr rfl
  · cases r <;> first | exact absurd rfl hr | simp only [State.hostReadReg, h]

/-! ### What an ending leaves unsynchronised (log 8) -/

/-- Each register an ending writes is kept with its value before the ending. -/
theorem State.before_lookup (s : State) {written : List RegName} {r : RegName} (h : r ∈ written) :
    (s.before written).lookup r = some (s.reg r) := by
  induction written with
  | nil => simp at h
  | cons q qs ih =>
    simp only [State.before, List.map_cons, List.lookup]
    split
    · next hq => rw [eq_of_beq hq]
    · next hq => exact ih (by simpa [ne_of_beq_false hq] using h)

theorem State.mem_before {s : State} {written : List RegName} {e : RegName × Word} (h : e ∈ s.before written) :
    e.1 ∈ written ∧ e.2 = s.reg e.1 := by
  simp only [State.before, List.mem_map] at h
  obtain ⟨r, hr, rfl⟩ := h
  exact ⟨hr, rfl⟩

/-! ### The memory after a reset (R41, R301) -/

@[simp] theorem State.memAfterReset_not_busy {s : State} (h : s.busy = false) : s.memAfterReset = s.mem := by
  simp [State.memAfterReset, h]

end Sys2Proof.Machine
end

