-- ==== Sys2Proof/Laws/Memory.lean ====
section
/-! SUPPORT. The buffer memory (R60, R65, R66): read after write, writes leave every other byte alone, every operation keeps
the canonical form and stays inside the memory, and canonical memories with the same bytes are equal. -/

namespace Sys2Proof.Machine

/-! ### Looking up an address -/

theorem lookup_eq_none {m : Memory} {a : Nat} (h : ∀ c ∈ m, c.1 ≠ a) : m.lookup a = none := by
  induction m with
  | nil => rfl
  | cons c m ih =>
    have hc : (a == c.1) = false := by simpa using (h c (by simp)).symm
    simp only [List.lookup, hc]
    exact ih (fun d hd => h d (by simp [hd]))

theorem lookup_filter_of_true {p : Nat → Bool} {a : Nat} (ha : p a = true) (m : Memory) :
    (m.filter (fun c => p c.1)).lookup a = m.lookup a := by
  induction m with
  | nil => rfl
  | cons c m ih =>
    by_cases hc : a = c.1
    · subst hc; simp [List.filter, ha, List.lookup]
    · have hb : (a == c.1) = false := by simpa using hc
      cases hp : p c.1 <;> simp [List.filter, hp, List.lookup, hb, ih]

theorem lookup_filter_of_false {p : Nat → Bool} {a : Nat} (ha : p a = false) (m : Memory) :
    (m.filter (fun c => p c.1)).lookup a = none := by
  refine lookup_eq_none fun c hc => ?_
  rintro rfl
  simp [ha] at hc

theorem lookup_append (m n : Memory) (a : Nat) : (m ++ n).lookup a = (m.lookup a).or (n.lookup a) := by
  induction m with
  | nil => simp
  | cons c m ih =>
    cases hb : (a == c.1) <;> simp [List.lookup, hb, ih]

/-! ### The entries of a buffer -/

theorem mem_cellsOf {c : Host.Cell} {a : Nat} {v : Buffer} (h : c ∈ cellsOf a v) :
    a ≤ c.1 ∧ c.1 < a + v.length ∧ c.2 ≠ unlistedByte := by
  induction v generalizing a with
  | nil => simp [cellsOf] at h
  | cons b v ih =>
    simp only [cellsOf] at h
    split at h
    · obtain ⟨h1, h2, h3⟩ := ih h
      exact ⟨by omega, by simp; omega, h3⟩
    · rcases List.mem_cons.mp h with rfl | h
      · exact ⟨by simp, by simp, by simpa⟩
      · obtain ⟨h1, h2, h3⟩ := ih h
        exact ⟨by omega, by simp; omega, h3⟩

theorem cellsOf_pairwise (a : Nat) (v : Buffer) : (cellsOf a v).Pairwise (fun c d => c.1 < d.1) := by
  induction v generalizing a with
  | nil => simp [cellsOf]
  | cons b v ih =>
    simp only [cellsOf]
    split
    · exact ih _
    · exact List.pairwise_cons.mpr ⟨fun d hd => (mem_cellsOf hd).1, ih _⟩

theorem lookup_cellsOf (a i : Nat) (v : Buffer) :
    ((cellsOf a v).lookup (a + i)).getD unlistedByte = v.getD i unlistedByte := by
  induction v generalizing a i with
  | nil => simp [cellsOf]
  | cons b v ih =>
    cases i with
    | zero =>
      simp only [cellsOf]
      split
      · next hb =>
        rw [lookup_eq_none (fun c hc => by have := (mem_cellsOf hc).1; omega)]
        simp [hb]
      · simp [List.lookup]
    | succ i =>
      have hne : (a + (i + 1) == a) = false := by simp
      have hi : a + (i + 1) = a + 1 + i := by omega
      simp only [cellsOf]
      split
      · rw [hi, ih]; simp
      · simp only [List.lookup, hne]; rw [hi, ih]; simp

/-! ### Read after write -/

@[simp] theorem Memory.read_nil (a : Nat) : Memory.read [] a = unlistedByte := rfl

/-- Inside the written bytes a read gives the byte written. -/
theorem Memory.read_write_inside (m : Memory) {a x : Nat} {v : Buffer} (h1 : a ≤ x) (h2 : x < a + v.length) :
    (m.write a v).read x = v.getD (x - a) unlistedByte := by
  obtain ⟨i, rfl⟩ := Nat.exists_eq_add_of_le h1
  simp only [Memory.read, Memory.write, lookup_append]
  rw [lookup_filter_of_false (p := fun y => decide (y < a)) (by simp)]
  rw [lookup_filter_of_false (p := fun y => decide (a + v.length ≤ y)) (by simp; omega)]
  simpa using lookup_cellsOf a i v

/-- Outside the written bytes a read gives what it gave before. -/
theorem Memory.read_write_outside (m : Memory) {a x : Nat} {v : Buffer} (h : x < a ∨ a + v.length ≤ x) :
    (m.write a v).read x = m.read x := by
  have hc : (cellsOf a v).lookup x = none :=
    lookup_eq_none fun c hc => by have := mem_cellsOf hc; omega
  simp only [Memory.read, Memory.write, lookup_append, hc]
  rcases h with h | h
  · rw [lookup_filter_of_true (p := fun y => decide (y < a)) (by simpa),
      lookup_filter_of_false (p := fun y => decide (a + v.length ≤ y)) (by simp; omega)]
    simp
  · rw [lookup_filter_of_false (p := fun y => decide (y < a)) (by simp; omega),
      lookup_filter_of_true (p := fun y => decide (a + v.length ≤ y)) (by simpa)]
    simp

@[simp] theorem Memory.readBuf_length (m : Memory) (a n : Nat) : (m.readBuf a n).length = n := by
  simp [Memory.readBuf]

theorem Memory.readBuf_getD (m : Memory) {a n i : Nat} (h : i < n) : (m.readBuf a n).getD i 0 = m.read (a + i) := by
  simp [Memory.readBuf, List.getD, h]

/-- A buffer read back where it was written. -/
theorem Memory.readBuf_write_same (m : Memory) (a : Nat) (v : Buffer) :
    (m.write a v).readBuf a v.length = v := by
  refine List.ext_getElem (by simp) fun i h1 h2 => ?_
  simp only [Memory.readBuf, List.getElem_map, List.getElem_range]
  rw [Memory.read_write_inside m (by omega) (by omega)]
  simp [List.getD, h2]

/-- A buffer read outside the written bytes. -/
theorem Memory.readBuf_write_outside (m : Memory) {a b n : Nat} {v : Buffer}
    (h : b + n ≤ a ∨ a + v.length ≤ b) : (m.write a v).readBuf b n = m.readBuf b n := by
  refine List.map_congr_left fun i hi => ?_
  have := List.mem_range.mp hi
  exact Memory.read_write_outside m (by omega)

/-! ### The canonical form -/

theorem Memory.wf_nil : Memory.wf [] := by simp [Memory.wf]

/-- A write keeps the canonical form. -/
theorem Memory.wf_write {m : Memory} (h : m.wf) (a : Nat) (v : Buffer) : (m.write a v).wf := by
  obtain ⟨hp, hz⟩ := h
  refine ⟨?_, fun c hc => ?_⟩
  · simp only [Memory.write, List.pairwise_append]
    refine ⟨⟨hp.filter _, cellsOf_pairwise a v, fun c hc d hd => ?_⟩, hp.filter _, fun c hc d hd => ?_⟩
    · have h1 := List.mem_filter.mp hc; have h2 := mem_cellsOf hd
      simp at h1; omega
    · have h2 := List.mem_filter.mp hd
      rcases List.mem_append.mp hc with hc | hc
      · have h1 := List.mem_filter.mp hc; simp at h1 h2; omega
      · have h1 := mem_cellsOf hc; simp at h2; omega
  · simp only [Memory.write, List.mem_append] at hc
    rcases hc with (hc | hc) | hc
    · exact hz c (List.mem_of_mem_filter hc)
    · exact (mem_cellsOf hc).2.2
    · exact hz c (List.mem_of_mem_filter hc)

/-- A write inside the memory lists only addresses that exist. -/
theorem Memory.inside_write {n : Nat} {m : Memory} (h : m.inside n) {a : Nat} {v : Buffer}
    (ha : v = [] ∨ a + v.length ≤ n) : (m.write a v).inside n := by
  intro c hc
  simp only [Memory.write, List.mem_append] at hc
  rcases hc with (hc | hc) | hc
  · exact h c (List.mem_of_mem_filter hc)
  · have := mem_cellsOf hc
    rcases ha with rfl | ha
    · simp at this; omega
    · omega
  · exact h c (List.mem_of_mem_filter hc)

theorem Memory.wf_abandon {m : Memory} (h : m.wf) (n draw : Nat) (r : HeldRegion) : (m.abandon n draw r).wf :=
  Memory.wf_write h _ _

theorem Memory.inside_abandon {n : Nat} {m : Memory} (h : m.inside n) (draw : Nat) (r : HeldRegion) :
    (Memory.abandon n draw m r).inside n := by
  refine Memory.inside_write h ?_
  by_cases hr : r.address.toNat ≤ n
  · exact .inr (by simp; omega)
  · left; simp; omega

/-- An abandoned region leaves every byte outside it alone. -/
theorem Memory.read_abandon_outside (n draw : Nat) (m : Memory) (r : HeldRegion) {x : Nat}
    (h : inRegion r.address r.len x = false) : (Memory.abandon n draw m r).read x = m.read x := by
  refine Memory.read_write_outside m ?_
  simp [inRegion] at h
  simp
  omega

/-- An existing byte of an abandoned region reads as the free value drawn for it (R301, log 7). -/
theorem Memory.read_abandon_inside (draw : Nat) (m : Memory) (r : HeldRegion) {n x : Nat}
    (h : inRegion r.address r.len x = true) (hx : x < n) :
    (Memory.abandon n draw m r).read x = Config.abandonedByte draw x := by
  simp only [inRegion, Bool.and_eq_true, decide_eq_true_eq] at h
  obtain ⟨k, rfl⟩ := Nat.exists_eq_add_of_le h.1
  have hk : k < min r.len.toNat (n - r.address.toNat) := by omega
  simp [Memory.abandon, Memory.read_write_inside, hk, List.getD]

/-- The value of the first listed byte of a canonical memory is found by reading its address. -/
theorem Memory.read_eq_of_mem {m : Memory} (h : m.wf) {c : Host.Cell} (hc : c ∈ m) : m.read c.1 = c.2 := by
  induction m with
  | nil => simp at hc
  | cons d m ih =>
    obtain ⟨hp, hz⟩ := h
    have hd := List.pairwise_cons.mp hp
    rcases List.mem_cons.mp hc with rfl | hc
    · simp [Memory.read, List.lookup]
    · have hne : (c.1 == d.1) = false := by have := hd.1 c hc; simp; omega
      have := ih ⟨hd.2, fun e he => hz e (by simp [he])⟩ hc
      simpa [Memory.read, List.lookup, hne] using this

theorem Memory.mem_of_read_ne {m : Memory} {a : Nat} (h : m.read a ≠ unlistedByte) : (a, m.read a) ∈ m := by
  induction m with
  | nil => simp at h
  | cons d m ih =>
    cases hb : (a == d.1) with
    | true =>
      have : a = d.1 := by simpa using hb
      subst this; simp [Memory.read, List.lookup]
    | false =>
      have hr : Memory.read (d :: m) a = Memory.read m a := by simp [Memory.read, List.lookup, hb]
      rw [hr] at h ⊢
      exact List.mem_cons_of_mem _ (ih h)

/-- Canonical memories with the same bytes are equal data. -/
theorem Memory.ext_of_read {m n : Memory} (hm : m.wf) (hn : n.wf) (h : ∀ a, m.read a = n.read a) : m = n := by
  have sub : ∀ {m n : Memory}, m.wf → (∀ a, m.read a = n.read a) → ∀ c ∈ m, c ∈ n := by
    intro m n hm h c hc
    have hr := Memory.read_eq_of_mem hm hc
    have := Memory.mem_of_read_ne (m := n) (a := c.1) (by rw [← h, hr]; exact hm.2 c hc)
    rwa [← h, hr] at this
  have hmn : m.Nodup := hm.1.imp (fun h => by rintro rfl; omega)
  have hnn : n.Nodup := hn.1.imp (fun h => by rintro rfl; omega)
  have hperm : m.Perm n :=
    (List.perm_ext_iff_of_nodup hmn hnn).mpr fun c => ⟨sub hm h c, sub hn (fun a => (h a).symm) c⟩
  refine hperm.eq_of_pairwise (le := fun c d : Host.Cell => c.1 < d.1) (fun c d _ _ h1 h2 => ?_) hm.1 hn.1
  omega

/-- Reset's memory is canonical and inside. -/
theorem reset_mem_wf : State.reset.mem.wf ∧ State.reset.mem.inside State.reset.cfg.memBytes := by
  simp [State.reset, Memory.wf, Memory.inside]

end Sys2Proof.Machine
end

