-- ==== Sys2Proof/Laws/Frame.lean ====
section
/-! SUPPORT. The command frame (R90): what passes its checks, what an execution can end in, and STATUS after each ending. -/

namespace Sys2Proof.Machine

/-! ### Checks -/

theorem bind_eq_ok {ε α β : Type} {x : Except ε α} {f : α → Except ε β} {b : β} :
    (x >>= f) = .ok b ↔ ∃ a, x = .ok a ∧ f a = .ok b := by
  cases x <;> simp [bind, Except.bind]

theorem bind_eq_error {ε α β : Type} {x : Except ε α} {f : α → Except ε β} {e : ε} :
    (x >>= f) = .error e ↔ x = .error e ∨ ∃ a, x = .ok a ∧ f a = .error e := by
  cases x <;> simp [bind, Except.bind]

@[simp] theorem pure_eq_ok {ε α : Type} (a : α) : (pure a : Except ε α) = .ok a := rfl

@[simp] theorem failIf_eq_ok {bad : Bool} {code : ErrCode} {stage : Stage} {i0 i1 : Word} {u : Unit} :
    failIf bad code stage i0 i1 = .ok u ↔ bad = false := by
  cases bad <;> simp [failIf]

@[simp] theorem failIf_eq_error {bad : Bool} {code : ErrCode} {stage : Stage} {i0 i1 : Word} {r : Report} :
    failIf bad code stage i0 i1 = .error r ↔ bad = true ∧ r = ⟨code, stage, i0, i1⟩ := by
  cases bad <;> simp [failIf, eq_comm]

/-- An allocation succeeds exactly when the length is at most `SCRATCH_LEN` (R11, R17). -/
@[simp] theorem alloc_eq_ok {scratch len : Nat} {stage : Stage} {u : Unit} :
    alloc scratch stage len = .ok u ↔ len ≤ scratch := by
  simp only [alloc]; split <;> simp <;> omega

@[simp] theorem alloc_eq_error {scratch len : Nat} {stage : Stage} {r : Report} :
    alloc scratch stage len = .error r ↔
      scratch < len ∧ r = ⟨.allocationFailure, stage, sat32 len, sat32 scratch⟩ := by
  simp only [alloc]; split <;> simp_all [eq_comm]

/-- The regions a command uses are all valid (R61). -/
def RegionsValid (i : Instr) (memBytes : Nat) (l : Latch) : Prop :=
  l.srcAddr.toNat + l.srcLen.toNat ≤ memBytes ∧ l.dstAddr.toNat + l.dstCap.toNat ≤ memBytes ∧
    ((auxUse i).isSome → l.auxAddr.toNat + l.auxLen.toNat ≤ memBytes)

theorem regionChecks_eq_ok {i : Instr} {n : Nat} {l : Latch} {u : Unit} :
    regionChecks i n l = .ok u ↔ RegionsValid i n l := by
  simp [regionChecks, bind_eq_ok, RegionsValid, regionValid]

/-- The capacity checks pass exactly when the output fits DST and, for PIPE_ENC, the metadata record fits AUX (R90). -/
theorem capacityChecks_eq_ok {i : Instr} {l : Latch} {res : CmdResult} {u : Unit} :
    capacityChecks i l res = .ok u ↔
      res.out.length ≤ l.dstCap.toNat ∧ (auxUse i = some .output → 8 ≤ l.auxLen.toNat) := by
  simp [capacityChecks, bind_eq_ok]

/-! ### The frame -/

/-- What makes a command succeed: its regions are valid, its input fits the scratch, its own function gives the result, and
the result fits (R90, R273). -/
theorem frameResult_eq_ok {i : Instr} {body : CmdBody} {s : State} {res : CmdResult} :
    frameResult i body s = .ok res ↔
      RegionsValid i s.cfg.memBytes s.latch ∧ s.latch.srcLen.toNat ≤ s.cfg.scratchLen ∧
      body s.cfg.scratchLen s.srcBuf (s.auxBuf i) s.latch = .ok res ∧
      res.out.length ≤ s.latch.dstCap.toNat ∧ (auxUse i = some .output → 8 ≤ s.latch.auxLen.toNat) := by
  simp only [frameResult, bind_eq_ok, regionChecks_eq_ok, capacityChecks_eq_ok, alloc_eq_ok, pure_eq_ok,
    Except.ok.injEq]
  constructor
  · rintro ⟨_, h1, _, h2, _, h3, _, h4, rfl⟩
    exact ⟨h1, h2, h3, h4⟩
  · rintro ⟨h1, h2, h3, h4⟩
    exact ⟨(), h1, (), h2, res, h3, (), h4, rfl⟩

/-- The one error a command reports is one of the frame's or its own (R273). -/
theorem frameResult_eq_error {i : Instr} {body : CmdBody} {s : State} {r : Report} :
    frameResult i body s = .error r ↔
      regionChecks i s.cfg.memBytes s.latch = .error r ∨
      (RegionsValid i s.cfg.memBytes s.latch ∧
        (alloc s.cfg.scratchLen (stageOf i) s.latch.srcLen.toNat = .error r ∨
        (s.latch.srcLen.toNat ≤ s.cfg.scratchLen ∧
          (body s.cfg.scratchLen s.srcBuf (s.auxBuf i) s.latch = .error r ∨
          ∃ res, body s.cfg.scratchLen s.srcBuf (s.auxBuf i) s.latch = .ok res ∧
            capacityChecks i s.latch res = .error r)))) := by
  simp only [frameResult, bind_eq_error, regionChecks_eq_ok, alloc_eq_ok, pure_eq_ok, reduceCtorEq, and_false,
    exists_false, or_false]
  constructor
  · rintro (h | ⟨_, h1, h | ⟨_, h2, h⟩⟩)
    · exact .inl h
    · exact .inr ⟨h1, .inl h⟩
    · exact .inr ⟨h1, .inr ⟨h2, h⟩⟩
  · rintro (h | ⟨h1, h | ⟨h2, h⟩⟩)
    · exact .inl h
    · exact .inr ⟨(), h1, .inl h⟩
    · exact .inr ⟨(), h1, .inr ⟨(), h2, h⟩⟩

theorem execute_of_ok {i : Instr} {body : CmdBody} {s : State} {res : CmdResult}
    (h : frameResult i body s = .ok res) : execute i body s = .next (s.complete res) := by
  simp [execute, h]

theorem execute_of_error {i : Instr} {body : CmdBody} {s : State} {r : Report}
    (h : frameResult i body s = .error r) : execute i body s = .next (s.raiseError r) := by
  simp [execute, h]

/-- An execution always answers a next state: a completion or an error entry (R37, R271). -/
theorem execute_cases (i : Instr) (body : CmdBody) (s : State) :
    (∃ res, frameResult i body s = .ok res ∧ execute i body s = .next (s.complete res)) ∨
    (∃ r, frameResult i body s = .error r ∧ execute i body s = .next (s.raiseError r)) := by
  cases h : frameResult i body s with
  | ok res => exact .inl ⟨res, rfl, execute_of_ok h⟩
  | error r => exact .inr ⟨r, rfl, execute_of_error h⟩

/-- The function of each command (R90: `OP_[op]`). -/
def bodyOf : Instr → CmdBody
  | .saBuild => opSaBuild
  | .bwtEnc => opBwtEnc
  | .bwtDec => opBwtDec
  | .mtfEnc => opMtfEnc
  | .mtfDec => opMtfDec
  | .rleEnc => opRleEnc
  | .rleDec => opRleDec
  | .hufCodes => opHufCodes
  | .hufEnc => opHufEnc
  | .hufDec => opHufDec
  | .pipeEnc => opPipeEnc
  | .pipeDec => opPipeDec

/-- Every meaning is the frame over the command's function. -/
theorem exec_eq_execute (i : Instr) (s : State) : exec i s = execute i (bodyOf i) s := by
  cases i <;> rfl

/-! ### STATUS after each ending (R23, R36, R90, R271) -/

@[simp] theorem State.accept_busy (w : Word) (s : State) : (s.accept w).busy = true := by
  simp [State.busy, statusOnAccept, statusBusy]

@[simp] theorem State.complete_busy (res : CmdResult) (s : State) : (s.complete res).busy = false := by
  cases h : res.warn.isSome <;>
    simp [State.busy, statusOnDone, statusDone, statusWarn, statusOverrun, h]

@[simp] theorem State.complete_done (res : CmdResult) (s : State) : (s.complete res).done = true := by
  cases h : res.warn.isSome <;>
    simp [State.done, statusOnDone, statusDone, statusWarn, statusOverrun, h]

@[simp] theorem State.complete_error (res : CmdResult) (s : State) : (s.complete res).error = false := by
  cases h : res.warn.isSome <;>
    simp [State.error, statusOnDone, statusDone, statusWarn, statusOverrun, h]

@[simp] theorem State.complete_warned (res : CmdResult) (s : State) :
    (s.complete res).warned = res.warn.isSome := by
  cases h : res.warn.isSome <;>
    simp [State.warned, statusOnDone, statusDone, statusWarn, statusOverrun, h]

@[simp] theorem State.complete_overrun (res : CmdResult) (s : State) : (s.complete res).overrun = s.overrun := by
  cases h : res.warn.isSome <;>
    simp [State.overrun, statusOnDone, statusDone, statusWarn, statusOverrun, h]

@[simp] theorem State.raiseError_busy (r : Report) (s : State) : (s.raiseError r).busy = false := by
  simp [State.busy, statusOnError, statusError, statusOverrun]

@[simp] theorem State.raiseError_done (r : Report) (s : State) : (s.raiseError r).done = false := by
  simp [State.done, statusOnError, statusError, statusOverrun]

@[simp] theorem State.raiseError_error (r : Report) (s : State) : (s.raiseError r).error = true := by
  simp [State.error, statusOnError, statusError, statusOverrun]

@[simp] theorem State.raiseError_warned (r : Report) (s : State) : (s.raiseError r).warned = false := by
  simp [State.warned, statusOnError, statusError, statusOverrun]

@[simp] theorem State.raiseError_overrun (r : Report) (s : State) : (s.raiseError r).overrun = s.overrun := by
  simp [State.overrun, statusOnError, statusError, statusOverrun]

@[simp] theorem State.resetEvent_busy (s : State) : s.resetEvent.busy = false := by
  simp [State.busy]

@[simp] theorem State.ignoreCmd_busy (s : State) : s.ignoreCmd.busy = s.busy := by
  simp [State.busy, statusOnIgnoredWrite, statusOverrun]

@[simp] theorem State.ignoreCmd_overrun (s : State) : s.ignoreCmd.overrun = true := by
  simp [State.overrun, statusOnIgnoredWrite, statusOverrun]

end Sys2Proof.Machine
end

