-- ==== Sys2Proof/Laws/Step.lean ====
section
/-! SUPPORT. What one step can do (R37, R38, R300): said once for the step and once for the host's statements. -/

namespace Sys2Proof.Machine

theorem step_of_engine {s : State} (h : s.nextTurn = .engine) : step s = engineStep s.takeTurn := by
  simp [step, h]

theorem step_of_host {s : State} (h : s.nextTurn = .host) : step s = hostStep s.takeTurn := by
  simp [step, h]

theorem step_of_reset {s : State} (h : s.nextTurn = .reset) : step s = .next s.takeTurn.resetEvent := by
  simp [step, h]

theorem engineStep_idle {s : State} (h : s.busy = false) : engineStep s = .next s := by
  simp [engineStep, h]

theorem engineStep_legal {s : State} {i : Instr} (h : s.busy = true) (hd : decode s.latch.cmd = .ok i) :
    engineStep s = exec i s := by
  simp [engineStep, h, hd]

theorem engineStep_illegal {s : State} {e : DecodeError} (h : s.busy = true) (hd : decode s.latch.cmd = .error e) :
    engineStep s = .next (s.raiseError ⟨.illegalCmd, .frame, s.latch.cmd, 0⟩) := by
  simp [engineStep, h, hd, executeIllegal]

/-- Everything the engine's step can end in: nothing to do, a completion, or an error entry. -/
theorem engineStep_cases (s : State) :
    (s.busy = false ∧ engineStep s = .next s) ∨
    (s.busy = true ∧ ∃ i res, decode s.latch.cmd = .ok i ∧ frameResult i (bodyOf i) s = .ok res ∧
      engineStep s = .next (s.complete res)) ∨
    (s.busy = true ∧ ∃ i r, decode s.latch.cmd = .ok i ∧ frameResult i (bodyOf i) s = .error r ∧
      engineStep s = .next (s.raiseError r)) ∨
    (s.busy = true ∧ ∃ e, decode s.latch.cmd = .error e ∧
      engineStep s = .next (s.raiseError ⟨.illegalCmd, .frame, s.latch.cmd, 0⟩)) := by
  cases hb : s.busy with
  | false => exact .inl ⟨rfl, engineStep_idle hb⟩
  | true =>
    cases hd : decode s.latch.cmd with
    | error e => exact .inr (.inr (.inr ⟨rfl, e, rfl, engineStep_illegal hb hd⟩))
    | ok i =>
      have he := (engineStep_legal hb hd).trans (exec_eq_execute i s)
      rcases execute_cases i (bodyOf i) s with ⟨res, hf, hx⟩ | ⟨r, hf, hx⟩
      · exact .inr (.inl ⟨rfl, i, res, rfl, hf, he.trans hx⟩)
      · exact .inr (.inr (.inl ⟨rfl, i, r, rfl, hf, he.trans hx⟩))

/-- Everything a host statement can do when it answers a next state: a register write, a write to a reserved offset, a
register read, a read of a reserved offset, a byte write, a byte read, or a poll (R34, R60, R72, R101, R102). -/
theorem hostOp_cases {op : HostOp} {s t : State} (h : hostOp op s = .next t) :
    (∃ r v, t = s.hostWriteReg v r) ∨ t = s ∨ (∃ r, t = s.hostReadReg r) ∨ t = { s with rdata := 0 } ∨
    (∃ a v, a < s.cfg.memBytes ∧ hostMayNotWrite s.held a = false ∧ t = { s with mem := s.mem.write a [v] }) ∨
    (∃ a, a < s.cfg.memBytes ∧ hostMayNotRead s.held a = false ∧ t = { s with rdata := (s.mem.read a).setWidth 32 }) ∨
    t = { s.hostReadReg .status with script := if s.busy then .wait :: s.script else s.script } := by
  cases op with
  | regWrite width address v =>
    simp only [hostOp, hostRegWrite] at h
    split at h
    · cases h
    · split at h <;> cases h
      · exact .inl ⟨_, _, rfl⟩
      · exact .inr (.inl rfl)
  | regRead width address =>
    simp only [hostOp, hostRegRead] at h
    split at h
    · cases h
    · split at h <;> cases h
      · exact .inr (.inr (.inl ⟨_, rfl⟩))
      · exact .inr (.inr (.inr (.inl rfl)))
  | memWrite a v =>
    simp only [hostOp, hostMemWrite] at h
    split at h
    · cases h
    · next ha =>
      split at h
      · cases h
      · next hw => cases h; exact .inr (.inr (.inr (.inr (.inl ⟨_, _, by omega, by simpa using hw, rfl⟩))))
  | memRead a =>
    simp only [hostOp, hostMemRead] at h
    split at h
    · cases h
    · next ha =>
      split at h
      · cases h
      · next hw => cases h; exact .inr (.inr (.inr (.inr (.inr (.inl ⟨_, by omega, by simpa using hw, rfl⟩)))))
  | wait =>
    simp only [hostOp, hostWait, Host.Outcome.next.injEq] at h
    exact .inr (.inr (.inr (.inr (.inr (.inr h.symm)))))

/-- The host's step when it answers a next state: nothing to do, or the head of its script. -/
theorem hostStep_cases {s t : State} (h : hostStep s = .next t) :
    (s.script = [] ∧ t = s) ∨ ∃ op rest, s.script = op :: rest ∧ hostOp op { s with script := rest } = .next t := by
  simp only [hostStep] at h
  split at h
  · next hs => cases h; exact .inl ⟨hs, rfl⟩
  · next op rest hs => exact .inr ⟨op, rest, hs, h⟩

/-- One step, when it answers a next state, is the engine's, the host's or a reset. -/
theorem step_cases {s t : State} (h : step s = .next t) :
    (s.nextTurn = .engine ∧ engineStep s.takeTurn = .next t) ∨
    (s.nextTurn = .host ∧ hostStep s.takeTurn = .next t) ∨
    (s.nextTurn = .reset ∧ t = s.takeTurn.resetEvent) := by
  cases hn : s.nextTurn with
  | engine => exact .inl ⟨rfl, by rwa [step_of_engine hn] at h⟩
  | host => exact .inr (.inl ⟨rfl, by rwa [step_of_host hn] at h⟩)
  | reset =>
    rw [step_of_reset hn] at h
    cases h
    exact .inr (.inr ⟨rfl, rfl⟩)

end Sys2Proof.Machine
end

