-- ==== Sys2Proof/Laws/Commands.lean ====
section
/-! SUPPORT. One lemma per command's function: exactly when it gives a result, and which; and which errors it can raise
(R270, R273). -/

namespace Sys2Proof.Machine

variable {scratch : Nat} {src aux : Buffer} {l : Latch} {res : CmdResult} {r : Report}

@[simp] theorem throw_eq_error {ε α : Type} (e : ε) : (throw e : Except ε α) = .error e := rfl

/-! ### Results -/

theorem opSaBuild_eq_ok :
    opSaBuild scratch src aux l = .ok res ↔ src.length ≤ scratch ∧ res = { out := saRecord (suffixArray src) } := by
  simp [opSaBuild, bind_eq_ok, @eq_comm CmdResult _ res]

theorem opBwtEnc_eq_ok :
    opBwtEnc scratch src aux l = .ok res ↔ src.length ≤ scratch ∧
      res = { out := (bwtEncode src).1, primaryIndex := some (BitVec.ofNat 32 (bwtEncode src).2) } := by
  simp [opBwtEnc, bind_eq_ok, @eq_comm CmdResult _ res]

/-- The primary index is in range: signed, and only for a nonempty buffer (R144). -/
theorem primaryRangeCheck_eq_ok {p : Word} {n : Nat} {u : Unit} :
    primaryRangeCheck p n = .ok u ↔ (0 < n → 0 ≤ p.toInt ∧ p.toInt < (n : Int)) := by
  simp only [primaryRangeCheck, failIf_eq_ok, Bool.and_eq_false_iff, Bool.or_eq_false_iff, decide_eq_false_iff_not]
  omega

theorem opBwtDec_eq_ok :
    opBwtDec scratch src aux l = .ok res ↔
      (0 < src.length → 0 ≤ l.primaryIndex.toInt ∧ l.primaryIndex.toInt < (src.length : Int)) ∧
      src.length ≤ scratch ∧ res = { out := bwtDecode src l.primaryIndex.toNat } := by
  simp [opBwtDec, bind_eq_ok, primaryRangeCheck_eq_ok, @eq_comm CmdResult _ res]

@[simp] theorem emptyCheck_eq_ok {stage : Stage} {u : Unit} : emptyCheck stage src = .ok u ↔ src ≠ [] := by
  simp [emptyCheck]

theorem opMtfEnc_eq_ok :
    opMtfEnc scratch src aux l = .ok res ↔ src ≠ [] ∧ src.length ≤ scratch ∧ res = { out := mtfEncode src } := by
  simp [opMtfEnc, bind_eq_ok, @eq_comm CmdResult _ res]

theorem opMtfDec_eq_ok :
    opMtfDec scratch src aux l = .ok res ↔ src ≠ [] ∧ src.length ≤ scratch ∧ res = { out := mtfDecode src } := by
  simp [opMtfDec, bind_eq_ok, @eq_comm CmdResult _ res]

theorem opRleEnc_eq_ok :
    opRleEnc scratch src aux l = .ok res ↔ 2 * src.length ≤ l.dstCap.toNat ∧ 2 * src.length ≤ scratch ∧
      res = { out := rleEncode src } := by
  simp [opRleEnc, bind_eq_ok, @eq_comm CmdResult _ res]

@[simp] theorem rleOddCheck_eq_ok {u : Unit} : rleOddCheck src = .ok u ↔ src.length % 2 = 0 := by
  simp [rleOddCheck]

theorem opRleDec_eq_ok :
    opRleDec scratch src aux l = .ok res ↔ src.length % 2 = 0 ∧ rleTotal src ≤ scratch ∧
      res = { out := rleDecode src } := by
  simp [opRleDec, bind_eq_ok, @eq_comm CmdResult _ res]

@[simp] theorem tableCheck_eq_ok {stage : Stage} {u : Unit} : tableCheck stage src = .ok u ↔ 1024 ≤ src.length := by
  simp [tableCheck]

theorem opHufCodes_eq_ok :
    opHufCodes scratch src aux l = .ok res ↔ 1024 ≤ src.length ∧
      res = { out := codeRecord (codeTable (readFreqs src)) } := by
  simp [opHufCodes, bind_eq_ok, @eq_comm CmdResult _ res]

theorem opHufEnc_eq_ok :
    opHufEnc scratch src aux l = .ok res ↔ payloadLength (freqOf src) ≤ scratch ∧ res = { out := huffEncode src } := by
  simp [opHufEnc, bind_eq_ok, @eq_comm CmdResult _ res]

theorem opHufDec_eq_ok :
    opHufDec scratch src aux l = .ok res ↔ ∃ out, huffDecode scratch .huffmanDecoder src = .ok out ∧
      res = { out := out } := by
  simp [opHufDec, bind_eq_ok, @eq_comm CmdResult _ res]

/-- When `HuffDecode` gives a buffer: the table is whole, its count fits the scratch, and either there is no tree or the
tree's symbols come out of the bits (R209). -/
theorem huffDecode_eq_ok {stage : Stage} {out : Buffer} :
    huffDecode scratch stage src = .ok out ↔ 1024 ≤ src.length ∧ (readFreqs src).sum ≤ scratch ∧
      ((buildTree (readFreqs src) = none ∧ out = []) ∨
        ∃ root, buildTree (readFreqs src) = some root ∧
          huffEmit root (readFreqs src).sum (unpackBits (src.drop 1024)) = .ok out) := by
  simp only [huffDecode, bind_eq_ok, tableCheck_eq_ok, alloc_eq_ok, exists_const]
  refine and_congr_right fun _ => and_congr_right fun _ => ?_
  cases buildTree (readFreqs src) with
  | none => simp [eq_comm]
  | some root =>
    cases h : huffEmit root (readFreqs src).sum (unpackBits (src.drop 1024)) <;> simp [h]

theorem pipeMtfEncode_eq_ok {out : Buffer} :
    pipeMtfEncode scratch src = .ok out ↔ src.length ≤ scratch ∧ out = mtfEncode src := by
  simp only [pipeMtfEncode]
  split
  · next h => simp at h; subst h; simp [mtfEncode, mtfEncodeFrom, eq_comm]
  · simp [bind_eq_ok, @eq_comm Buffer _ out]

theorem pipeMtfDecode_eq_ok {out : Buffer} :
    pipeMtfDecode scratch src = .ok out ↔ src.length ≤ scratch ∧ out = mtfDecode src := by
  simp only [pipeMtfDecode]
  split
  · next h => simp at h; subst h; simp [mtfDecode, mtfDecodeFrom, eq_comm]
  · simp [bind_eq_ok, @eq_comm Buffer _ out]

theorem opPipeEnc_eq_ok :
    opPipeEnc scratch src aux l = .ok res ↔ src.length ≤ scratch ∧ (bwtEncode src).1.length ≤ scratch ∧
      2 * src.length ≤ scratch ∧ payloadLength (freqOf (forwardStream src)) ≤ scratch ∧
      res = { out := huffEncode (forwardStream src),
              primaryIndex := some (BitVec.ofNat 32 (bwtEncode src).2),
              origLen := some (BitVec.ofNat 32 src.length),
              metadata := some (metadataRecord (BitVec.ofNat 32 (bwtEncode src).2) (BitVec.ofNat 32 src.length)) } := by
  simp only [opPipeEnc, pipeForward, bind_eq_ok, alloc_eq_ok, pipeMtfEncode_eq_ok, pure_eq_ok, Except.ok.injEq,
    exists_const, forwardStream]
  constructor
  · rintro ⟨h1, h, ⟨m, ⟨h2, rfl⟩, h3, h4, rfl⟩, rfl⟩
    exact ⟨h1, h2, h3, h4, rfl⟩
  · rintro ⟨h1, h2, h3, h4, rfl⟩
    exact ⟨h1, _, ⟨_, ⟨h2, rfl⟩, h3, h4, rfl⟩, rfl⟩

@[simp] theorem metadataCheck_eq_ok {u : Unit} : metadataCheck aux = .ok u ↔ 8 ≤ aux.length := by
  simp only [metadataCheck, bind_eq_ok, failIf_eq_ok, decide_eq_false_iff_not, exists_const]; omega

theorem pipeBackward_eq_ok {p : Word} {out : Buffer} :
    pipeBackward scratch src p = .ok out ↔ ∃ r, huffDecode scratch .huffmanDecoder src = .ok r ∧ r.length % 2 = 0 ∧
      rleTotal r ≤ scratch ∧ (rleDecode r).length ≤ scratch ∧
      (0 < (mtfDecode (rleDecode r)).length →
        0 ≤ p.toInt ∧ p.toInt < ((mtfDecode (rleDecode r)).length : Int)) ∧
      (mtfDecode (rleDecode r)).length ≤ scratch ∧ out = bwtDecode (mtfDecode (rleDecode r)) p.toNat := by
  simp only [pipeBackward, bind_eq_ok, rleOddCheck_eq_ok, alloc_eq_ok, pipeMtfDecode_eq_ok, primaryRangeCheck_eq_ok,
    pure_eq_ok, Except.ok.injEq, exists_const]
  constructor
  · rintro ⟨r, h1, h2, h3, b, ⟨h4, rfl⟩, h5, h6, rfl⟩
    exact ⟨r, h1, h2, h3, h4, h5, h6, rfl⟩
  · rintro ⟨r, h1, h2, h3, h4, h5, h6, rfl⟩
    exact ⟨r, h1, h2, h3, _, ⟨h4, rfl⟩, h5, h6, rfl⟩

theorem opPipeDec_eq_ok :
    opPipeDec scratch src aux l = .ok res ↔ 8 ≤ aux.length ∧ ∃ x, pipeBackward scratch src (rdLe32 aux 0) = .ok x ∧
      res = { out := x, primaryIndex := some (rdLe32 aux 0), origLen := some (rdLe32 aux 4),
              warn := lengthWarning x.length (rdLe32 aux 4) } := by
  simp [opPipeDec, bind_eq_ok, @eq_comm CmdResult _ res]

/-! ### Errors -/

theorem primaryRangeCheck_eq_error {p : Word} {n : Nat} (h : primaryRangeCheck p n = .error r) :
    r = ⟨.primaryRange, .bwtDecoder, p, sat32 n⟩ := by
  simp only [primaryRangeCheck, failIf_eq_error] at h
  exact h.2

theorem huffDecode_eq_error {stage : Stage} (h : huffDecode scratch stage src = .error r) :
    r.stage = stage ∧ (r.code = .hufTableTruncated ∨ r.code = .allocationFailure ∨ r.code = .hufBitstreamUnderrun) := by
  simp only [huffDecode, bind_eq_error, tableCheck, failIf_eq_error, alloc_eq_error] at h
  rcases h with ⟨_, rfl⟩ | ⟨_, _, ⟨_, rfl⟩ | ⟨_, _, h⟩⟩
  · simp
  · simp
  · split at h
    · simp at h
    · split at h <;> simp at h
      subst h; simp

/-- The code and stage numbers a command's own function can report (R273 item 4). -/
def ownErrors : Instr → List (ErrCode × Stage)
  | .saBuild => [(.allocationFailure, .suffixArray)]
  | .bwtEnc => [(.allocationFailure, .bwtEncoder)]
  | .bwtDec => [(.primaryRange, .bwtDecoder), (.allocationFailure, .bwtDecoder)]
  | .mtfEnc => [(.emptyInput, .mtfEncoder), (.allocationFailure, .mtfEncoder)]
  | .mtfDec => [(.emptyInput, .mtfDecoder), (.allocationFailure, .mtfDecoder)]
  | .rleEnc => [(.capacityExceeded, .rleEncoder), (.allocationFailure, .rleEncoder)]
  | .rleDec => [(.rleMalformed, .rleDecoder), (.allocationFailure, .rleDecoder)]
  | .hufCodes => [(.hufTableTruncated, .huffmanTree)]
  | .hufEnc => [(.allocationFailure, .huffmanEncoder)]
  | .hufDec => [(.hufTableTruncated, .huffmanDecoder), (.allocationFailure, .huffmanDecoder),
      (.hufBitstreamUnderrun, .huffmanDecoder)]
  | .pipeEnc => [(.allocationFailure, .bwtEncoder), (.allocationFailure, .mtfEncoder),
      (.allocationFailure, .rleEncoder), (.allocationFailure, .huffmanEncoder)]
  | .pipeDec => [(.metadataMissing, .pipeline), (.metadataTruncated, .pipeline), (.hufTableTruncated, .huffmanDecoder),
      (.allocationFailure, .huffmanDecoder), (.hufBitstreamUnderrun, .huffmanDecoder), (.rleMalformed, .rleDecoder),
      (.allocationFailure, .rleDecoder), (.allocationFailure, .mtfDecoder), (.primaryRange, .bwtDecoder),
      (.allocationFailure, .bwtDecoder)]

/-- A command's own function reports one of its own errors. -/
theorem body_error_mem {i : Instr} (h : bodyOf i scratch src aux l = .error r) : (r.code, r.stage) ∈ ownErrors i := by
  cases i <;> simp only [bodyOf] at h
  case saBuild => simp [opSaBuild, bind_eq_error] at h; simp [ownErrors, h]
  case bwtEnc => simp [opBwtEnc, bind_eq_error] at h; simp [ownErrors, h]
  case bwtDec =>
    simp only [opBwtDec, bind_eq_error, alloc_eq_error, pure_eq_ok, reduceCtorEq, and_false, exists_false, or_false] at h
    rcases h with h | ⟨_, _, _, rfl⟩
    · rw [primaryRangeCheck_eq_error h]; simp [ownErrors]
    · simp [ownErrors]
  case mtfEnc => simp [opMtfEnc, bind_eq_error, emptyCheck] at h; rcases h with h | h <;> simp [ownErrors, h]
  case mtfDec => simp [opMtfDec, bind_eq_error, emptyCheck] at h; rcases h with h | h <;> simp [ownErrors, h]
  case rleEnc => simp [opRleEnc, bind_eq_error] at h; rcases h with h | h <;> simp [ownErrors, h]
  case rleDec => simp [opRleDec, bind_eq_error, rleOddCheck] at h; rcases h with h | h <;> simp [ownErrors, h]
  case hufCodes => simp [opHufCodes, bind_eq_error, tableCheck] at h; simp [ownErrors, h]
  case hufEnc => simp [opHufEnc, bind_eq_error] at h; simp [ownErrors, h]
  case hufDec =>
    simp [opHufDec, bind_eq_error] at h
    obtain ⟨hs, hc⟩ := huffDecode_eq_error h
    rcases hc with hc | hc | hc <;> simp [ownErrors, hs, hc]
  case pipeEnc =>
    simp only [opPipeEnc, pipeForward, pipeMtfEncode, bind_eq_error, alloc_eq_error, pure_eq_ok, reduceCtorEq, and_false,
      exists_false, or_false] at h
    rcases h with h | ⟨_, _, h | ⟨_, _, h | ⟨_, _, h⟩⟩⟩
    · simp [ownErrors, h]
    · split at h
      · simp at h
      · simp [bind_eq_error] at h; simp [ownErrors, h]
    · simp [ownErrors, h]
    · simp [ownErrors, h]
  case pipeDec =>
    simp only [opPipeDec, pipeBackward, pipeMtfDecode, metadataCheck, bind_eq_error, failIf_eq_error, rleOddCheck,
      alloc_eq_error, pure_eq_ok, reduceCtorEq, and_false, exists_false, or_false] at h
    rcases h with (h | ⟨_, _, h⟩) | ⟨_, _, h | ⟨_, _, h | ⟨_, _, h | ⟨_, _, h | ⟨_, _, h | ⟨_, _, h⟩⟩⟩⟩⟩⟩
    · simp [ownErrors, h]
    · simp [ownErrors, h]
    · obtain ⟨hs, hc⟩ := huffDecode_eq_error h
      rcases hc with hc | hc | hc <;> simp [ownErrors, hs, hc]
    · simp [ownErrors, h]
    · simp [ownErrors, h]
    · split at h
      · simp at h
      · simp [bind_eq_error] at h; simp [ownErrors, h]
    · rw [primaryRangeCheck_eq_error h]; simp [ownErrors]
    · simp [ownErrors, h]

/-- No command reports an error as LENGTH_MISMATCH or ADDR_RANGE of its own (R270, R276). -/
theorem body_error_code {i : Instr} (h : bodyOf i scratch src aux l = .error r) :
    r.code ≠ .lengthMismatch ∧ r.code ≠ .addrRange ∧ r.code ≠ .dstTooSmall ∧ r.code ≠ .illegalCmd := by
  have hm := body_error_mem h
  generalize r.code = c at hm
  generalize r.stage = g at hm
  cases i <;> simp [ownErrors] at hm <;> (refine ⟨?_, ?_, ?_, ?_⟩ <;> rintro rfl <;> simp at hm)

/-- What a command's result may carry (R92, R246): only the commands of the table write PRIMARY_INDEX, ORIG_LEN or the
metadata record, only PIPE_DEC warns. -/
theorem body_ok_fields {i : Instr} (h : bodyOf i scratch src aux l = .ok res) :
    (i ≠ .bwtEnc → i ≠ .pipeEnc → i ≠ .pipeDec → res.primaryIndex = none) ∧
    (i ≠ .pipeEnc → i ≠ .pipeDec → res.origLen = none) ∧
    (i ≠ .pipeEnc → res.metadata = none) ∧ (∀ m, res.metadata = some m → m.length = 8) ∧
    (i ≠ .pipeDec → res.warn = none) := by
  cases i <;> simp only [bodyOf] at h
  case saBuild => obtain ⟨_, rfl⟩ := opSaBuild_eq_ok.mp h; simp
  case bwtEnc => obtain ⟨_, rfl⟩ := opBwtEnc_eq_ok.mp h; simp
  case bwtDec => obtain ⟨_, _, rfl⟩ := opBwtDec_eq_ok.mp h; simp
  case mtfEnc => obtain ⟨_, _, rfl⟩ := opMtfEnc_eq_ok.mp h; simp
  case mtfDec => obtain ⟨_, _, rfl⟩ := opMtfDec_eq_ok.mp h; simp
  case rleEnc => obtain ⟨_, _, rfl⟩ := opRleEnc_eq_ok.mp h; simp
  case rleDec => obtain ⟨_, _, rfl⟩ := opRleDec_eq_ok.mp h; simp
  case hufCodes => obtain ⟨_, rfl⟩ := opHufCodes_eq_ok.mp h; simp
  case hufEnc => obtain ⟨_, rfl⟩ := opHufEnc_eq_ok.mp h; simp
  case hufDec => obtain ⟨_, _, rfl⟩ := opHufDec_eq_ok.mp h; simp
  case pipeEnc =>
    obtain ⟨_, _, _, _, rfl⟩ := opPipeEnc_eq_ok.mp h
    simp [metadataRecord, le32]
  case pipeDec => obtain ⟨_, _, _, rfl⟩ := opPipeDec_eq_ok.mp h; simp

/-- PIPE_ENC's result carries a metadata record (R241). -/
theorem pipeEnc_metadata (h : opPipeEnc scratch src aux l = .ok res) :
    res.metadata = some (metadataRecord (BitVec.ofNat 32 (bwtEncode src).2) (BitVec.ofNat 32 src.length)) := by
  obtain ⟨_, _, _, _, rfl⟩ := opPipeEnc_eq_ok.mp h
  rfl

/-! ### What the frame adds -/

/-- The word of ERR as a number (R24, R271). -/
theorem errWord_toNat (stage : Stage) (code : ErrCode) : (errWord stage code).toNat = stage.num * 256 + code.num := by
  cases stage <;> cases code <;> rfl

theorem ErrCode.num_pos (c : ErrCode) : 1 ≤ c.num ∧ c.num ≤ 0x0D := by cases c <;> decide

theorem Stage.num_le (g : Stage) : g.num ≤ 11 := by cases g <;> decide

/-- Equal words of ERR report the same code and stage. -/
theorem errWord_inj {g g' : Stage} {c c' : ErrCode} (h : errWord g c = errWord g' c') : g = g' ∧ c = c' := by
  have hn := congrArg BitVec.toNat h
  rw [errWord_toNat, errWord_toNat] at hn
  have h1 := c.num_pos; have h2 := c'.num_pos
  have hg : g.num = g'.num := by omega
  have hc : c.num = c'.num := by omega
  exact ⟨by cases g <;> cases g' <;> first | rfl | simp [Stage.num] at hg,
    by cases c <;> cases c' <;> first | rfl | simp [ErrCode.num] at hc⟩

theorem regionChecks_error {i : Instr} {n : Nat} (h : regionChecks i n l = .error r) :
    r.code = .addrRange ∧ r.stage = .frame ∧ ¬ RegionsValid i n l := by
  have hn : ¬ RegionsValid i n l := by
    intro hv
    rw [← regionChecks_eq_ok (u := ())] at hv
    rw [hv] at h
    cases h
  simp only [regionChecks, bind_eq_error, failIf_eq_error] at h
  rcases h with ⟨_, rfl⟩ | ⟨_, _, ⟨_, rfl⟩ | ⟨_, _, _, rfl⟩⟩ <;> simp [hn]

theorem capacityChecks_error {i : Instr} (h : capacityChecks i l res = .error r) :
    r.code = .dstTooSmall ∧ (r.stage = stageOf i ∨ r.stage = .pipeline) := by
  simp only [capacityChecks, bind_eq_error, failIf_eq_error] at h
  rcases h with ⟨_, rfl⟩ | ⟨_, _, _, rfl⟩ <;> simp

/-- The code of a failed command: never the warning's, and ADDR_RANGE exactly when a region is not valid (R61, R273). -/
theorem frameResult_error_code {i : Instr} {s : State} (h : frameResult i (bodyOf i) s = .error r) :
    r.code ≠ .lengthMismatch ∧ (r.code = .addrRange ↔ ¬ RegionsValid i s.cfg.memBytes s.latch) := by
  rw [frameResult_eq_error] at h
  rcases h with h | ⟨hv, h | ⟨_, h | ⟨res, _, h⟩⟩⟩
  · obtain ⟨a, b, c⟩ := regionChecks_error h; simp [a, c]
  · rw [alloc_eq_error] at h; rw [h.2]; simp [hv]
  · simp [body_error_code h, hv]
  · simp [capacityChecks_error h, hv]

/-- The commit leaves every byte outside the output and the metadata record alone (R66). -/
theorem CmdResult.read_commit_outside {m : Memory} {a : Nat}
    (h1 : a < l.dstAddr.toNat ∨ l.dstAddr.toNat + res.out.length ≤ a)
    (h2 : ∀ v, res.metadata = some v → a < l.auxAddr.toNat ∨ l.auxAddr.toNat + v.length ≤ a) :
    (res.commit l m).read a = m.read a := by
  simp only [CmdResult.commit]
  split
  · next v hv => rw [Memory.read_write_outside _ (h2 v hv), Memory.read_write_outside _ h1]
  · rw [Memory.read_write_outside _ h1]

/-- The commit keeps the canonical form. -/
theorem CmdResult.wf_commit {m : Memory} (h : m.wf) : (res.commit l m).wf := by
  simp only [CmdResult.commit]
  split
  · exact Memory.wf_write (Memory.wf_write h _ _) _ _
  · exact Memory.wf_write h _ _

/-- The commit stays inside the memory when the written bytes do. -/
theorem CmdResult.inside_commit {n : Nat} {m : Memory} (h : m.inside n)
    (h1 : l.dstAddr.toNat + res.out.length ≤ n)
    (h2 : ∀ v, res.metadata = some v → l.auxAddr.toNat + v.length ≤ n) : (res.commit l m).inside n := by
  simp only [CmdResult.commit]
  split
  · next v hv => exact Memory.inside_write (Memory.inside_write h (.inr h1)) (.inr (h2 v hv))
  · exact Memory.inside_write h (.inr h1)

/-- OUT_LEN holds the length of an output that fits DST (R31). -/
theorem outLen_toNat (h : res.out.length ≤ l.dstCap.toNat) :
    (BitVec.ofNat 32 res.out.length).toNat = res.out.length := by
  have := l.dstCap.isLt
  simp; omega

end Sys2Proof.Machine
end

