-- ==== Sys2Proof/Laws/Decode.lean ====
section
/-! SUPPORT. The command word (R91): the fields of a word with a zero reserved field, and the decoder beside
`cmdWordWellFormed`, which is written without it. -/

namespace Sys2Proof

theorem cmdOpcode_toNat (w : Word) : (cmdOpcode w).toNat = w.toNat % 256 := by
  simp [cmdOpcode, BitVec.extractLsb'_toNat]

theorem cmdReserved_toNat (w : Word) : (cmdReserved w).toNat = w.toNat / 256 := by
  have := w.isLt
  simp only [cmdReserved, BitVec.extractLsb'_toNat, Nat.shiftRight_eq_div_pow]
  omega

/-- The reserved field is zero exactly when the word is its own opcode (R91). -/
theorem cmdReserved_eq_zero {w : Word} : cmdReserved w = 0 ↔ w.toNat < 256 := by
  rw [← BitVec.toNat_inj, cmdReserved_toNat]
  exact Nat.div_eq_zero_iff_lt (by decide)

/-- An opcode is known exactly when it is one of 0x01–0x0C (R92). -/
theorem decodeOpcode_known (op : Byte) : (∃ i, decodeOpcode op = .ok i) ↔ 1 ≤ op.toNat ∧ op.toNat ≤ 12 := by
  simp only [decodeOpcode]
  split <;> simp_all
  next h1 h2 h3 h4 h5 h6 h7 h8 h9 h10 h11 h12 => omega

/-- The decoder accepts a word exactly when the word is well formed (R91). -/
theorem decode_accepts (w : Word) : (∃ i, decode w = .ok i) ↔ cmdWordWellFormed w = true := by
  have hw := cmdOpcode_toNat w
  simp only [decode, cmdWordWellFormed, Bool.and_eq_true, decide_eq_true_eq]
  split
  · next h => rw [cmdReserved_eq_zero] at h; rw [decodeOpcode_known, hw, Nat.mod_eq_of_lt h]
  · next h => rw [cmdReserved_eq_zero] at h; simp only [reduceCtorEq, exists_false, false_iff]; omega

end Sys2Proof
end

