-- ==== Sys2Proof/Laws/PerInstr.lean ====
section
/-! SUPPORT. The family `TableWord`, one lemma per command: its command word has zero reserved bits, the opcode of R92 in
its low byte, and is the word the table numbers. -/

namespace Sys2Proof.Laws.TableWord

/-- The command word of a well-formed command as the opcode table gives it (R91, R92, R94). -/
def Statement (i : Instr) : Prop :=
  i.wellFormed = true ∧ cmdReserved (encode i) = 0 ∧ cmdOpcode (encode i) = i.opcode ∧
    cmdWordWellFormed (encode i) = true ∧ tableWord 32 i.opcode.toNat = encode i

theorem saBuild : Statement .saBuild := by simp only [Statement]; decide
theorem bwtEnc : Statement .bwtEnc := by simp only [Statement]; decide
theorem bwtDec : Statement .bwtDec := by simp only [Statement]; decide
theorem mtfEnc : Statement .mtfEnc := by simp only [Statement]; decide
theorem mtfDec : Statement .mtfDec := by simp only [Statement]; decide
theorem rleEnc : Statement .rleEnc := by simp only [Statement]; decide
theorem rleDec : Statement .rleDec := by simp only [Statement]; decide
theorem hufCodes : Statement .hufCodes := by simp only [Statement]; decide
theorem hufEnc : Statement .hufEnc := by simp only [Statement]; decide
theorem hufDec : Statement .hufDec := by simp only [Statement]; decide
theorem pipeEnc : Statement .pipeEnc := by simp only [Statement]; decide
theorem pipeDec : Statement .pipeDec := by simp only [Statement]; decide

end Sys2Proof.Laws.TableWord
end

