-- ==== Sys2Proof/Laws/Stages.lean ====
section
/-! SUPPORT. The functions inside the commands: the lengths they give, byte order, and that the bounds on their loops (`fuel`,
log 16) never end them early. -/

namespace Sys2Proof.Machine

/-! ### Byte order (R16, R63) -/

@[simp] theorem le32_length (v : Word) : (le32 v).length = 4 := rfl

theorem byteAt_append_left {x y : Buffer} {i : Nat} (h : i < x.length) : byteAt (x ++ y) i = byteAt x i := by
  simp [byteAt, List.getD, List.getElem?_append_left h]

theorem byteAt_append_right (x y : Buffer) (i : Nat) : byteAt (x ++ y) (x.length + i) = byteAt y i := by
  simp [byteAt, List.getD, List.getElem?_append_right]

/-- A word read at the end of a prefix is read from what follows it. -/
theorem rdLe32_append (x y : Buffer) (off : Nat) : rdLe32 (x ++ y) (x.length + off) = rdLe32 y off := by
  simp only [rdLe32, Nat.add_assoc, byteAt_append_right]

/-- `rd_le32` undoes `le32`, whatever follows (R16). -/
theorem rdLe32_le32 (v : Word) (y : Buffer) : rdLe32 (le32 v ++ y) 0 = v := by
  apply BitVec.eq_of_getLsbD_eq
  intro i hi
  have : i < 8 ∨ (8 ≤ i ∧ i < 16) ∨ (16 ≤ i ∧ i < 24) ∨ 24 ≤ i := by omega
  simp only [rdLe32, le32, byteAt, List.cons_append, List.nil_append, List.getD_cons_zero, List.getD_cons_succ,
    Nat.zero_add, BitVec.getLsbD_or, BitVec.getLsbD_shiftLeft, BitVec.getLsbD_setWidth, BitVec.getLsbD_extractLsb', hi]
  rcases this with h | h | h | h
  · simp [h, show i < 16 by omega, show i < 24 by omega]
  · simp [show ¬ i < 8 by omega, show i < 16 by omega, show i < 24 by omega, show i - 8 < 8 by omega,
      show 8 + (i - 8) = i by omega, show i - 8 < 32 by omega]
  · simp [show ¬ i < 8 by omega, show ¬ i < 16 by omega, show i < 24 by omega, show ¬ i - 8 < 8 by omega,
      show i - 16 < 8 by omega, show 16 + (i - 16) = i by omega, show i - 16 < 32 by omega]
  · simp [show ¬ i < 8 by omega, show ¬ i < 16 by omega, show ¬ i < 24 by omega, show ¬ i - 8 < 8 by omega,
      show ¬ i - 16 < 8 by omega, show i - 24 < 8 by omega, show 24 + (i - 24) = i by omega, show i - 24 < 32 by omega]

/-- The metadata record has its 8 bytes (R99). -/
@[simp] theorem metadataRecord_length (p n : Word) : (metadataRecord p n).length = 8 := rfl

/-! ### Suffix array and BWT -/

@[simp] theorem bump_length (a : List Nat) (j : Nat) : (bump a j).length = a.length := by simp [bump]

@[simp] theorem scatter_length (key : Nat → Nat) (arr start out : List Nat) :
    (scatter key arr start out).length = out.length := by
  induction arr generalizing start out with
  | nil => rfl
  | cons x xs ih => simp [scatter, ih]

@[simp] theorem countingSort_length (arr : List Nat) (key : Nat → Nat) (b : Nat) :
    (countingSort arr key b).length = arr.length := by simp [countingSort]

@[simp] theorem sortRound_length (sa rank : List Nat) (k n : Nat) : (sortRound sa rank k n).length = sa.length := by
  simp [sortRound]

@[simp] theorem doublingRounds_length (n fuel k : Nat) (sa rank : List Nat) :
    (doublingRounds n fuel k sa rank).length = sa.length := by
  induction fuel generalizing k sa rank with
  | zero => rfl
  | succ f ih =>
    simp only [doublingRounds]
    split
    · split
      · simp
      · simp [ih]
    · rfl

@[simp] theorem suffixArray_length (buf : Buffer) : (suffixArray buf).length = buf.length := by simp [suffixArray]

/-- More rounds change nothing once `k` doubles past `n` (log 16). -/
theorem doublingRounds_fuel {n fuel k : Nat} (m : Nat) (sa rank : List Nat) (h : n ≤ k * 2 ^ fuel) :
    doublingRounds n (fuel + m) k sa rank = doublingRounds n fuel k sa rank := by
  induction fuel generalizing k sa rank with
  | zero =>
    cases m with
    | zero => rfl
    | succ m => simp only [Nat.pow_zero, Nat.mul_one] at h; simp [doublingRounds, Nat.not_lt.2 h]
  | succ f ih =>
    rw [Nat.add_right_comm]
    simp only [doublingRounds]
    split
    · split
      · rfl
      · exact ih _ _ (by rw [Nat.pow_succ] at h; rw [Nat.mul_comm 2 k, Nat.mul_assoc, Nat.mul_comm 2]; exact h)
    · rfl

/-- `suffixArray` takes the rounds R124 takes: any larger bound on them gives the same array (log 16). -/
theorem suffixArray_fuel (buf : Buffer) (m : Nat) :
    doublingRounds buf.length (buf.length + m) 1 (List.range buf.length) (buf.map BitVec.toNat) = suffixArray buf :=
  doublingRounds_fuel m _ _ (by rw [Nat.one_mul]; exact Nat.lt_two_pow_self.le)

theorem saRecord_length (sa : List Nat) : (saRecord sa).length = 4 * sa.length := by
  induction sa with
  | nil => rfl
  | cons x xs ih => simp [saRecord] at ih ⊢; omega

@[simp] theorem saToBwt_length (buf : Buffer) (sa : List Nat) : (saToBwt buf sa).length = sa.length := by
  simp [saToBwt]

@[simp] theorem lfWalk_length (bwt : Buffer) (lf : List Nat) (steps pos : Nat) (d : Buffer) :
    (lfWalk bwt lf steps pos d).length = steps + d.length := by
  induction steps generalizing pos d with
  | zero => simp [lfWalk]
  | succ k ih => simp [lfWalk, ih]; omega

/-! ### MTF and RLE -/

theorem moveToFront_length {list : List Byte} {j : Nat} (h : j < list.length) :
    (moveToFront list j).length = list.length := by
  simp [moveToFront, List.length_eraseIdx, h]; omega

@[simp] theorem mtfEncodeFrom_length (list : List Byte) (buf : Buffer) :
    (mtfEncodeFrom list buf).length = buf.length := by
  induction buf generalizing list with
  | nil => rfl
  | cons b bs ih => simp [mtfEncodeFrom, ih]

@[simp] theorem mtfDecodeFrom_length (list : List Byte) (buf : Buffer) :
    (mtfDecodeFrom list buf).length = buf.length := by
  induction buf generalizing list with
  | nil => rfl
  | cons b bs ih => simp [mtfDecodeFrom, ih]

/-- The runs of a scan in progress take at most two bytes for the open run and two for each byte still to come (R180). -/
theorem rleRuns_length_le (v : Byte) (count : Nat) (bs : Buffer) : (rleRuns v count bs).length ≤ 2 + 2 * bs.length := by
  induction bs generalizing v count with
  | nil => simp [rleRuns]
  | cons b bs ih =>
    simp only [rleRuns]
    split
    · exact (ih v (count + 1)).trans (by simp)
    · have := ih b 1
      simp only [List.length_cons]
      omega

/-! ### Huffman -/

@[simp] theorem freqOf_length (buf : Buffer) : (freqOf buf).length = 256 := by simp [freqOf, allBytes]

theorem readWords_length {n : Nat} {b : Buffer} (h : 4 * n ≤ b.length) : (readWords n b).length = n := by
  induction n generalizing b with
  | zero => simp [readWords]
  | succ n ih =>
    match b, h with
    | a :: b :: c :: d :: rest, h => simp [readWords, ih (b := rest) (by simp at h; omega)]
    | [], h | [_], h | [_, _], h | [_, _, _], h => simp only [List.length_cons, List.length_nil] at h; omega

theorem readWords_getD {n s : Nat} {b : Buffer} (h : 4 * n ≤ b.length) (hs : s < n) :
    (readWords n b).getD s 0 = (rdLe32 b (4 * s)).toNat := by
  induction n generalizing s b with
  | zero => omega
  | succ n ih =>
    match b, h with
    | a :: b :: c :: d :: rest, h =>
      cases s with
      | zero => rfl
      | succ s =>
        have hr := ih (b := rest) (s := s) (by simp at h; omega) (by omega)
        rw [readWords, List.getD_cons_succ, hr, show 4 * (s + 1) = [a, b, c, d].length + 4 * s from Nat.add_comm ..,
          show a :: b :: c :: d :: rest = [a, b, c, d] ++ rest from rfl, rdLe32_append]
    | [], h | [_], h | [_, _], h | [_, _, _], h => simp only [List.length_cons, List.length_nil] at h; omega

/-- A table of at least 1024 bytes has its 256 entries (R96). -/
theorem readFreqs_length {table : Buffer} (h : 1024 ≤ table.length) : (readFreqs table).length = 256 :=
  readWords_length h

/-- Entry `s` of a table is `rd_le32(table, 4s)` (R96). -/
theorem readFreqs_getD {table : Buffer} {s : Nat} (h : 1024 ≤ table.length) (hs : s < 256) :
    (readFreqs table).getD s 0 = (rdLe32 table (4 * s)).toNat := readWords_getD h hs

theorem freqRecord_length (freq : List Nat) : (freqRecord freq).length = 1024 := by
  simp only [freqRecord, List.length_flatMap, le32_length, List.map_const', List.sum_replicate, List.length_range]
  rfl

@[simp] theorem packBits_length (bits : Bits) : (packBits bits).length = (bits.length + 7) / 8 := by simp [packBits]

@[simp] theorem unpackBits_length (b : Buffer) : (unpackBits b).length = 8 * b.length := by
  simp [unpackBits, unpackByte, List.length_flatMap, Nat.mul_comm]

theorem extractMin_cons_ne_none (a : HuffNode) (q : List HuffNode) : extractMin (a :: q) ≠ none := by
  simp only [extractMin]
  split
  · simp
  · split <;> simp

/-- `ExtractMin` takes one node out of the queue (R203). -/
theorem extractMin_length {q rest : List HuffNode} {a : HuffNode} (h : extractMin q = some (a, rest)) :
    q.length = rest.length + 1 := by
  induction q generalizing a rest with
  | nil => cases h
  | cons b bs ih =>
    simp only [extractMin] at h
    split at h
    · next hn =>
      cases bs with
      | nil => cases h; rfl
      | cons c cs => exact absurd hn (extractMin_cons_ne_none c cs)
    · next m others hm =>
      have := ih hm
      split at h <;> cases h
      · simp
      · simp [this]

/-- The queue of `BuildTree` never empties, so with a bound of its size a nonempty queue gives a tree (R202, log 16). -/
theorem mergeNodes_isSome {fuel t : Nat} {q : List HuffNode} (h0 : q ≠ []) (h : q.length ≤ fuel) :
    (mergeNodes fuel t q).isSome = true := by
  induction fuel generalizing t q with
  | zero => exact absurd (List.length_eq_zero_iff.1 (by omega)) h0
  | succ f ih =>
    cases q with
    | nil => exact absurd rfl h0
    | cons b bs =>
      cases h1 : extractMin (b :: bs) with
      | none => exact absurd h1 (extractMin_cons_ne_none b bs)
      | some p =>
        obtain ⟨a, q1⟩ := p
        have e1 := extractMin_length h1
        simp only [mergeNodes, h1]
        cases h2 : extractMin q1 with
        | none => rfl
        | some p2 =>
          obtain ⟨c, q2⟩ := p2
          have e2 := extractMin_length h2
          exact ih (by simp) (by simp only [List.length_cons] at *; omega)

end Sys2Proof.Machine
end

