-- ==== Sys2Proof/Tests/Slice0.lean ====
section
/-! SUPPORT. The model's own tests: the well-formedness smoke tests, decoding of words written out from R91 and R92, one step
of each command with the results of 95_test_vectors.md, and for every obligation with hypotheses a witness that meets them
(`witness_` and the obligation's name). -/

namespace Sys2Proof.Tests

open Sys2Proof.Machine

set_option Elab.async false

/-! ### Well-formedness: each check refuses an ill-formed term -/

/-- R91: opcode 0, an opcode past 0x0C, a nonzero reserved bit. -/
theorem test_wellFormed_refuses_words :
    cmdWordWellFormed 0x00 = false ∧ cmdWordWellFormed 0x0D = false ∧ cmdWordWellFormed 0x0102 = false ∧
    cmdWordWellFormed 0x80000001 = false ∧ cmdWordWellFormed 0x01 = true ∧ cmdWordWellFormed 0x0C = true := by decide

/-- R10, R11: each of the four bounds. -/
theorem test_wellFormed_refuses_parameters :
    Config.legal ⟨0, 9216, 0⟩ = false ∧ Config.legal ⟨2 ^ 32 + 1, 9216, 0⟩ = false ∧ Config.legal ⟨1, 9215, 0⟩ = false ∧
    Config.legal ⟨1, 2 ^ 31, 0⟩ = false ∧ Config.legal ⟨1, 9216, 0⟩ = true ∧
    Config.legal ⟨2 ^ 32, 2 ^ 31 - 1, 0x40000000⟩ = true := by decide

/-! ### Decoding: bits 31:8 zero, bits 7:0 the opcode (R91, R92) -/

theorem test_decode_saBuild : decode 0b00000000_00000000_00000000_00000001 = .ok .saBuild := by decide
theorem test_decode_bwtEnc : decode 0b00000000_00000000_00000000_00000010 = .ok .bwtEnc := by decide
theorem test_decode_bwtDec : decode 0b00000000_00000000_00000000_00000011 = .ok .bwtDec := by decide
theorem test_decode_mtfEnc : decode 0b00000000_00000000_00000000_00000100 = .ok .mtfEnc := by decide
theorem test_decode_mtfDec : decode 0b00000000_00000000_00000000_00000101 = .ok .mtfDec := by decide
theorem test_decode_rleEnc : decode 0b00000000_00000000_00000000_00000110 = .ok .rleEnc := by decide
theorem test_decode_rleDec : decode 0b00000000_00000000_00000000_00000111 = .ok .rleDec := by decide
theorem test_decode_hufCodes : decode 0b00000000_00000000_00000000_00001000 = .ok .hufCodes := by decide
theorem test_decode_hufEnc : decode 0b00000000_00000000_00000000_00001001 = .ok .hufEnc := by decide
theorem test_decode_hufDec : decode 0b00000000_00000000_00000000_00001010 = .ok .hufDec := by decide
theorem test_decode_pipeEnc : decode 0b00000000_00000000_00000000_00001011 = .ok .pipeEnc := by decide
theorem test_decode_pipeDec : decode 0b00000000_00000000_00000000_00001100 = .ok .pipeDec := by decide
theorem test_decode_refuses :
    decode 0b00000000_00000000_00000000_00000000 = .error (.unknownOpcode 0) ∧
    decode 0b00000000_00000000_00000000_00001101 = .error (.unknownOpcode 13) ∧
    decode 0b00000000_00000000_00000001_00000010 = .error (.reservedBits 1) := by decide

/-! ### Small states -/

/-- A BUSY state whose running command has these operands; regions are pairs of an address and a length. -/
def running (cmd : Word) (src dst aux : Word × Word) (p : Word) (mem : Memory) : State :=
  { State.reset with
    cmd := cmd
    status := statusBusy
    primaryIndex := p
    latch := ⟨cmd, src.1, src.2, dst.1, dst.2, aux.1, aux.2, p⟩
    mem := mem
    held := heldRegions ⟨cmd, src.1, src.2, dst.1, dst.2, aux.1, aux.2, p⟩ }

/-- A command on the bytes `src` at 0x100 and `aux` at 0x200, with DST at 0x1000. -/
def on (i : Instr) (src aux : Buffer) (cap : Word) (p : Word) : State :=
  running (encode i) (0x100, BitVec.ofNat 32 src.length) (0x1000, cap) (0x200, BitVec.ofNat 32 aux.length) p
    ((Memory.write [] 0x100 src).write 0x200 aux)

/-- What the host sees of an ending: STATUS, ERR, ERR_INFO0, ERR_INFO1, OUT_LEN, PRIMARY_INDEX. -/
def seen : Host.Outcome State Fault Refusal → List Word
  | .next t => [t.status, t.err, t.errInfo0, t.errInfo1, t.outLen, t.primaryIndex]
  | _ => []

/-- The bytes an ending leaves at an address. -/
def bytes (a n : Nat) : Host.Outcome State Fault Refusal → Buffer
  | .next t => t.mem.readBuf a n
  | _ => []

/-- The frequency-table record of a = 3, b = 1, n = 2 at 0x4000, and the two packed bytes after it (vector H4). -/
def bananaPayload : Memory := [(0x4184, 3), (0x4188, 1), (0x41B8, 2), (0x4400, 0x9B)]

def banana : Buffer := [98, 97, 110, 97, 110, 97]

/-! ### One step of each command (95_test_vectors.md section 2) -/

/-- Vector A1. -/
theorem test_saBuild_banana : bytes 0x1000 25 (step (on .saBuild banana [] 25 0)) =
    [5, 0, 0, 0, 3, 0, 0, 0, 1, 0, 0, 0, 0, 0, 0, 0, 4, 0, 0, 0, 2, 0, 0, 0, 0] := by decide +kernel

/-- Vector A6: bytes are unsigned. -/
theorem test_saBuild_unsigned : suffixArray [0x80, 0x01, 0x7F] = [1, 2, 0] := by decide +kernel

/-- Vector B1. -/
theorem test_bwtEnc_banana : seen (step (on .bwtEnc banana [] 6 9)) = [2, 0, 0, 0, 6, 3] ∧
    bytes 0x1000 6 (step (on .bwtEnc banana [] 6 9)) = [110, 110, 98, 97, 97, 97] := by decide +kernel

/-- Vector B15. -/
theorem test_bwtEnc_dst_too_small : seen (step (on .bwtEnc banana [] 5 9)) = [4, 0x0206, 5, 6, 0, 9] := by decide +kernel

/-- Vector B7. -/
theorem test_bwtDec_banana : bytes 0x1000 6 (step (on .bwtDec [110, 110, 98, 97, 97, 97] [] 6 3)) = banana := by
  decide +kernel

/-- Vector B13: the index is a signed int32. -/
theorem test_bwtDec_signed_index : seen (step (on .bwtDec [110, 110, 98, 97, 97, 97] [] 6 0xFFFFFFFF)) =
    [4, 0x0309, 0xFFFFFFFF, 6, 0, 0xFFFFFFFF] := by decide +kernel

/-- Vector M4. -/
theorem test_mtfEnc_ends_of_the_list :
    bytes 0x1000 4 (step (on .mtfEnc [0, 0, 0xFF, 0xFF] [] 4 0)) = [0, 0, 0xFF, 0] := by decide +kernel

/-- Vector M6. -/
theorem test_mtfEnc_empty : seen (step (on .mtfEnc [] [] 4 0)) = [4, 0x0404, 0, 0, 0, 0] := by decide +kernel

/-- Vector M5a. -/
theorem test_mtfDec_last_entry : bytes 0x1000 2 (step (on .mtfDec [0xFF, 0xFF] [] 2 0)) = [0xFF, 0xFE] := by
  decide +kernel

/-- Vector M6a. -/
theorem test_mtfDec_empty : seen (step (on .mtfDec [] [] 4 0)) = [4, 0x0504, 0, 0, 0, 0] := by decide +kernel

/-- Vector L3: a run of 256 is split after 255. -/
theorem test_rleEnc_long_run : rleEncode (List.replicate 256 0x78) = [0xFF, 0x78, 0x01, 0x78] := by decide +kernel

/-- Vector L6: the capacity test is on the worst case. -/
theorem test_rleEnc_capacity : seen (step (on .rleEnc (List.replicate 6 97) [] 11 0)) = [4, 0x0605, 11, 12, 0, 0] := by
  decide +kernel

/-- Vector L8: a count of 0 emits nothing. -/
theorem test_rleDec_zero_count : seen (step (on .rleDec [0, 5, 2, 7] [] 2 0)) = [2, 0, 0, 0, 2, 0] ∧
    bytes 0x1000 2 (step (on .rleDec [0, 5, 2, 7] [] 2 0)) = [7, 7] := by decide +kernel

/-- Vector L9. -/
theorem test_rleDec_odd : seen (step (on .rleDec [3] [] 16 0)) = [4, 0x070A, 1, 0, 0, 0] := by decide +kernel

/-- Vector H1: the codes of "banana". -/
theorem test_huffman_codes : codeTable (freqOf banana) =
    [(97, [false]), (98, [true, false]), (110, [true, true])] := by decide +kernel

/-- Vector C5v. -/
theorem test_hufCodes_short_table : seen (step (running 0x08 (0x4000, 1023) (0x8000, 9216) (0, 0) 0 bananaPayload)) =
    [4, 0x080B, 1023, 1024, 0, 0] := by decide +kernel

/-- Vector C1v: the entries of 97, 98 and 110 in the record. -/
theorem test_hufCodes_banana :
    let o := step (running 0x08 (0x4000, 1024) (0x8000, 9216) (0, 0) 0 bananaPayload)
    seen o = [2, 0, 0, 0, 9216, 0] ∧ bytes 0x8DA4 5 o = [1, 1, 0, 0, 0] ∧ bytes 0x8DC8 5 o = [1, 2, 0, 0, 0x80] ∧
    bytes 0x8F78 5 o = [1, 2, 0, 0, 0xC0] ∧ bytes 0x8000 1 o = [0] := by decide +kernel

/-- Vector H4: the packed bits. -/
theorem test_hufEnc_banana : seen (step (on .hufEnc banana [] 1026 0)) = [2, 0, 0, 0, 1026, 0] ∧
    bytes 0x1400 3 (step (on .hufEnc banana [] 1026 0)) = [0x9B, 0, 0] := by decide +kernel

/-- Vector H9d. -/
theorem test_hufEnc_dst_too_small : seen (step (on .hufEnc banana [] 1025 0)) = [4, 0x0906, 1025, 1026, 0, 0] := by
  decide +kernel

/-- Vector H8. -/
theorem test_hufDec_banana :
    bytes 0x1000 6 (step (running 0x0A (0x4000, 1026) (0x1000, 6) (0, 0) 0 bananaPayload)) = banana := by decide +kernel

/-- Vector H9. -/
theorem test_hufDec_underrun : seen (step (running 0x0A (0x4000, 1025) (0x1000, 6) (0, 0) 0 bananaPayload)) =
    [4, 0x0A0C, 5, 6, 0, 0] := by decide +kernel

/-- The AUX operand of a PIPE_ENC that writes its record at 0x200. -/
def pipeEncOn (src : Buffer) (auxLen : Word) : State :=
  running 0x0B (0x100, BitVec.ofNat 32 src.length) (0x1000, 1025) (0x200, auxLen) 7 (Memory.write [] 0x100 src)

/-- Vector P5a: the payload byte, the record and the registers. -/
theorem test_pipeEnc_baa : seen (step (pipeEncOn [98, 97, 97] 8)) = [2, 0, 0, 0, 1025, 2] ∧
    bytes 0x1400 1 (step (pipeEncOn [98, 97, 97] 8)) = [0x97] ∧
    bytes 0x200 8 (step (pipeEncOn [98, 97, 97] 8)) = [2, 0, 0, 0, 3, 0, 0, 0] := by decide +kernel

/-- Vector P5b, on "baa": an AUX region of 4 bytes. -/
theorem test_pipeEnc_short_aux : seen (step (pipeEncOn [98, 97, 97] 4)) = [4, 0x0B06, 4, 8, 0, 7] := by decide +kernel

/-- The payload of vector P5a at 0x4000 and a record at 0x200. -/
def pipeDecOn (olen : Byte) (auxLen : Word) : State :=
  running 0x0C (0x4000, 1025) (0x1000, 8) (0x200, auxLen) 7
    [(0x200, 2), (0x204, olen), (0x4004, 4), (0x4184, 1), (0x4188, 1), (0x4400, 0x97)]

/-- The payload of vector P6 with a wrong length in the record: the bytes are delivered, with a warning (R246). -/
theorem test_pipeDec_warning : bytes 0x1000 4 (step (pipeDecOn 4 8)) = [97, 98, 97, 0] ∧
    seen (step (pipeDecOn 4 8)) = [0x0A, 0x0B0D, 3, 4, 3, 2] := by decide +kernel

/-- Vector P9. -/
theorem test_pipeDec_truncated : seen (step (pipeDecOn 3 4)) = [4, 0x0B08, 4, 8, 0, 7] := by decide +kernel

/-! ### The frame, the host and reset -/

/-- Vectors F1, F4 and F13: an illegal word, before any region is looked at. -/
theorem test_illegal_words :
    seen (step (running 0 (0, 0) (0, 0) (0, 0) 0 [])) = [4, 1, 0, 0, 0, 0] ∧
    seen (step (running 0x0102 (0, 0) (0, 0) (0, 0) 0 [])) = [4, 1, 0x0102, 0, 0, 0] ∧
    seen (step (running 0x0E (0xFFFFFFFF, 2) (0, 0) (0, 0) 0 [])) = [4, 1, 0x0E, 0, 0, 0] := by decide +kernel

/-- Vectors F6, F7, F8, F9 and F11. -/
theorem test_frame_errors :
    seen (step (running 2 (0xFFFFFFFF, 2) (0, 0) (0, 0) 0 [])) = [4, 2, 1, 2, 0, 0] ∧
    seen (step (running 2 (0, 0) (0x100000, 1) (0, 0) 0 [])) = [4, 2, 2, 1, 0, 0] ∧
    seen (step (running 2 (0x100000, 0) (0, 0) (0, 0) 0 [])) = [2, 0, 0, 0, 0, 0] ∧
    seen (step (running 0x0C (0, 0) (0, 0) (0xFFFFC, 8) 0 [])) = [4, 2, 3, 8, 0, 0] ∧
    seen (step (running 1 (0, 70000) (0, 0) (0, 0) 0 [])) = [4, 0x0103, 70000, 0x10000, 0, 0] := by decide +kernel

/-- A host state with a script. -/
def hosting (s : State) (script : List HostOp) : State := { s with script := script, turns := [.host] }

/-- Program 4, line 7, end state (a): a CMD write while BUSY only sets OVERRUN. -/
theorem test_overrun : seen (step (hosting (on .rleEnc banana [] 12 0) (scriptRun Config.vectors .mtfEnc))) =
    [0x11, 0, 0, 0, 0, 0] := by decide +kernel

/-- An accepted CMD write: the word, the latched operands, BUSY (R36). -/
theorem test_accept :
    (match step (hosting { State.reset with srcLen := 5, status := 0x14, err := 0x0206 }
        (scriptRun Config.vectors .mtfEnc)) with
      | .next t => decide (t.cmd = 4 ∧ t.latch.cmd = 4 ∧ t.latch.srcLen = 5 ∧ t.status = 1 ∧ t.err = 0)
      | _ => false) = true := by decide +kernel

/-- What a step answers with, as one number: 0 a next state, 1 a fault, 2 a refusal. -/
def kind : Host.Outcome State Fault Refusal → Nat
  | .next _ => 0
  | .fault _ => 1
  | .refused _ => 2

/-- What the host's read returned. -/
def readData : Host.Outcome State Fault Refusal → Word
  | .next t => t.rdata
  | _ => 0

/-- A sub-word access and an unaligned one are refused (R34); ID and MEM_TOP read their constants. -/
theorem test_register_access :
    kind (hostRegRead .half 4 State.reset) = 2 ∧ kind (hostRegRead .word 6 State.reset) = 2 ∧
    readData (hostRegRead .word 0 State.reset) = 0x54430007 ∧ readData (hostRegRead .word 0x40 State.reset) = 0xFFFFF := by
  decide +kernel

/-- The host may not write the input of a running command, and may write the byte after it (R72). -/
theorem test_held_region :
    kind (hostMemWrite 0x105 1 (on .mtfEnc banana [] 6 0)) = 2 ∧
    kind (hostMemWrite 0x106 1 (on .mtfEnc banana [] 6 0)) = 0 ∧
    kind (hostMemRead 0x105 (on .mtfEnc banana [] 6 0)) = 0 ∧
    kind (hostMemRead 0x1000 (on .mtfEnc banana [] 6 0)) = 2 ∧ kind (hostMemRead 0x100000 State.reset) = 1 := by
  decide +kernel

/-- `<addr>+1` never wraps (R61, R101): past the last byte of a memory of 2^32 bytes there is none (log 13). -/
theorem test_memw_does_not_wrap :
    scriptMemw 0xFFFFFFFF [1, 2] = [.memWrite 0xFFFFFFFF 1, .memWrite 0x100000000 2] ∧
    kind (hostMemWrite 0x100000000 2 { State.reset with cfg := ⟨2 ^ 32, 9216, 0⟩ }) = 1 := by decide +kernel

/-- The end of an MTF_ENC of no bytes, which no STATUS read has synchronised with. -/
def unsynchronised : State := { State.reset with status := 4, err := 0x0404, unseen := [(.err, 0), (.errInfo0, 0)] }

/-- While the next command is BUSY the registers read as they stood at its acceptance (R307, D42). -/
theorem test_accept_ends_unsynchronised_reads :
    (match step (hosting { unsynchronised with primaryIndex := 9, unseen := [(.primaryIndex, 5)] }
        (scriptRun Config.vectors .mtfEnc)) with
      | .next t => decide (readData (hostRegRead .word 0x30 t) = 9 ∧ readData (hostRegRead .word 0x0C t) = 0)
      | _ => false) = true := by decide +kernel

/-- A reset of a running command (R300, R301): the registers and, outside its output, the memory. -/
theorem test_reset :
    (match step { on .mtfEnc banana [] 6 5 with turns := [.reset] } with
      | .next t => decide (t.status = 0 ∧ t.cmd = 0 ∧ t.primaryIndex = 0 ∧ t.mem.readBuf 0x100 6 = banana)
      | _ => false) = true := by decide +kernel

/-- The table's word runs as the next step after reset (log 11). -/
theorem test_withFetchWord : seen (step (State.reset.withFetchWord 32 4)) = [4, 0x0404, 0, 0, 0, 0] ∧
    decodeTableWord 32 4 = some .mtfEnc ∧ decodeTableWord 32 0 = none := by decide +kernel

/-! ### Witnesses: concrete states and operands that meet every hypothesis of an obligation -/

/-- The outcome is a next state with a property. -/
def nextIs (o : Host.Outcome State Fault Refusal) (p : State → Bool) : Bool :=
  match o with
  | .next t => p t
  | _ => false

theorem exists_next {o : Host.Outcome State Fault Refusal} {p : State → Bool} (h : nextIs o p = true) :
    ∃ t, o = .next t ∧ p t = true := by
  cases o with
  | next t => exact ⟨t, rfl, h⟩
  | fault r => cases h
  | refused r => cases h

/-- The decidable parts of the invariant give the invariant. -/
theorem inv_of {s : State} (h : s.cfg.legal = true ∧ statusLegal s.status = true ∧ errLegal s.err = true ∧
    reportAgrees s = true ∧ busyAgrees s = true ∧ unseenAgrees s = true) (hw : s.mem.wf) (hi : s.mem.inside s.cfg.memBytes) : s.Inv :=
  ⟨h.1, h.2.1, h.2.2.1, h.2.2.2.1, h.2.2.2.2.1, h.2.2.2.2.2, hw, hi⟩

/-- A running MTF_ENC on one byte. -/
def busyState : State := on .mtfEnc [97] [] 1 0

theorem witness_StepRunsTheDecodedCommand :
    busyState.nextTurn = .engine ∧ busyState.busy = true ∧ decode busyState.latch.cmd = .ok .mtfEnc := by decide +kernel

/-- Each of the three clauses at its bounds. -/
theorem witness_IllegalWordsCompleteWithIllegalCmd : ([0, 0x0D, 0xFF, 0x0101, 0xFFFFFF01] : List Word).all (fun w =>
    decide ((running w (0, 0) (0, 0) (0, 0) 0 []).nextTurn = .engine) && (running w (0, 0) (0, 0) (0, 0) 0 []).busy &&
    decide (w.toNat % 256 = 0 ∨ 0x0D ≤ w.toNat % 256 ∨ w.toNat / 256 ≠ 0)) = true := by decide +kernel

theorem witness_CmdWriteIssuesACommand : ∀ s ∈ [busyState, State.reset],
    (hosting s (scriptWr Config.vectors .cmd 5 ++ [.wait])).nextTurn = .host ∧
    (hosting s (scriptWr Config.vectors .cmd 5 ++ [.wait])).script = scriptWr s.cfg .cmd 5 ++ [.wait] ∧
    (s.busy = true ↔ s = busyState) := by decide +kernel

theorem witness_OnlyCmdWriteOrResetLeavesAPhase : State.reset.busy = false ∧
    ∃ t, step (hosting State.reset (scriptRun Config.vectors .saBuild)) = .next t ∧
      decide (t.status ≠ State.reset.status) = true :=
  ⟨by decide, exists_next (p := fun t => decide (t.status ≠ State.reset.status)) (by decide +kernel)⟩

theorem witness_HostWriteChangesOneOperandRegister :
    ∀ r ∈ [RegName.srcAddr, .primaryIndex, .id, .memTop], ∀ s ∈ [busyState, State.reset],
    (hosting s (scriptWr Config.vectors r 5)).nextTurn = .host ∧
    (hosting s (scriptWr Config.vectors r 5)).script = scriptWr s.cfg r 5 ++ [] := by decide +kernel

theorem reset_inv : State.reset.Inv := inv_of (by decide +kernel) (by decide +kernel) (by decide +kernel)

theorem busyState_inv : busyState.Inv := inv_of (by decide +kernel) (by decide +kernel) (by decide +kernel)

theorem unsynchronised_inv : unsynchronised.Inv := inv_of (by decide +kernel) (by decide +kernel) (by decide +kernel)

/-- The first and the last reserved offset, and an idle, a BUSY and an unsynchronised state of the invariant. -/
theorem witness_ReservedOffsetsAndBitsReadZero :
    (0x44 ≤ 4 * 0x11 ∧ 4 * 0x11 ≤ 0xFC) ∧ (0x44 ≤ 4 * 0x3F ∧ 4 * 0x3F ≤ 0xFC) ∧ State.reset.Inv ∧ busyState.Inv ∧
    unsynchronised.Inv := ⟨by decide, by decide, reset_inv, busyState_inv, unsynchronised_inv⟩

theorem witness_ConstantsReadTheirParameters : State.reset.cfg.legal = true ∧
    ({ State.reset with cfg := ⟨1, 9216, 0⟩ } : State).cfg.legal = true ∧
    ({ State.reset with cfg := ⟨2 ^ 32, 2 ^ 31 - 1, 0⟩ } : State).cfg.legal = true := by decide

theorem witness_RegisterReadGivesItsValue :
    (∀ r ∈ [RegName.outLen, .status], ∀ s ∈ [busyState, State.reset],
      (hosting s (scriptRd Config.vectors r)).nextTurn = .host ∧
      (hosting s (scriptRd Config.vectors r)).script = scriptRd s.cfg r ++ [] ∧ s.unseen.lookup r = none) ∧
    ((hosting unsynchronised (scriptRd Config.vectors .err)).nextTurn = .host ∧
      (hosting unsynchronised (scriptRd Config.vectors .err)).unseen.lookup .err = some 0) ∧ State.reset.busy = false ∧ busyState.busy = true ∧ busyState.Inv :=
  ⟨by decide +kernel, by decide +kernel, by decide, by decide +kernel, busyState_inv⟩

theorem witness_WaitPollsUntilNotBusy : ∀ s ∈ [busyState, State.reset],
    (hosting s [.wait]).nextTurn = .host ∧ (hosting s [.wait]).script = .wait :: [] ∧ (s.busy = true ↔ s = busyState) := by
  decide +kernel

/-- The window of a platform with `REG_BASE = 0x40000000`: its first and last byte, and its last word. -/
theorem witness_SubWordAndUnalignedAccessesRefused :
    let s := { State.reset with cfg := ⟨1, 9216, 0x40000000⟩ }
    ∀ a ∈ [0x40000000, 0x400000FC, 0x400000FF], s.cfg.regBase ≤ a ∧ a < s.cfg.regBase + 0x100 ∧
      ((a - s.cfg.regBase) % 4 ≠ 0 ↔ a = 0x400000FF) := by decide +kernel

/-- The first and the last byte of the memory, the byte past it, and an input byte of a running command, which the host may read. -/
theorem witness_HostByteAccess : 0 < State.reset.cfg.memBytes ∧ hostMayNotWrite State.reset.held 0 = false ∧
    0xFFFFF < State.reset.cfg.memBytes ∧ hostMayNotWrite State.reset.held 0xFFFFF = false ∧
    State.reset.cfg.memBytes ≤ 0x100000 ∧ 0x100 < busyState.cfg.memBytes ∧
    hostMayNotRead busyState.held 0x100 = false ∧ hostMayNotWrite busyState.held 0x100 = true := by decide +kernel

/-- The first byte of SRC and the last of DST of a command, and the AUX region of both pipeline commands. -/
theorem witness_HostKeptOffARunningCommandsRegions :
    busyState.Inv ∧ busyState.busy = true ∧ inRegion busyState.latch.srcAddr busyState.latch.srcLen 0x100 = true ∧
    inRegion busyState.latch.dstAddr busyState.latch.dstCap 0x1000 = true ∧
    (∀ i ∈ [Instr.pipeEnc, .pipeDec],
      (on i [97] [1, 2] 8 0).busy = true ∧ (on i [97] [1, 2] 8 0).latch.cmd = encode i ∧
      inRegion (on i [97] [1, 2] 8 0).latch.auxAddr (on i [97] [1, 2] 8 0).latch.auxLen 0x201 = true) ∧
    (on .pipeEnc [97] [1, 2] 8 0).Inv ∧ (on .pipeDec [97] [1, 2] 8 0).Inv ∧
    ∃ t, step (hosting State.reset [.wait]) = .next t ∧ true = true :=
  ⟨busyState_inv, by decide +kernel, by decide +kernel, by decide +kernel, by decide +kernel,
    inv_of (by decide +kernel) (by decide +kernel) (by decide +kernel),
    inv_of (by decide +kernel) (by decide +kernel) (by decide +kernel), exists_next (p := fun _ => true) (by decide +kernel)⟩

theorem witness_ResetSetsEveryRegister : ({ busyState with turns := [.reset] } : State).nextTurn = .reset := by decide

/-- A reset of a running PIPE_ENC; the byte after DST is outside both output regions. -/
theorem witness_ResetWhileBusyAbandonsTheCommand :
    let s := { on .pipeEnc [97] [1, 2] 8 0 with turns := [.reset] }
    s.nextTurn = .reset ∧ s.busy = true ∧ s.latch.cmd = encode .pipeEnc ∧
    inRegion s.latch.dstAddr s.latch.dstCap 0x1008 = false ∧ inRegion s.latch.auxAddr s.latch.auxLen 0x1008 = false := by
  decide +kernel

/-- The last byte of DST, at the top of the memory, and the first of the AUX region of a PIPE_ENC. -/
theorem witness_AbandonedBytesAreFreeValues :
    let s := { running 4 (0, 1) (0xFFFF8, 8) (0, 0) 0 [] with turns := [.reset] }
    let p := { on .pipeEnc [97] [1, 2] 8 0 with turns := [.reset] }
    (s.nextTurn = .reset ∧ s.busy = true ∧ 0xFFFFF < s.cfg.memBytes ∧
      inRegion s.latch.dstAddr s.latch.dstCap 0xFFFFF = true) ∧
    (p.nextTurn = .reset ∧ p.busy = true ∧ 0x200 < p.cfg.memBytes ∧ p.latch.cmd = encode .pipeEnc ∧
      inRegion p.latch.auxAddr p.latch.auxLen 0x200 = true) := by
  decide +kernel

theorem witness_EveryCommandEnds : busyState.busy = true ∧ busyState.turns = [] ∧
    ∃ t, exec .pipeDec (pipeDecOn 4 8) = .next t ∧ t.warned = true :=
  ⟨by decide +kernel, by decide +kernel, exists_next (p := fun t => t.warned) (by decide +kernel)⟩

/-- An error entry, and the numbers of the first and the last code and stage. -/
theorem witness_ErrorEntryIsPrecise : (on .mtfEnc [] [] 1 0).busy = true ∧
    (ErrCode.illegalCmd, 0x01) ∈ [(ErrCode.illegalCmd, 0x01), (.lengthMismatch, 0x0D)] ∧
    (Stage.pipeline, 11) ∈ [(Stage.frame, 0), (.pipeline, 11)] ∧
    ∃ t, engineStep (on .mtfEnc [] [] 1 0) = .next t ∧ t.error = true :=
  ⟨by decide +kernel, by decide, by decide, exists_next (p := fun t => t.error) (by decide +kernel)⟩

/-- A region that ends one byte past the memory: SRC, DST, AUX, each with those before it in order. -/
def srcOut : State := running 0x0B (0xFFFFF, 2) (0xFFFFF, 2) (0xFFFFF, 2) 0 []
def dstOut : State := running 0x0B (0xFFFFF, 1) (0xFFFFF, 2) (0xFFFFF, 2) 0 []
def auxOut : State := running 0x0B (0xFFFFF, 1) (0xFFFFF, 1) (0xFFFFF, 2) 0 []

theorem witness_InvalidRegionsEndWithAddrRange :
    srcOut.cfg.memBytes < srcOut.latch.srcAddr.toNat + srcOut.latch.srcLen.toNat ∧
    dstOut.cfg.memBytes < dstOut.latch.dstAddr.toNat + dstOut.latch.dstCap.toNat ∧
    auxOut.cfg.memBytes < auxOut.latch.auxAddr.toNat + auxOut.latch.auxLen.toNat ∧
    nextIs (exec .pipeEnc auxOut) (fun t => decide (t.err = 2)) = true := by decide +kernel

theorem witness_FrameErrorsInOrder :
    let src := fun s : State => s.latch.srcAddr.toNat + s.latch.srcLen.toNat ≤ s.cfg.memBytes
    let dst := fun s : State => s.latch.dstAddr.toNat + s.latch.dstCap.toNat ≤ s.cfg.memBytes
    let aux := fun s : State => s.latch.auxAddr.toNat + s.latch.auxLen.toNat ≤ s.cfg.memBytes
    let long := running 0x0B (0, 0x10001) (0, 0) (0, 0) 0 []
    ¬ src srcOut ∧ (src dstOut ∧ ¬ dst dstOut) ∧ (src auxOut ∧ dst auxOut ∧ ¬ aux auxOut) ∧
    (src long ∧ dst long ∧ aux long ∧ long.cfg.scratchLen < long.latch.srcLen.toNat) := by decide +kernel

/-- One byte short of each output; for HUF_DEC and PIPE_DEC the next theorem. -/
theorem witness_OutputTooLargeEndsWithDstTooSmall :
    let s := running 1 (0, 1) (0x1000, 3) (0, 0) 0 []
    let z := running 2 (0, 1) (0x1000, 0) (0, 0) 0 []
    let c := running 8 (0, 1024) (0x1000, 9215) (0, 0) 0 []
    let b := on .bwtDec [97] [] 0 0
    let r := on .rleDec [2, 7] [] 1 0
    let f := on .hufEnc [97] [] 1023 0
    let p := { pipeEncOn [97] 8 with latch := ⟨0x0B, 0x100, 1, 0x1000, 1024, 0x200, 8, 0⟩ }
    (s.srcReady ∧ s.dstRoom 0 ∧ s.latch.dstCap.toNat < 4 * s.latch.srcLen.toNat) ∧
    (z.srcReady ∧ z.dstRoom 0 ∧ z.latch.dstCap.toNat < z.latch.srcLen.toNat) ∧
    (c.srcReady ∧ c.dstRoom 0 ∧ 1024 ≤ c.latch.srcLen.toNat ∧ c.latch.dstCap.toNat < 9216) ∧
    (b.srcReady ∧ b.dstRoom 0 ∧ b.latch.dstCap.toNat < b.latch.srcLen.toNat ∧ 0 ≤ b.latch.primaryIndex.toInt ∧
      b.latch.primaryIndex.toInt < (b.latch.srcLen.toNat : Int)) ∧
    (r.srcReady ∧ r.dstRoom 0 ∧ r.latch.srcLen.toNat % 2 = 0 ∧ r.latch.dstCap.toNat < rleTotal r.srcBuf) ∧
    (f.srcReady ∧ f.dstRoom 0 ∧ f.latch.dstCap.toNat < payloadLength (freqOf f.srcBuf)) ∧
    (p.srcReady ∧ p.dstRoom 0 ∧ p.auxReady ∧ payloadLength (freqOf (forwardStream p.srcBuf)) ≤ p.cfg.scratchLen ∧
      p.latch.dstCap.toNat < payloadLength (freqOf (forwardStream p.srcBuf))) := by
  simp only [State.srcReady, State.dstRoom, State.auxReady]
  decide +kernel

/-- Six copies of "a" and five bytes of DST; "aba" and two (vector P14, with a wrong length in the record). -/
theorem witness_OutputTooLargeEndsWithDstTooSmall_decoders :
    let h := running 0x0A (0x4000, 1024) (0x1000, 5) (0, 0) 0 [(0x4184, 6)]
    let p := { pipeDecOn 4 8 with latch := ⟨0x0C, 0x4000, 1025, 0x1000, 2, 0x200, 8, 0⟩ }
    (h.srcReady ∧ h.dstRoom 0 ∧ h.latch.dstCap.toNat < 6 ∧
      (match huffDecode h.cfg.scratchLen .huffmanDecoder h.srcBuf with
        | .ok x => x == List.replicate 6 97
        | .error _ => false) = true) ∧
    (p.srcReady ∧ p.dstRoom 0 ∧ p.auxReady ∧ 8 ≤ p.latch.auxLen.toNat ∧ p.latch.dstCap.toNat < 3 ∧
      (match pipeBackward p.cfg.scratchLen p.srcBuf (rdLe32 (p.mem.readBuf p.latch.auxAddr.toNat 8) 0) with
        | .ok x => x == [97, 98, 97]
        | .error _ => false) = true) := by
  simp only [State.srcReady, State.dstRoom, State.auxReady]
  decide +kernel

/-- A completion, one that stores the record too, and one that changes OUT_LEN in a state of the invariant. -/
theorem witness_CommandFrame : (∃ t, exec .mtfEnc busyState = .next t ∧ (t.done && !t.warned) = true) ∧
    (∃ t, exec .pipeEnc (pipeEncOn [98, 97, 97] 8) = .next t ∧ decide (t.outLen = 1025) = true) ∧
    busyState.busy = true ∧ busyState.Inv ∧ ∃ t, engineStep busyState = .next t ∧
      (decide (t.unseen = [(.outLen, 0)]) && decide (t.reg .outLen ≠ busyState.reg .outLen)) = true :=
  ⟨exists_next (p := fun t => t.done && !t.warned) (by decide +kernel),
    exists_next (p := fun t => decide (t.outLen = 1025)) (by decide +kernel), by decide +kernel, busyState_inv,
    exists_next (p := fun t => decide (t.unseen = [(.outLen, 0)]) && decide (t.reg .outLen ≠ busyState.reg .outLen))
      (by decide +kernel)⟩

/-- Two states that differ in a byte outside the input. -/
theorem witness_OutcomeDependsOnInputsOnly :
    let s := pipeDecOn 4 8
    let s' := { s with mem := s.mem ++ [(0x8000, 7)] }
    s.cfg = s'.cfg ∧ s.latch = s'.latch ∧ (∀ a, a < 0x8000 → s.mem.read a = s'.mem.read a) ∧
    (∀ a, inRegion s.latch.srcAddr s.latch.srcLen a = true → a < 0x8000) ∧
    (∀ a, inRegion s.latch.auxAddr s.latch.auxLen a = true → a < 0x8000) ∧
    (∃ t, exec .pipeDec s = .next t ∧ t.warned = true) ∧ ∃ t, exec .pipeDec s' = .next t ∧ t.warned = true := by
  refine ⟨rfl, rfl, fun a ha => ?_, fun a ha => ?_, fun a ha => ?_,
    exists_next (p := fun t => t.warned) (by decide +kernel), exists_next (p := fun t => t.warned) (by decide +kernel)⟩
  · have h : (a == 0x8000) = false := by simp; omega
    simp only [Memory.read, lookup_append, List.lookup, h]
    cases List.lookup a (pipeDecOn 4 8).mem <;> rfl
  · simp [pipeDecOn, running, inRegion] at ha; omega
  · simp [pipeDecOn, running, inRegion] at ha; omega

/-- The record at the last bytes of DST: the two output regions overlap. -/
theorem witness_MetadataWinsWhereRegionsOverlap :
    ∃ t, exec .pipeEnc (running 0x0B (0x100, 1) (0x1000, 1025) (0x13FD, 8) 0 [(0x100, 97)]) = .next t ∧
      (t.done && decide (0 < t.outLen.toNat)) = true :=
  exists_next (p := fun t => t.done && decide (0 < t.outLen.toNat)) (by decide +kernel)

theorem witness_ResetMeetsTheInvariant : Config.legal ⟨1, 9216, 7⟩ = true ∧ Memory.wf [(0, 5)] ∧ Memory.inside 1 [(0, 5)] := by
  decide

/-- A step of each agent. -/
theorem witness_EveryStepKeepsTheInvariant : busyState.Inv ∧ State.reset.Inv ∧
    (∃ t, step busyState = .next t ∧ t.done = true) ∧
    (∃ t, step (hosting State.reset (scriptRun Config.vectors .saBuild)) = .next t ∧ t.busy = true) ∧
    ∃ t, step { busyState with turns := [.reset] } = .next t ∧ (!t.busy) = true :=
  ⟨busyState_inv, reset_inv, exists_next (p := fun t => t.done) (by decide +kernel),
    exists_next (p := fun t => t.busy) (by decide +kernel), exists_next (p := fun t => !t.busy) (by decide +kernel)⟩

/-- A command, and a host write. -/
theorem witness_MemoryChangesOnlyByItsWriters :
    (∃ t, step busyState = .next t ∧ decide (t.mem.read 0x1000 ≠ busyState.mem.read 0x1000) = true) ∧
    ∃ t, step (hosting State.reset (scriptMemw 9 [1])) = .next t ∧ decide (t.mem.read 9 ≠ State.reset.mem.read 9) = true :=
  ⟨exists_next (p := fun t => decide (t.mem.read 0x1000 ≠ busyState.mem.read 0x1000)) (by decide +kernel),
    exists_next (p := fun t => decide (t.mem.read 9 ≠ State.reset.mem.read 9)) (by decide +kernel)⟩

theorem witness_LatchIsNeverReadWithoutBusy : (hosting State.reset (scriptRun Config.vectors .saBuild)).busy = false ∧
    nextIs (step (hosting State.reset (scriptRun Config.vectors .saBuild))) (fun t => t.busy) = true := by decide +kernel

theorem witness_CountingSortIsStable : ∀ x ∈ [5, 3, 4], (fun x => x % 2) x < 2 := by decide

theorem witness_RerankFollowsThePairs : 0 < 2 ∧ [1, 0].Perm (List.range 2) := by decide

theorem witness_SuffixArraySortsTheSuffixes : [1, 0] = suffixArray [97, 97] ∧ [1, 0].Perm (List.range 2) ∧
    suffixBefore [97, 97] 1 0 := ⟨by decide +kernel, by decide, .cons (.nil)⟩

theorem witness_SaBuildWritesTheRecord : (on .saBuild [97] [] 4 0).srcReady ∧
    (on .saBuild [97] [] 4 0).dstRoom (4 * (on .saBuild [97] [] 4 0).latch.srcLen.toNat) ∧
    0 < (on .saBuild [97] [] 4 0).latch.srcLen.toNat := by
  simp only [State.srcReady, State.dstRoom]
  decide +kernel

theorem witness_BwtEncodeFollowsTheSuffixArray : banana ≠ [] ∧ 5 < banana.length := by decide

theorem witness_BwtEncWritesBytesAndPrimaryIndex : (on .bwtEnc [97] [] 1 0).srcReady ∧
    (on .bwtEnc [97] [] 1 0).dstRoom (on .bwtEnc [97] [] 1 0).latch.srcLen.toNat := by
  simp only [State.srcReady, State.dstRoom]
  decide +kernel

theorem witness_LfTableIsAPermutation : 5 < banana.length := by decide

/-- The largest index in range, and the empty buffer with any index. -/
theorem witness_BwtDecWalksTheLfTable :
    (∀ s ∈ [on .bwtDec [97, 97] [] 2 1, on .bwtDec [] [] 0 99], s.srcReady ∧ s.dstRoom s.latch.srcLen.toNat ∧
      (s.latch.srcLen = 0 ∨
        (0 ≤ s.latch.primaryIndex.toInt ∧ s.latch.primaryIndex.toInt < (s.latch.srcLen.toNat : Int)))) ∧
    5 < banana.length := by
  simp only [State.srcReady, State.dstRoom]
  decide +kernel

/-- The smallest index past the end, −1, and the empty buffer. -/
theorem witness_PrimaryIndexOutOfRange :
    (∀ s ∈ [on .bwtDec [97, 97] [] 2 2, on .bwtDec [97, 97] [] 2 0xFFFFFFFF], s.srcReady ∧ s.dstRoom 0 ∧
      s.latch.srcLen ≠ 0 ∧ (s.latch.primaryIndex.toInt < 0 ∨ (s.latch.srcLen.toNat : Int) ≤ s.latch.primaryIndex.toInt)) ∧
    (on .bwtDec [] [] 0 99).srcReady ∧ (on .bwtDec [] [] 0 99).dstRoom 0 ∧ (on .bwtDec [] [] 0 99).latch.srcLen = 0 := by
  simp only [State.srcReady, State.dstRoom]
  decide +kernel

theorem witness_MoveToFrontShiftsTheEntriesBefore : 0 < mtfIdentity.length ∧ 255 < mtfIdentity.length ∧
    mtfIdentity.Perm mtfIdentity := ⟨by decide +kernel, by decide +kernel, List.Perm.refl _⟩

theorem witness_MtfRoundTrip : ([0xFF] : Buffer) ≠ [] ∧ (on .mtfEnc [] [] 0 0).srcReady ∧ (on .mtfEnc [] [] 0 0).dstRoom 0 ∧
    (on .mtfEnc [] [] 0 0).latch.srcLen = 0 := by
  simp only [State.srcReady, State.dstRoom]
  decide +kernel

theorem witness_MtfCommandsWriteOneBytePerByte : busyState.srcReady ∧ busyState.dstRoom busyState.latch.srcLen.toNat ∧
    busyState.latch.srcLen ≠ 0 ∧ mtfIdentity.Perm mtfIdentity := by
  refine ⟨?_, ?_, by decide +kernel, List.Perm.refl _⟩ <;> simp only [State.srcReady, State.dstRoom] <;> decide +kernel

/-- The bytes of a run of 256 between two other bytes, and at the start of a buffer. -/
theorem witness_RleRoundTrip : 0 < 256 ∧ ([1] : Buffer).getLast? ≠ some 2 ∧ ([3] : Buffer).head? ≠ some 2 ∧
    ([] : Buffer).getLast? ≠ some 2 ∧ 2 * 0 < (rleEncode [7]).length := by decide

/-- The least capacity, one below it, and 40000 bytes, which fit DST and not the scratch (vector L6a). -/
theorem witness_RleEncWritesPairsOrReportsCapacity :
    let ok := on .rleEnc [97] [] 2 0
    let low := on .rleEnc [97] [] 1 0
    let big := running 6 (0, 40000) (0x10000, 80000) (0, 0) 0 []
    (ok.srcReady ∧ ok.dstRoom 0 ∧ ok.cfg.legal = true ∧ 2 * ok.latch.srcLen.toNat ≤ ok.latch.dstCap.toNat ∧
      2 * ok.latch.srcLen.toNat ≤ ok.cfg.scratchLen) ∧
    (low.srcReady ∧ low.dstRoom 0 ∧ low.latch.dstCap.toNat < 2 * low.latch.srcLen.toNat) ∧
    (big.srcReady ∧ big.dstRoom 0 ∧ 2 * big.latch.srcLen.toNat ≤ big.latch.dstCap.toNat ∧
      big.cfg.scratchLen < 2 * big.latch.srcLen.toNat) := by
  simp only [State.srcReady, State.dstRoom]
  decide +kernel

theorem witness_RleDecExpandsPairsOrReports :
    let ok := on .rleDec [2, 7] [] 2 0
    let low := on .rleDec [2, 7] [] 1 0
    let odd := on .rleDec [2] [] 2 0
    let big := { on .rleDec (List.replicate 37 [255, 7]).flatten [] 2 0 with cfg := ⟨0x100000, 9216, 0⟩ }
    (ok.srcReady ∧ ok.dstRoom 0 ∧ ok.latch.srcLen.toNat % 2 = 0 ∧ rleTotal ok.srcBuf ≤ ok.cfg.scratchLen ∧
      rleTotal ok.srcBuf ≤ ok.latch.dstCap.toNat) ∧
    (odd.srcReady ∧ odd.dstRoom 0 ∧ odd.latch.srcLen.toNat % 2 = 1) ∧
    (big.srcReady ∧ big.dstRoom 0 ∧ big.latch.srcLen.toNat % 2 = 0 ∧ big.cfg.legal = true ∧
      big.cfg.scratchLen < rleTotal big.srcBuf) ∧
    ([1, 2] : Buffer).length % 2 = 0 ∧
    (low.srcReady ∧ low.dstRoom 0 ∧ low.latch.srcLen.toNat % 2 = 0 ∧ rleTotal low.srcBuf ≤ low.cfg.scratchLen ∧
      low.latch.dstCap.toNat < rleTotal low.srcBuf) := by
  simp only [State.srcReady, State.dstRoom]
  decide +kernel

/-- The first and the last byte value. -/
theorem witness_FrequenciesCountPositions : 0 < (freqOf banana).length ∧ 255 < (freqOf banana).length := by decide +kernel

/-- Two nodes of equal frequency. -/
theorem witness_ExtractMinTakesTheSmallestPair :
    extractMin [.leaf 98 1 98, .leaf 97 1 97] = some (.leaf 97 1 97, [.leaf 98 1 98]) ∧
    buildTree (freqOf [97, 98]) = some (.node (.leaf 97 1 97) (.leaf 98 1 98) 2 256) := by decide +kernel

theorem witness_CodesArePrefixFreeAndBounded :
    codeFor (codeTable (freqOf banana)) 97 = some [false] ∧ codeFor (codeTable (freqOf banana)) 98 = some [true, false] ∧
    [false] <+: [false] ∧ leafAt (.node (.leaf 97 3 97) (.leaf 98 4 98) 7 256) [false] = some 97 := by decide +kernel

theorem witness_HufCodesWritesTheCodeTable :
    let low := running 8 (0, 1023) (0x8000, 0) (0, 0) 0 []
    let ok := running 8 (0, 1024) (0x8000, 9216) (0, 0) 0 []
    (low.srcReady ∧ low.dstRoom 0 ∧ low.latch.srcLen.toNat < 1024) ∧
    (ok.srcReady ∧ ok.dstRoom 0 ∧ 1024 ≤ ok.latch.srcLen.toNat ∧ 9216 ≤ ok.latch.dstCap.toNat) := by
  simp only [State.srcReady, State.dstRoom]
  decide +kernel

/-- A payload that fits exactly, one that DST does not hold, and one that a scratch of 1024 does not hold. The first and the last
entry of a table, the shortest buffer that holds one, and a code. -/
theorem witness_HufEncWritesThePayload :
    let ok := on .hufEnc [97, 98] [] 1025 0
    let low := on .hufEnc [97, 98] [] 1024 0
    let big := { on .hufEnc [97, 98] [] 1025 0 with cfg := ⟨0x100000, 1024, 0⟩ }
    (ok.srcReady ∧ ok.dstRoom 0 ∧ payloadLength (freqOf ok.srcBuf) ≤ ok.cfg.scratchLen ∧
      payloadLength (freqOf ok.srcBuf) ≤ ok.latch.dstCap.toNat) ∧
    (low.srcReady ∧ low.dstRoom 0 ∧ low.latch.dstCap.toNat < payloadLength (freqOf low.srcBuf)) ∧
    (big.srcReady ∧ big.dstRoom 0 ∧ big.cfg.scratchLen < payloadLength (freqOf big.srcBuf)) ∧
    (0 < 256 ∧ 255 < 256 ∧ 1024 ≤ (List.replicate 1024 0 : Buffer).length ∧
      codeFor (codeTable (freqOf banana)) 97 = some [false]) := by
  simp only [State.srcReady, State.dstRoom]
  decide +kernel

/-- The payload of "banana" with one byte after it. -/
theorem witness_HuffmanRoundTrip :
    let s := running 0x0A (0x4000, 1027) (0x1000, 6) (0, 0) 0 (bananaPayload ++ [(0x4402, 0xFF)])
    s.cfg.legal = true ∧ s.srcReady ∧ s.srcBuf = huffEncode banana ++ [0xFF] ∧ banana.length ≤ s.cfg.scratchLen ∧
    s.dstRoom banana.length := by
  simp only [State.srcReady, State.dstRoom]
  decide +kernel

theorem witness_HufDecReportsAndDegenerateTables :
    let low := running 0x0A (0x4000, 1023) (0x1000, 6) (0, 0) 0 []
    let zero := running 0x0A (0x4000, 1024) (0x1000, 6) (0, 0) 0 []
    let one := running 0x0A (0x4000, 1024) (0x1000, 6) (0, 0) 0 [(0x4184, 6)]
    let big := running 0x0A (0x4000, 1024) (0x1000, 6) (0, 0) 0 [(0x4003, 0xFF)]
    let two := running 0x0A (0x4000, 1024) (0x1000, 6) (0, 0) 0 [(0x4184, 1), (0x4188, 1)]
    (low.srcReady ∧ low.dstRoom 0 ∧ low.latch.srcLen.toNat < 1024) ∧
    (zero.srcReady ∧ zero.dstRoom 0 ∧ 1024 ≤ zero.latch.srcLen.toNat ∧ (readFreqs zero.srcBuf).sum = 0) ∧
    (one.srcReady ∧ one.dstRoom 0 ∧ 6 ≤ one.latch.dstCap.toNat ∧
      readFreqs one.srcBuf = (List.replicate 256 0).set (97 : Byte).toNat 6) ∧
    (big.srcReady ∧ big.dstRoom 0 ∧ big.cfg.scratchLen < (readFreqs big.srcBuf).sum) ∧
    (two.srcReady ∧ two.dstRoom 0 ∧ (readFreqs two.srcBuf).sum ≤ two.cfg.scratchLen ∧ two.latch.srcLen.toNat = 1024 ∧
      2 ≤ ((readFreqs two.srcBuf).filter (fun f => decide (f ≠ 0))).length) := by
  simp only [State.srcReady, State.dstRoom]
  decide +kernel

/-- The first and the last byte of a word. -/
theorem witness_MetadataRecordReadsBack : 0 < 4 ∧ 3 < 4 := by decide

theorem witness_PipeEncWritesPayloadAndMetadata :
    let s := pipeEncOn [98, 97, 97] 8
    s.srcReady ∧ s.auxReady ∧ 2 * s.latch.srcLen.toNat ≤ s.cfg.scratchLen ∧
    payloadLength (freqOf (forwardStream s.srcBuf)) ≤ s.cfg.scratchLen ∧
    s.dstRoom (payloadLength (freqOf (forwardStream s.srcBuf))) ∧ 8 ≤ s.latch.auxLen.toNat := by
  simp only [State.srcReady, State.dstRoom, State.auxReady]
  decide +kernel

/-- The table of "banana", its payload cut to 8 bits: the 5 symbols before the bits end (vector H9). And 6 symbols that no encoder
gives with this table. -/
theorem witness_HufDecReportsAndDegenerateTables_codes :
    let s := running 0x0A (0x4000, 1025) (0x1000, 6) (0, 0) 0 bananaPayload
    let z := running 0x0A (0x4000, 1025) (0x1000, 6) (0, 0) 0 [(0x4184, 3), (0x4188, 1), (0x41B8, 2)]
    let code := codeTable (readFreqs s.srcBuf)
    let noCode := fun rest : Bits => code.all (fun e => !e.2.isPrefixOf rest)
    (s.srcReady ∧ s.dstRoom 0 ∧ (readFreqs s.srcBuf).sum = 6 ∧
      2 ≤ ((readFreqs s.srcBuf).filter (fun f => decide (f ≠ 0))).length ∧
      ([98, 97, 110, 97, 110] : Buffer).all (fun b => (codeFor code b).isSome) = true ∧
      unpackBits (s.srcBuf.drop 1024) = codeBits code [98, 97, 110, 97, 110] ++ [] ∧ noCode [] = true) ∧
    (z.srcReady ∧ z.dstRoom 0 ∧ (readFreqs z.srcBuf).sum = 6 ∧ 6 ≤ z.latch.dstCap.toNat ∧
      unpackBits (z.srcBuf.drop 1024) = codeBits (codeTable (readFreqs z.srcBuf)) (List.replicate 6 97) ++
        [false, false]) := by
  simp only [State.srcReady, State.dstRoom]
  decide +kernel

/-- 40000 bytes (vector P5c); a scratch of 1024; an AUX region of 7 bytes. -/
theorem witness_PipeEncErrorsNameTheirStage :
    let long := running 0x0B (0, 40000) (0x10000, 80000) (0, 8) 0 []
    let big := { pipeEncOn [98, 97, 97] 8 with cfg := ⟨0x100000, 1024, 0⟩ }
    let short := pipeEncOn [98, 97, 97] 7
    (long.srcReady ∧ long.auxReady ∧ long.dstRoom 0 ∧ long.cfg.scratchLen < 2 * long.latch.srcLen.toNat) ∧
    (big.srcReady ∧ big.auxReady ∧ big.dstRoom 0 ∧ 2 * big.latch.srcLen.toNat ≤ big.cfg.scratchLen ∧
      big.cfg.scratchLen < payloadLength (freqOf (forwardStream big.srcBuf))) ∧
    (short.srcReady ∧ short.auxReady ∧ short.dstRoom 0 ∧ 2 * short.latch.srcLen.toNat ≤ short.cfg.scratchLen ∧
      payloadLength (freqOf (forwardStream short.srcBuf)) ≤ short.cfg.scratchLen ∧
      payloadLength (freqOf (forwardStream short.srcBuf)) ≤ short.latch.dstCap.toNat ∧ short.latch.auxLen.toNat < 8) := by
  simp only [State.srcReady, State.dstRoom, State.auxReady]
  decide +kernel

theorem witness_ShortMetadataEndsPipeDec : ∀ s ∈ [pipeDecOn 3 0, pipeDecOn 3 1, pipeDecOn 3 7],
    s.srcReady ∧ s.auxReady ∧ s.dstRoom 0 ∧
      (s.latch.auxLen = 0 ∨ 1 ≤ s.latch.auxLen.toNat ∧ s.latch.auxLen.toNat ≤ 7) := by
  simp only [State.srcReady, State.dstRoom, State.auxReady]
  decide +kernel

/-- The right length and a wrong one. -/
theorem witness_LengthMismatchIsAWarning : ∀ s ∈ [pipeDecOn 3 8, pipeDecOn 4 8],
    s.srcReady ∧ s.auxReady ∧ 8 ≤ s.latch.auxLen.toNat ∧ s.dstRoom ([97, 98, 97] : Buffer).length ∧
    (match pipeBackward s.cfg.scratchLen s.srcBuf (rdLe32 (s.mem.readBuf s.latch.auxAddr.toNat 8) 0) with
      | .ok x => x == [97, 98, 97]
      | .error _ => false) = true ∧
    (3 = (rdLe32 (s.mem.readBuf s.latch.auxAddr.toNat 8) 4).toNat ↔ s = pipeDecOn 3 8) := by
  simp only [State.srcReady, State.dstRoom, State.auxReady]
  decide +kernel

/-- "baa", which does not come back as itself (vectors P5a, P6). -/
theorem witness_PipelineRoundTripUpToTheBwt :
    let s := pipeDecOn 3 8
    let x : Buffer := [98, 97, 97]
    s.cfg.legal = true ∧ s.srcReady ∧ s.auxReady ∧ 8 ≤ s.latch.auxLen.toNat ∧ x.length ≤ s.cfg.scratchLen ∧
    (forwardStream x).length ≤ s.cfg.scratchLen ∧ s.dstRoom x.length ∧ s.srcBuf = huffEncode (forwardStream x) ∧
    s.mem.readBuf s.latch.auxAddr.toNat 8 =
      metadataRecord (BitVec.ofNat 32 (bwtEncode x).2) (BitVec.ofNat 32 x.length) := by
  simp only [State.srcReady, State.dstRoom, State.auxReady]
  decide +kernel

/-- A PIPE_DEC of the payload of a stream, with primary index `p` in the record. -/
def pipeDecOf (stream : Buffer) (p : Byte) : State :=
  running 0x0C (0x4000, BitVec.ofNat 32 (huffEncode stream).length) (0x1000, 8) (0x200, 8) 7
    (Memory.write [(0x200, p)] 0x4000 (huffEncode stream))

/-- A record in order, and a Huffman stage that gives the stream or an error. -/
def pipeDecRuns (s : State) (stream : Option Buffer) : Bool :=
  decide (s.latch.srcAddr.toNat + s.latch.srcLen.toNat ≤ s.cfg.memBytes) && decide (s.latch.srcLen.toNat ≤ s.cfg.scratchLen) &&
  decide (s.latch.auxAddr.toNat + s.latch.auxLen.toNat ≤ s.cfg.memBytes) &&
  decide (s.latch.dstAddr.toNat + s.latch.dstCap.toNat ≤ s.cfg.memBytes) && decide (8 ≤ s.latch.auxLen.toNat) &&
  match huffDecode s.cfg.scratchLen .huffmanDecoder s.srcBuf, stream with
  | .ok r, some x => r == x
  | .error _, none => true
  | _, _ => false

/-- A short table; a stream of one byte; 37 runs of 255 copies, above a scratch of 9216; three bytes decoded with the primary
indices 3 and 2; and a stream of no bytes. The last clause: an error. -/
theorem witness_PipeDecErrorsNameTheirStage :
    let short := { pipeDecOn 3 8 with latch := ⟨0x0C, 0x4000, 1023, 0x1000, 8, 0x200, 8, 0⟩ }
    let runs : Buffer := (List.replicate 37 [255, 7]).flatten
    let big := { pipeDecOf runs 0 with cfg := ⟨0x100000, 9216, 0⟩ }
    pipeDecRuns short none = true ∧ pipeDecRuns (pipeDecOf [5] 0) (some [5]) = true ∧
    (pipeDecRuns big (some runs) = true ∧ runs.length % 2 = 0 ∧ big.cfg.scratchLen < rleTotal runs) ∧
    (∀ p ∈ [2, 3], pipeDecRuns (pipeDecOf [3, 9] p) (some [3, 9]) = true ∧
      (rdLe32 ((pipeDecOf [3, 9] p).mem.readBuf 0x200 8) 0).toInt = p.toNat) ∧ rleTotal [3, 9] = 3 ∧
    (pipeDecRuns (pipeDecOf [] 0) (some []) = true ∧ rleTotal [] = 0) ∧
    nextIs (exec .pipeDec (pipeDecOn 3 4)) (fun t => t.error) = true := by decide +kernel

end Sys2Proof.Tests
end

section
/-! SUPPORT. The register window (10_state.md sections 2 and 4): which accesses have a meaning and what each one does, what a
host statement does to STATUS and to `L`, and the reserved bits. -/

namespace Sys2Proof.Machine

/-! ### Addresses of the window (R33, R34) -/

/-- R34: the accesses that have a meaning, by the address the host gives. -/
theorem regAccess_eq_ok {c : Config} {width : AccessWidth} {address offset : Nat} :
    regAccess c width address = .ok offset ↔
      width = .word ∧ address = c.regBase + offset ∧ offset < windowBytes ∧ offset % 4 = 0 := by
  simp only [regAccess]
  split
  · next hw => simp [hw]
  · next hw =>
    split
    · next ho => simp; omega
    · next ho =>
      split
      · next hu => simp; omega
      · next hu => simp only [Except.ok.injEq, Decidable.not_not.mp hw, true_and]; omega

theorem RegName.offset_lt (r : RegName) : r.offset < windowBytes := by cases r <;> decide

theorem RegName.offset_aligned (r : RegName) : r.offset % 4 = 0 := by cases r <;> rfl

theorem regAccess_register (c : Config) (r : RegName) : regAccess c .word (c.regBase + r.offset) = .ok r.offset :=
  regAccess_eq_ok.mpr ⟨rfl, rfl, r.offset_lt, r.offset_aligned⟩

@[simp] theorem regAt_offset (r : RegName) : regAt r.offset = some r := by cases r <;> rfl

/-- Each offset that names a register is that register's own. -/
theorem offset_of_regAt {offset : Nat} {r : RegName} (h : regAt offset = some r) : offset = r.offset := by
  simp only [regAt] at h
  split at h <;> cases h <;> rfl

/-- R33: past MEM_TOP no register is named. -/
theorem regAt_reserved {offset : Nat} (h : 0x44 ≤ offset) : regAt offset = none := by
  cases hr : regAt offset with
  | none => rfl
  | some r =>
    have hle : r.offset ≤ 0x40 := by cases r <;> decide
    have := offset_of_regAt hr
    omega

/-- An access to the window is refused, names a register by its own address, or names a reserved offset. -/
theorem regAccess_cases (c : Config) (width : AccessWidth) (address : Nat) :
    (∃ e, regAccess c width address = .error e) ∨
    (∃ r, width = .word ∧ address = c.regBase + RegName.offset r) ∨
    (∃ offset, regAccess c width address = .ok offset ∧ regAt offset = none) := by
  cases ha : regAccess c width address with
  | error e => exact .inl ⟨e, rfl⟩
  | ok offset =>
    cases hr : regAt offset with
    | none => exact .inr (.inr ⟨offset, rfl, hr⟩)
    | some r =>
      obtain ⟨hw, haddr, -, -⟩ := regAccess_eq_ok.mp ha
      exact .inr (.inl ⟨r, hw, offset_of_regAt hr ▸ haddr⟩)

/-! ### Host accesses to the window -/

theorem hostRegWrite_refused {s : State} {width : AccessWidth} {address : Nat} {r : Refusal} (v : Word)
    (h : regAccess s.cfg width address = .error r) : hostRegWrite width address v s = .refused r := by
  simp [hostRegWrite, h]

theorem hostRegRead_refused {s : State} {width : AccessWidth} {address : Nat} {r : Refusal}
    (h : regAccess s.cfg width address = .error r) : hostRegRead width address s = .refused r := by
  simp [hostRegRead, h]

theorem hostRegWrite_register (s : State) (v : Word) (r : RegName) :
    hostRegWrite .word (s.cfg.regBase + r.offset) v s = .next (s.hostWriteReg v r) := by
  simp [hostRegWrite, regAccess_register]

theorem hostRegRead_register (s : State) (r : RegName) :
    hostRegRead .word (s.cfg.regBase + r.offset) s = .next (s.hostReadReg r) := by
  simp [hostRegRead, regAccess_register]

theorem hostRegWrite_reserved {s : State} {width : AccessWidth} {address offset : Nat} (v : Word)
    (h : regAccess s.cfg width address = .ok offset) (hr : regAt offset = none) :
    hostRegWrite width address v s = .next s := by
  simp [hostRegWrite, h, hr]

theorem hostRegRead_reserved {s : State} {width : AccessWidth} {address offset : Nat}
    (h : regAccess s.cfg width address = .ok offset) (hr : regAt offset = none) :
    hostRegRead width address s = .next { s with rdata := 0 } := by
  simp [hostRegRead, h, hr]

/-- A register write that answers a next state names a register by its own address, or is ignored. -/
theorem hostRegWrite_cases {s t : State} {width : AccessWidth} {address : Nat} {v : Word}
    (h : hostRegWrite width address v s = .next t) :
    (∃ r, width = .word ∧ address = s.cfg.regBase + RegName.offset r ∧ t = s.hostWriteReg v r) ∨ t = s := by
  rcases regAccess_cases s.cfg width address with ⟨e, he⟩ | ⟨r, rfl, rfl⟩ | ⟨offset, ha, hr⟩
  · rw [hostRegWrite_refused v he] at h
    cases h
  · rw [hostRegWrite_register] at h
    cases h
    exact .inl ⟨r, rfl, rfl, rfl⟩
  · rw [hostRegWrite_reserved v ha hr] at h
    cases h
    exact .inr rfl

/-- A register read that answers a next state names a register by its own address, or gives 0. -/
theorem hostRegRead_cases {s t : State} {width : AccessWidth} {address : Nat}
    (h : hostRegRead width address s = .next t) :
    (∃ r, width = .word ∧ address = s.cfg.regBase + RegName.offset r ∧ t = s.hostReadReg r) ∨
      t = { s with rdata := 0 } := by
  rcases regAccess_cases s.cfg width address with ⟨e, he⟩ | ⟨r, rfl, rfl⟩ | ⟨offset, ha, hr⟩
  · rw [hostRegRead_refused he] at h
    cases h
  · rw [hostRegRead_register] at h
    cases h
    exact .inl ⟨r, rfl, rfl, rfl⟩
  · rw [hostRegRead_reserved ha hr] at h
    cases h
    exact .inr rfl

/-- The host's step when a register write is the head of its script (R101). -/
theorem step_scriptWr {s : State} {r : RegName} {v : Word} {rest : List HostOp} (hn : s.nextTurn = .host)
    (hs : s.script = scriptWr s.cfg r v ++ rest) :
    step s = .next (({ s with script := rest, turns := s.turns.drop 1 } : State).hostWriteReg v r) := by
  calc step s = hostStep s.takeTurn := step_of_host hn
    _ = hostRegWrite .word (s.cfg.regBase + r.offset) v { s with script := rest, turns := s.turns.drop 1 } := by
      simp only [hostStep, State.takeTurn, hs, scriptWr, List.singleton_append, hostOp]
    _ = _ := hostRegWrite_register _ v r

/-! ### Host accesses to buffer memory (R60, R72) -/

theorem hostMemWrite_eq_next {s t : State} {address : Nat} {v : Byte} :
    hostMemWrite address v s = .next t ↔
      address < s.cfg.memBytes ∧ hostMayNotWrite s.held address = false ∧
        t = { s with mem := s.mem.write address [v] } := by
  by_cases ha : s.cfg.memBytes ≤ address
  · simp [hostMemWrite, ha, Nat.not_lt.mpr ha]
  · cases hw : hostMayNotWrite s.held address <;> simp [hostMemWrite, ha, hw, Nat.lt_of_not_le ha, eq_comm]

theorem hostMemRead_eq_next {s t : State} {address : Nat} :
    hostMemRead address s = .next t ↔
      address < s.cfg.memBytes ∧ hostMayNotRead s.held address = false ∧
        t = { s with rdata := (s.mem.read address).setWidth 32 } := by
  by_cases ha : s.cfg.memBytes ≤ address
  · simp [hostMemRead, ha, Nat.not_lt.mpr ha]
  · cases hr : hostMayNotRead s.held address <;> simp [hostMemRead, ha, hr, Nat.lt_of_not_le ha, eq_comm]

/-! ### What a host statement leaves alone -/

/-- R36: `L` is fixed while BUSY. -/
theorem State.hostWriteReg_latch_of_busy {s : State} (v : Word) (r : RegName) (h : s.busy = true) :
    (s.hostWriteReg v r).latch = s.latch := by
  cases r with
  | cmd =>
    calc (s.issue v).latch = s.ignoreCmd.latch := by rw [State.issue_busy v h]
      _ = s.latch := State.ignoreCmd_latch s
  | _ => rfl

theorem State.hostWriteReg_status {r : RegName} (s : State) (v : Word) (hr : r ≠ .cmd) :
    (s.hostWriteReg v r).status = s.status := by
  cases r with
  | cmd => exact absurd rfl hr
  | _ => rfl

@[simp] theorem State.observe_status (s : State) : s.observe.status = s.status := by
  cases h : s.busy <;> simp [h]

@[simp] theorem State.hostReadReg_keeps_status (s : State) (r : RegName) : (s.hostReadReg r).status = s.status := by
  by_cases hr : r = .status
  · subst hr
    simp [State.hostReadReg_status]
  · cases hl : s.unseen.lookup r with
    | none => rw [State.hostReadReg_synchronised hr hl]
    | some old =>
      obtain ⟨v, -, hv⟩ := State.hostReadReg_unsynchronised hr hl
      rw [hv]

/-- R38: of all host statements only a CMD write changes STATUS. -/
theorem hostOp_status_changed {op : HostOp} {s t : State} (h : hostOp op s = .next t) (hst : t.status ≠ s.status) :
    ∃ w, op = .regWrite .word (s.cfg.regBase + RegName.cmd.offset) w := by
  cases op with
  | regWrite width address v =>
    rcases hostRegWrite_cases h with ⟨r, rfl, rfl, rfl⟩ | rfl
    · by_cases hr : r = .cmd
      · exact ⟨v, by rw [hr]⟩
      · exact absurd (s.hostWriteReg_status v hr) hst
    · exact absurd rfl hst
  | regRead width address =>
    rcases hostRegRead_cases h with ⟨r, -, -, rfl⟩ | rfl
    · exact absurd (s.hostReadReg_keeps_status r) hst
    · exact absurd rfl hst
  | memWrite address v =>
    obtain ⟨-, -, rfl⟩ := hostMemWrite_eq_next.mp h
    exact absurd rfl hst
  | memRead address =>
    obtain ⟨-, -, rfl⟩ := hostMemRead_eq_next.mp h
    exact absurd rfl hst
  | wait =>
    cases h
    exact absurd (s.hostReadReg_keeps_status .status) hst

/-! ### Reserved bits (R23, R24, R33) -/

/-- R23: STATUS has no bit above OVERRUN. -/
theorem statusLegal_lt {w : Word} (h : statusLegal w = true) : w.toNat < 2 ^ 5 := by
  simp only [statusLegal, List.contains_iff_mem, List.mem_cons, List.not_mem_nil, or_false] at h
  omega

/-- R24: ERR has no bit above STAGE. -/
theorem errLegal_lt {w : Word} (h : errLegal w = true) : w.toNat < 2 ^ 16 := by
  simp only [errLegal, Bool.and_eq_true, decide_eq_true_eq] at h
  obtain ⟨⟨hcode, hstage⟩, -⟩ := h
  omega

/-- A value of ERR from before a completion is the 0 of the acceptance (R36, R307). -/
theorem unseen_err_eq_zero {s : State} {old : Word} (h : unseenAgrees s = true) (hl : s.unseen.lookup .err = some old) :
    old = 0 := by
  obtain ⟨l₁, l₂, hu, -⟩ := List.lookup_eq_some_iff.mp hl
  have he : (RegName.err, old) ∈ s.unseen := by simp [hu]
  simpa using List.all_eq_true.mp h _ he

/-- The host reads ERR as it stands or as 0 (R71, R307). -/
theorem State.hostReadReg_err_rdata {s : State} (h : unseenAgrees s = true) :
    (s.hostReadReg .err).rdata = s.err ∨ (s.hostReadReg .err).rdata = 0 := by
  cases hl : s.unseen.lookup .err with
  | none => rw [State.hostReadReg_synchronised (by decide) hl]; exact .inl rfl
  | some old =>
    obtain ⟨v, hv, hr⟩ := State.hostReadReg_unsynchronised (by decide) hl
    rw [hr]
    exact hv.imp_right (·.trans (unseen_err_eq_zero h hl))

theorem reservedBits_zero {s : State} (h : s.Inv) :
    (s.reg .status).toNat / 2 ^ 5 = 0 ∧ (s.reg .err).toNat / 2 ^ 16 = 0 ∧
    (s.hostReadReg .status).rdata.toNat / 2 ^ 5 = 0 ∧ (s.hostReadReg .err).rdata.toNat / 2 ^ 16 = 0 := by
  have hstatus : s.status.toNat / 2 ^ 5 = 0 := Nat.div_eq_of_lt (statusLegal_lt h.statusLegal)
  have herr : s.err.toNat / 2 ^ 16 = 0 := Nat.div_eq_of_lt (errLegal_lt h.errLegal)
  refine ⟨hstatus, herr, hstatus, ?_⟩
  rcases State.hostReadReg_err_rdata h.unseenAgrees with he | he
  · rw [he, herr]
  · rw [he]; rfl

end Sys2Proof.Machine
end


section
/-! PROOFS. The obligations O5, O6, O8, O9 and O12: command issue, the phases, reserved offsets and bits, the constants, and
the accesses that have a meaning. -/

namespace Sys2Proof.Machine

/-- Settles O5: a CMD write is `State.issue`, and every other write leaves `L` alone. -/
theorem cmdWriteIssuesACommand : Obligations.CmdWriteIssuesACommand := by
  unfold Obligations.CmdWriteIssuesACommand
  refine ⟨fun s w rest hn hs => ?_, fun s w ⟨e, he⟩ => ?_, fun s v r hb => State.hostWriteReg_latch_of_busy v r hb⟩
  · rw [step_scriptWr hn hs]
    exact ⟨fun hb => congrArg _ (State.issue_busy w hb), fun hb => ⟨_, _, congrArg _ (State.issue_not_busy w hb)⟩⟩
  · exact ⟨_, engineStep_illegal (State.accept_busy w s) he⟩

/-- Settles O6: the engine's turn changes nothing, and of the host's statements only a CMD write changes STATUS. -/
theorem onlyCmdWriteOrResetLeavesAPhase : Obligations.OnlyCmdWriteOrResetLeavesAPhase := by
  unfold Obligations.OnlyCmdWriteOrResetLeavesAPhase
  refine fun s hb => ⟨engineStep_idle hb, fun t ht hst => ?_⟩
  rcases step_cases ht with ⟨-, he⟩ | ⟨hn, hh⟩ | ⟨hn, -⟩
  · rw [engineStep_idle (s := s.takeTurn) hb] at he
    cases he
    exact absurd rfl hst
  · rcases hostStep_cases hh with ⟨-, rfl⟩ | ⟨op, rest, hs, hop⟩
    · exact absurd rfl hst
    · obtain ⟨w, rfl⟩ := hostOp_status_changed hop hst
      exact .inr ⟨hn, w, rest, hs⟩
  · exact .inl hn

/-- Settles O8: no register is named past MEM_TOP, and the invariant bounds STATUS, ERR and what a host can read of them. -/
theorem reservedOffsetsAndBitsReadZero : Obligations.ReservedOffsetsAndBitsReadZero := by
  unfold Obligations.ReservedOffsetsAndBitsReadZero
  refine ⟨fun s k hlo hhi => ?_, fun s h => reservedBits_zero h, fun s w => State.accept_cmd w s⟩
  have ha : regAccess s.cfg .word (s.cfg.regBase + 4 * k) = .ok (4 * k) :=
    regAccess_eq_ok.mpr ⟨rfl, rfl, by simp only [windowBytes]; omega, by omega⟩
  exact ⟨fun v => hostRegWrite_reserved v ha (regAt_reserved hlo), hostRegRead_reserved ha (regAt_reserved hlo)⟩

/-- Settles O9: a legal parameter fits its register, and neither a host write nor reset touches the parameters. -/
theorem constantsReadTheirParameters : Obligations.ConstantsReadTheirParameters := by
  unfold Obligations.ConstantsReadTheirParameters
  intro s hc
  simp only [Config.legal, Bool.and_eq_true, decide_eq_true_eq] at hc
  obtain ⟨⟨⟨hmem1, hmem⟩, hscratch1⟩, hscratch⟩ := hc
  refine ⟨rfl, Nat.mod_eq_of_lt (by omega), Nat.mod_eq_of_lt (by omega), fun r hr => ?_⟩
  simp only [List.mem_cons, List.not_mem_nil, or_false] at hr
  rcases hr with rfl | rfl | rfl <;> exact ⟨rfl, fun _ => rfl⟩

/-- Settles O12: inside the window the width and the alignment alone decide whether `regAccess` answers an offset. -/
theorem subWordAndUnalignedAccessesRefused : Obligations.SubWordAndUnalignedAccessesRefused := by
  unfold Obligations.SubWordAndUnalignedAccessesRefused
  refine fun s width address v hlo hhi => ⟨fun hbad => ?_, fun hw hal => ?_⟩
  · cases ha : regAccess s.cfg width address with
    | error r => exact ⟨r, hostRegWrite_refused v ha, hostRegRead_refused ha⟩
    | ok offset =>
      obtain ⟨hw, haddr, -, hal⟩ := regAccess_eq_ok.mp ha
      exact absurd hal (by simpa [hw, haddr] using hbad)
  · have ha : regAccess s.cfg width address = .ok (address - s.cfg.regBase) :=
      regAccess_eq_ok.mpr ⟨hw, by omega, by simp only [windowBytes]; omega, hal⟩
    rcases regAccess_cases s.cfg width address with ⟨e, he⟩ | ⟨r, rfl, rfl⟩ | ⟨offset, ho, hr⟩
    · rw [ha] at he
      cases he
    · exact ⟨⟨_, hostRegWrite_register s v r⟩, _, hostRegRead_register s r⟩
    · exact ⟨⟨_, hostRegWrite_reserved v ho hr⟩, _, hostRegRead_reserved ho hr⟩

end Sys2Proof.Machine
end


section
/-! SUPPORT. A command that ends with an error (R271, R273): the ending seen as the report the frame gives, and the regions
that make it ADDR_RANGE (R61). -/

namespace Sys2Proof.Machine

/-! ### Which commands use their AUX region (R28) -/

theorem auxUse_isSome {i : Instr} : (auxUse i).isSome = true ↔ i = .pipeEnc ∨ i = .pipeDec := by
  cases i <;> decide

/-- R61: some region the command uses ends past the memory. -/
theorem not_regionsValid {i : Instr} {n : Nat} {l : Latch} :
    ¬ RegionsValid i n l ↔
      n < l.srcAddr.toNat + l.srcLen.toNat ∨ n < l.dstAddr.toNat + l.dstCap.toNat ∨
        ((i = .pipeEnc ∨ i = .pipeDec) ∧ n < l.auxAddr.toNat + l.auxLen.toNat) := by
  simp only [RegionsValid, Classical.not_and_iff_not_or_not, Classical.not_imp, not_le, auxUse_isSome]

/-! ### Endings with an error -/

@[simp] theorem State.errorWith_error (s : State) (code : ErrCode) (stage : Stage) (i0 i1 : Word) :
    (s.errorWith code stage i0 i1).error = true := by
  simp [State.error, State.errorWith, statusError, statusOverrun]

/-- `State.errorWith` writes what the error entry writes, up to `unseen` (R271). -/
theorem State.raiseError_eq_errorWith (s : State) (code : ErrCode) (stage : Stage) (i0 i1 : Word) :
    s.raiseError ⟨code, stage, i0, i1⟩ =
      { s.errorWith code stage i0 i1 with unseen := s.before [.err, .errInfo0, .errInfo1] } := by
  simp only [State.raiseError, State.errorWith, errWord, statusOnError]

/-- A command ends with an error exactly when the frame reports that error: a completion never sets ERROR, and the error
registers determine the report. -/
theorem endsIn_errorWith {i : Instr} {s : State} {code : ErrCode} {stage : Stage} {i0 i1 : Word} :
    EndsIn i s (s.errorWith code stage i0 i1) ↔ frameResult i (bodyOf i) s = .error ⟨code, stage, i0, i1⟩ := by
  simp only [EndsIn, exec_eq_execute]
  constructor
  · rintro ⟨u, hu⟩
    rcases execute_cases i (bodyOf i) s with ⟨res, -, hx⟩ | ⟨r, hf, hx⟩
    · have ht := Host.Outcome.next.inj (hx.symm.trans hu)
      have he : (s.complete res).error = true :=
        (congrArg State.error ht).trans (State.errorWith_error s code stage i0 i1)
      simp at he
    · have ht := Host.Outcome.next.inj (hx.symm.trans hu)
      obtain ⟨rfl, rfl⟩ : r.stage = stage ∧ r.code = code := errWord_inj (congrArg State.err ht)
      obtain rfl : r.info0 = i0 := congrArg State.errInfo0 ht
      obtain rfl : r.info1 = i1 := congrArg State.errInfo1 ht
      exact hf
  · exact fun hf => ⟨_, (execute_of_error hf).trans (congrArg _ (State.raiseError_eq_errorWith s code stage i0 i1))⟩

/-- The frame reports ADDR_RANGE exactly when a region the command uses is not valid (R61, R273). -/
theorem frameResult_addrRange {i : Instr} {s : State} :
    (∃ region len, frameResult i (bodyOf i) s = .error ⟨.addrRange, .frame, region, len⟩) ↔
      ¬ RegionsValid i s.cfg.memBytes s.latch := by
  constructor
  · rintro ⟨region, len, hf⟩
    exact (frameResult_error_code hf).2.mp rfl
  · intro hv
    cases hr : regionChecks i s.cfg.memBytes s.latch with
    | ok u => exact absurd (regionChecks_eq_ok.mp hr) hv
    | error r =>
      obtain ⟨code, stage, region, len⟩ := r
      obtain ⟨rfl, rfl, -⟩ := regionChecks_error hr
      exact ⟨region, len, frameResult_eq_error.mpr (.inl hr)⟩

end Sys2Proof.Machine
end


section
/-! PROOFS. The obligation O20: invalid regions, and only they, end with ADDR_RANGE. -/

namespace Sys2Proof.Machine

/-- Settles O20: the ending is the frame's report, and the frame reports ADDR_RANGE only from its region checks. -/
theorem invalidRegionsEndWithAddrRange : Obligations.InvalidRegionsEndWithAddrRange := by
  unfold Obligations.InvalidRegionsEndWithAddrRange
  intro i s
  simp only [endsIn_errorWith]
  exact not_regionsValid.symm.trans frameResult_addrRange.symm

end Sys2Proof.Machine
end


section
/-! SUPPORT. What a rejected command word and a little-endian word look like: the words the decoder answers with an error
(R91, R93), and the bytes of `le32` (R16, R63). -/

namespace Sys2Proof.Machine

/-- R93: the decoder rejects exactly the words whose opcode is 0x00 or 0x0D–0xFF, or whose reserved bits are not zero. -/
theorem decode_eq_error_iff {w : Word} :
    (∃ e, decode w = .error e) ↔ w.toNat % 256 = 0 ∨ 0x0D ≤ w.toNat % 256 ∨ w.toNat / 256 ≠ 0 := by
  have hacc : (∃ i, decode w = .ok i) ↔ 1 ≤ w.toNat ∧ w.toNat ≤ 12 :=
    (decode_accepts w).trans (by simp [cmdWordWellFormed])
  cases hd : decode w with
  | ok i =>
    have hlegal := hacc.mp ⟨i, hd⟩
    simp only [reduceCtorEq, exists_false, false_iff]
    omega
  | error e =>
    have hillegal : ¬ (1 ≤ w.toNat ∧ w.toNat ≤ 12) := by simp [← hacc, hd]
    simp only [Except.error.injEq, exists_eq', true_iff]
    omega

/-- Byte `k` of `le32 v` is digit `k` of `v` in base 256 (R16). -/
theorem byteAt_le32_toNat (v : Word) {k : Nat} (hk : k < 4) :
    (byteAt (le32 v) k).toNat = v.toNat / 2 ^ (8 * k) % 256 := by
  have hbyte : byteAt (le32 v) k = v.extractLsb' (8 * k) 8 := by
    interval_cases k <;> rfl
  rw [hbyte, BitVec.extractLsb'_toNat, Nat.shiftRight_eq_div_pow]

end Sys2Proof.Machine
end


section
/-! PROOFS. The obligations O4 and O54: what an illegal word does, and how the metadata record reads back. -/

namespace Sys2Proof.Machine

/-- Settles O4: the decoder rejects the latched word, so the engine's turn is the error entry with ILLEGAL_CMD, which
writes no memory. -/
theorem illegalWordsCompleteWithIllegalCmd : Obligations.IllegalWordsCompleteWithIllegalCmd := by
  unfold Obligations.IllegalWordsCompleteWithIllegalCmd
  intro s hn hb hw
  obtain ⟨e, he⟩ := decode_eq_error_iff.mpr hw
  refine ⟨s.takeTurn.before [.err, .errInfo0, .errInfo1], ?_⟩
  calc step s = engineStep s.takeTurn := step_of_engine hn
    _ = .next (s.takeTurn.raiseError ⟨.illegalCmd, .frame, s.latch.cmd, 0⟩) :=
      engineStep_illegal (s := s.takeTurn) hb he
    _ = _ := congrArg _ (State.raiseError_eq_errorWith s.takeTurn .illegalCmd .frame s.latch.cmd 0)

/-- Settles O54: the record is two `le32` words one after the other, each read back by `rd_le32` and byte by byte. -/
theorem metadataRecordReadsBack : Obligations.MetadataRecordReadsBack := by
  unfold Obligations.MetadataRecordReadsBack
  intro p n
  have hfirst : rdLe32 (metadataRecord p n) 0 = p := rdLe32_le32 p (le32 n)
  have hsecond : rdLe32 (metadataRecord p n) 4 = n :=
    (rdLe32_append (le32 p) (le32 n) 0).trans (rdLe32_le32 n [])
  refine ⟨rfl, hfirst, hsecond, fun k hk => ⟨?_, ?_⟩⟩
  · calc (byteAt (metadataRecord p n) k).toNat = (byteAt (le32 p) k).toNat :=
        congrArg _ (byteAt_append_left (by simpa using hk))
      _ = _ := byteAt_le32_toNat p hk
  · calc (byteAt (metadataRecord p n) (4 + k)).toNat = (byteAt (le32 n) k).toNat :=
        congrArg _ (byteAt_append_right (le32 p) (le32 n) k)
      _ = _ := byteAt_le32_toNat n hk

end Sys2Proof.Machine
end


section
/-! SUPPORT. The counting sort (R122): where each bucket starts, and what the output holds meanwhile. -/

namespace Sys2Proof.Machine

/-! ### Counts and starts of the buckets -/

theorem getD_bump {a : List Nat} {j b : Nat} (hj : j < a.length) :
    (bump a j).getD b 0 = a.getD b 0 + if b = j then 1 else 0 := by
  by_cases hb : b = j
  · subst hb
    simp [bump, List.getD, hj]
  · simp [bump, List.getD, List.getElem?_set_ne (Ne.symm hb), hb]

theorem foldl_bump_length (key : Nat → Nat) (arr cnt : List Nat) :
    (arr.foldl (fun cnt x => bump cnt (key x)) cnt).length = cnt.length := by
  induction arr generalizing cnt with
  | nil => rfl
  | cons x xs ih => simp [ih]

@[simp] theorem keyCounts_length (key : Nat → Nat) (buckets : Nat) (arr : List Nat) :
    (keyCounts key buckets arr).length = buckets := by
  simp [keyCounts, foldl_bump_length]

theorem getD_foldl_bump {key : Nat → Nat} {arr cnt : List Nat} (b : Nat) (h : ∀ x ∈ arr, key x < cnt.length) :
    (arr.foldl (fun cnt x => bump cnt (key x)) cnt).getD b 0 = cnt.getD b 0 + arr.countP (key · == b) := by
  induction arr generalizing cnt with
  | nil => simp
  | cons x xs ih =>
    obtain ⟨hx, hxs⟩ := List.forall_mem_cons.mp h
    rw [List.foldl_cons, ih (by simpa using hxs), getD_bump hx, List.countP_cons]
    simp only [beq_iff_eq, eq_comm (a := b)]
    omega

theorem getD_keyCounts {key : Nat → Nat} {buckets : Nat} {arr : List Nat} (b : Nat) (h : ∀ x ∈ arr, key x < buckets) :
    (keyCounts key buckets arr).getD b 0 = arr.countP (key · == b) := by
  rw [keyCounts, getD_foldl_bump b (by simpa using h)]
  simp [List.getD, List.getElem?_replicate]
  split <;> rfl

@[simp] theorem bucketStarts_length (sum : Nat) (cnt : List Nat) : (bucketStarts sum cnt).length = cnt.length := by
  induction cnt generalizing sum with
  | nil => rfl
  | cons c cs ih => simp [bucketStarts, ih]

theorem getD_bucketStarts {sum b : Nat} {cnt : List Nat} (h : b < cnt.length) :
    (bucketStarts sum cnt).getD b 0 = sum + (cnt.take b).sum := by
  induction cnt generalizing sum b with
  | nil => simp at h
  | cons c cs ih =>
    cases b with
    | zero => simp [bucketStarts]
    | succ b =>
      rw [bucketStarts, List.getD_cons_succ, ih (by simpa using h), List.take_succ_cons, List.sum_cons, Nat.add_assoc]

theorem countP_key_lt_succ (key : Nat → Nat) (arr : List Nat) (b : Nat) :
    arr.countP (key · < b + 1) = arr.countP (key · < b) + arr.countP (key · == b) := by
  induction arr with
  | nil => rfl
  | cons x xs ih =>
    have hx : (if key x < b + 1 then 1 else 0) = (if key x < b then 1 else 0) + if key x = b then 1 else 0 := by
      split_ifs <;> omega
    simp only [List.countP_cons, ih, beq_iff_eq, decide_eq_true_eq, hx]
    omega

theorem sum_take_keyCounts {key : Nat → Nat} {buckets b : Nat} {arr : List Nat} (h : ∀ x ∈ arr, key x < buckets)
    (hb : b ≤ buckets) : ((keyCounts key buckets arr).take b).sum = arr.countP (key · < b) := by
  induction b with
  | zero => simp
  | succ b ih =>
    have hlen : b < (keyCounts key buckets arr).length := by simpa using hb
    rw [List.sum_take_succ _ _ hlen, ih (by omega), ← List.getD_eq_getElem _ 0 hlen, getD_keyCounts b h,
      countP_key_lt_succ]

/-! ### Placing the entries -/

/-- Bucket `b` of the output once the entries `done` are placed and `todo` are not: those of `done` in their order, then
room for those of `todo`. -/
def bucketWith (key : Nat → Nat) (done todo : List Nat) (b : Nat) : List Nat :=
  done.filter (key · == b) ++ List.replicate (todo.countP (key · == b)) 0

theorem flatMap_bucketWith_length (key : Nat → Nat) (done todo : List Nat) (b : Nat) :
    ((List.range b).flatMap (bucketWith key done todo)).length = (done ++ todo).countP (key · < b) := by
  induction b with
  | zero => simp
  | succ b ih =>
    rw [List.range_succ, List.flatMap_append, List.length_append, ih, countP_key_lt_succ]
    simp [bucketWith, List.countP_eq_length_filter]

theorem bucketWith_of_ne {key : Nat → Nat} {x b : Nat} (done todo : List Nat) (h : key x ≠ b) :
    bucketWith key (done ++ [x]) todo b = bucketWith key done (x :: todo) b := by
  simp [bucketWith, h]

theorem set_bucketWith (key : Nat → Nat) (x : Nat) (done todo rest : List Nat) :
    (bucketWith key done (x :: todo) (key x) ++ rest).set (done.countP (key · == key x)) x =
      bucketWith key (done ++ [x]) todo (key x) ++ rest := by
  simp [bucketWith, List.countP_eq_length_filter, List.replicate_succ]

/-- One placement: the entry goes to the next free place of its bucket, and every other bucket stays. -/
theorem set_buckets {key : Nat → Nat} {x buckets : Nat} (done todo : List Nat) (h : key x < buckets) :
    ((List.range buckets).flatMap (bucketWith key done (x :: todo))).set
        ((done ++ x :: todo).countP (key · < key x) + done.countP (key · == key x)) x =
      (List.range buckets).flatMap (bucketWith key (done ++ [x]) todo) := by
  obtain ⟨m, rfl⟩ : ∃ m, buckets = key x + (m + 1) := ⟨buckets - key x - 1, by omega⟩
  have hsplit : List.range (key x + (m + 1)) = List.range (key x) ++ key x :: List.range' (key x + 1) m := by
    rw [List.range_eq_range', List.range_eq_range', ← List.range'_append_1, Nat.zero_add, List.range'_succ]
  have hbefore : (List.range (key x)).flatMap (bucketWith key (done ++ [x]) todo) =
      (List.range (key x)).flatMap (bucketWith key done (x :: todo)) :=
    List.flatMap_congr fun b hb => bucketWith_of_ne done todo (List.mem_range.mp hb).ne'
  have hafter : (List.range' (key x + 1) m).flatMap (bucketWith key (done ++ [x]) todo) =
      (List.range' (key x + 1) m).flatMap (bucketWith key done (x :: todo)) :=
    List.flatMap_congr fun b hb => bucketWith_of_ne done todo (by have := List.mem_range'_1.mp hb; omega)
  rw [hsplit, List.flatMap_append, List.flatMap_append, List.flatMap_cons, List.flatMap_cons, hbefore, hafter,
    ← flatMap_bucketWith_length, List.set_append_right _ _ (by omega), Nat.add_sub_cancel_left, set_bucketWith]

/-- The scatter loop's invariant: each bucket's next free place is its start and the entries placed in it. -/
theorem scatter_buckets {key : Nat → Nat} {buckets : Nat} {done todo start : List Nat} (hlen : start.length = buckets)
    (hkey : ∀ x ∈ todo, key x < buckets)
    (hstart : ∀ b < buckets, start.getD b 0 = (done ++ todo).countP (key · < b) + done.countP (key · == b)) :
    scatter key todo start ((List.range buckets).flatMap (bucketWith key done todo)) =
      (List.range buckets).flatMap (bucketWith key (done ++ todo) []) := by
  induction todo generalizing done start with
  | nil => simp [scatter]
  | cons x xs ih =>
    obtain ⟨hx, hxs⟩ := List.forall_mem_cons.mp hkey
    have hbump : ∀ b < buckets, (bump start (key x)).getD b 0 =
        ((done ++ [x]) ++ xs).countP (key · < b) + (done ++ [x]).countP (key · == b) := by
      intro b hb
      rw [getD_bump (hlen ▸ hx), hstart b hb, List.append_assoc, List.singleton_append, List.countP_append (l₂ := [x]),
        List.countP_singleton]
      simp only [beq_iff_eq, eq_comm (a := b), Nat.add_assoc]
    rw [scatter, hstart _ hx, set_buckets done xs hx, ih ((bump_length _ _).trans hlen) hxs hbump, List.append_assoc,
      List.singleton_append]

theorem countP_key_lt_eq_length {key : Nat → Nat} {buckets : Nat} {arr : List Nat} (h : ∀ x ∈ arr, key x < buckets) :
    arr.countP (key · < buckets) = arr.length := by
  simpa [List.countP_eq_length] using h

/-- The counting sort lists the buckets one after the other, each in the order of the input. -/
theorem countingSort_eq_flatMap_filter {key : Nat → Nat} {buckets : Nat} {arr : List Nat}
    (h : ∀ x ∈ arr, key x < buckets) :
    countingSort arr key buckets = (List.range buckets).flatMap (fun b => arr.filter (key · == b)) := by
  have hroom : List.replicate arr.length 0 = (List.range buckets).flatMap (bucketWith key [] arr) := by
    refine (List.eq_replicate_iff.mpr ⟨?_, fun x hx => ?_⟩).symm
    · rw [flatMap_bucketWith_length, List.nil_append, countP_key_lt_eq_length h]
    · obtain ⟨b, -, hb⟩ := List.mem_flatMap.mp hx
      exact List.eq_of_mem_replicate hb
  have hstart : ∀ b < buckets, (bucketStarts 0 (keyCounts key buckets arr)).getD b 0 =
      ([] ++ arr).countP (key · < b) + ([] : List Nat).countP (key · == b) := by
    intro b hb
    rw [getD_bucketStarts (by simpa using hb), sum_take_keyCounts h hb.le]
    simp
  rw [countingSort, hroom, scatter_buckets (by simp) h hstart]
  exact List.flatMap_congr fun b _ => by simp [bucketWith]

/-! ### The sorted list -/

theorem filter_key_filter_key (key : Nat → Nat) (arr : List Nat) (b c : Nat) :
    (arr.filter (key · == c)).filter (key · == b) = if c = b then arr.filter (key · == b) else [] := by
  split
  · next heq => rw [heq, List.filter_filter]; simp only [Bool.and_self]
  · next hne =>
    refine List.filter_eq_nil_iff.mpr fun x hx hxb => hne ?_
    rw [← beq_iff_eq.mp hxb, beq_iff_eq.mp (List.mem_filter.mp hx).2]

theorem flatMap_range_single (l : List Nat) (b buckets : Nat) :
    (List.range buckets).flatMap (fun c => if c = b then l else []) = if b < buckets then l else [] := by
  induction buckets with
  | zero => simp
  | succ n ih =>
    rw [List.range_succ, List.flatMap_append, ih, List.flatMap_singleton]
    rcases Nat.lt_trichotomy b n with hb | rfl | hb
    · simp [hb, hb.ne', show b < n + 1 by omega]
    · simp
    · simp [hb.ne, show ¬ b < n by omega, show ¬ b < n + 1 by omega]

theorem countingSort_filter_key {key : Nat → Nat} {buckets : Nat} {arr : List Nat} (b : Nat)
    (h : ∀ x ∈ arr, key x < buckets) :
    (countingSort arr key buckets).filter (key · == b) = arr.filter (key · == b) := by
  rw [countingSort_eq_flatMap_filter h, List.filter_flatMap]
  simp only [filter_key_filter_key, flatMap_range_single]
  split
  · rfl
  · next hb =>
    refine (List.filter_eq_nil_iff.mpr fun x hx => ?_).symm
    have := h x hx
    simp only [beq_iff_eq]
    omega

theorem countingSort_perm {key : Nat → Nat} {buckets : Nat} {arr : List Nat} (h : ∀ x ∈ arr, key x < buckets) :
    (countingSort arr key buckets).Perm arr := by
  refine List.perm_iff_count.mpr fun x => ?_
  have hcount (l : List Nat) : (l.filter (key · == key x)).count x = l.count x :=
    List.count_filter (p := (key · == key x)) (beq_self_eq_true (key x))
  rw [← hcount, countingSort_filter_key _ h, hcount]

theorem countingSort_pairwise {key : Nat → Nat} {buckets : Nat} {arr : List Nat} (h : ∀ x ∈ arr, key x < buckets) :
    (countingSort arr key buckets).Pairwise (fun x y => key x ≤ key y) := by
  have hkey : ∀ {b x}, x ∈ arr.filter (key · == b) → key x = b := fun hx => by simpa using (List.mem_filter.mp hx).2
  rw [countingSort_eq_flatMap_filter h, List.pairwise_flatMap]
  refine ⟨fun b _ => List.pairwise_of_forall_mem_list fun x hx y hy => (hkey hx ▸ hkey hy ▸ le_rfl), ?_⟩
  exact List.pairwise_lt_range.imp fun hlt x hx y hy => hkey hx ▸ hkey hy ▸ hlt.le

end Sys2Proof.Machine
end

section
/-! SUPPORT. The rank recompute (R123): the new ranks along the suffix array, and sequences that rise by at most one. -/

namespace Sys2Proof.Machine

/-- What the rank rises by from one entry of the suffix array to the next (R123). -/
def rankStep (lt : Nat → Nat → Bool) (x y : Nat) : Nat := if lt x y then 1 else 0

theorem rankStep_le_one (lt : Nat → Nat → Bool) (x y : Nat) : rankStep lt x y ≤ 1 := by
  cases h : lt x y <;> simp [rankStep, h]

theorem rankStep_pos {lt : Nat → Nat → Bool} {x y : Nat} : 0 < rankStep lt x y ↔ lt x y = true := by
  cases h : lt x y <;> simp [rankStep, h]

/-! ### The recompute -/

@[simp] theorem map_fst_ranksAlong (lt : Nat → Nat → Bool) (prev r : Nat) (sa : List Nat) :
    (ranksAlong lt prev r sa).map Prod.fst = sa := by
  induction sa generalizing prev r with
  | nil => rfl
  | cons x xs ih => simp [ranksAlong, ih]

theorem isChain_ranksAlong (lt : Nat → Nat → Bool) (prev r : Nat) (sa : List Nat) :
    ((prev, r) :: ranksAlong lt prev r sa).IsChain (fun p q => q.2 = p.2 + rankStep lt p.1 q.1) := by
  induction sa generalizing prev r with
  | nil => simp [ranksAlong]
  | cons x xs ih =>
    refine List.isChain_cons_cons.mpr ⟨?_, ih x _⟩
    simp only [rankStep]
    split <;> rfl

theorem rankAt_foldl_set_of_notMem {pairs : List (Nat × Nat)} {i : Nat} (new : List Nat)
    (h : i ∉ pairs.map Prod.fst) :
    rankAt (pairs.foldl (fun new p => new.set p.1 p.2) new) i = rankAt new i := by
  induction pairs generalizing new with
  | nil => rfl
  | cons p ps ih =>
    obtain ⟨hne, hps⟩ := List.ne_and_not_mem_of_not_mem_cons h
    rw [List.foldl_cons, ih _ hps]
    simp [rankAt, List.getD, List.getElem?_set_ne (Ne.symm hne)]

theorem rankAt_foldl_set {pairs : List (Nat × Nat)} {new : List Nat} {p : Nat × Nat} (hp : p ∈ pairs)
    (hnodup : (pairs.map Prod.fst).Nodup) (hbound : ∀ i ∈ pairs.map Prod.fst, i < new.length) :
    rankAt (pairs.foldl (fun new p => new.set p.1 p.2) new) p.1 = p.2 := by
  induction pairs generalizing new with
  | nil => simp at hp
  | cons q ps ih =>
    obtain ⟨hq, hps⟩ := List.nodup_cons.mp hnodup
    obtain ⟨hqb, hpsb⟩ := List.forall_mem_cons.mp hbound
    rcases List.mem_cons.mp hp with rfl | hmem
    · rw [List.foldl_cons, rankAt_foldl_set_of_notMem _ hq]
      simp [rankAt, List.getD, List.getElem?_set_self hqb]
    · exact ih hmem hps (by simpa using hpsb)

/-- The new ranks: 0 at the first entry of the suffix array, and a `rankStep` from each entry to the next. -/
theorem rerank_along {sa : List Nat} {n : Nat} (rank : List Nat) (k : Nat) (hn : 0 < n) (h : sa.Perm (List.range n)) :
    rankAt (rerank sa rank k n) (sa.getD 0 0) = 0 ∧
    sa.IsChain (fun x y => rankAt (rerank sa rank k n) y =
      rankAt (rerank sa rank k n) x + rankStep (pairLt rank n k) x y) := by
  cases sa with
  | nil => exact absurd h.length_eq (by simpa using hn.ne)
  | cons x xs =>
    have hfst : ((x, 0) :: ranksAlong (pairLt rank n k) x 0 xs).map Prod.fst = x :: xs := by simp
    have hread : ∀ p ∈ (x, 0) :: ranksAlong (pairLt rank n k) x 0 xs, rankAt (rerank (x :: xs) rank k n) p.1 = p.2 :=
      fun p hp => rankAt_foldl_set hp (hfst ▸ h.nodup_iff.mpr List.nodup_range)
        (fun i hi => by simpa using h.mem_iff.mp (hfst ▸ hi))
    have hmap : (((x, 0) :: ranksAlong (pairLt rank n k) x 0 xs).map Prod.fst).IsChain (fun y z =>
        rankAt (rerank (x :: xs) rank k n) z =
          rankAt (rerank (x :: xs) rank k n) y + rankStep (pairLt rank n k) y z) :=
      (List.isChain_map Prod.fst).mpr <| (isChain_ranksAlong (pairLt rank n k) x 0 xs).imp_of_mem_imp
        fun p q hp hq hstep => by rw [hread p hp, hread q hq, hstep]
    rw [hfst] at hmap
    exact ⟨hread _ List.mem_cons_self, hmap⟩

/-! ### Indices -/

theorem isChain_iff_getD {R : Nat → Nat → Prop} {l : List Nat} :
    l.IsChain R ↔ ∀ i, i + 1 < l.length → R (l.getD i 0) (l.getD (i + 1) 0) := by
  refine List.isChain_iff_getElem.trans (forall₂_congr fun i hi => ?_)
  rw [List.getD_eq_getElem _ _ hi, List.getD_eq_getElem _ _ (Nat.lt_of_succ_lt hi)]

theorem getD_lt_of_perm_range {sa : List Nat} {n i : Nat} (h : sa.Perm (List.range n)) (hi : i < n) :
    sa.getD i 0 < n := by
  have hlen : i < sa.length := by simpa [h.length_eq] using hi
  rw [List.getD_eq_getElem _ _ hlen]
  exact List.mem_range.mp (h.mem_iff.mp (List.getElem_mem hlen))

theorem rerank_succ {sa : List Nat} {n i : Nat} (rank : List Nat) (k : Nat) (h : sa.Perm (List.range n))
    (hi : i + 1 < n) :
    rankAt (rerank sa rank k n) (sa.getD (i + 1) 0) =
      rankAt (rerank sa rank k n) (sa.getD i 0) + rankStep (pairLt rank n k) (sa.getD i 0) (sa.getD (i + 1) 0) :=
  isChain_iff_getD.mp (rerank_along rank k (Nat.zero_lt_of_lt hi) h).2 i (by simpa [h.length_eq] using hi)

/-! ### Sequences that rise by at most one -/

theorem exists_eq_of_steps {g : Nat → Nat} {m v : Nat} (h0 : g 0 = 0) (hstep : ∀ i < m, g (i + 1) ≤ g i + 1)
    (hv : v ≤ g m) : ∃ i ≤ m, g i = v := by
  induction m with
  | zero => exact ⟨0, le_rfl, by omega⟩
  | succ m ih =>
    rcases Nat.lt_or_ge (g m) v with hlt | hge
    · have := hstep m (by omega)
      exact ⟨m + 1, le_rfl, by omega⟩
    · obtain ⟨i, hi, hgi⟩ := ih (fun i hi => hstep i (by omega)) hge
      exact ⟨i, by omega, hgi⟩

theorem le_add_of_steps {g : Nat → Nat} {i m : Nat} (hstep : ∀ j < m, g (j + 1) ≤ g j + 1) (hi : i ≤ m) :
    g m ≤ g i + (m - i) := by
  induction m, hi using Nat.le_induction with
  | base => omega
  | succ m hi ih =>
    have := hstep m (by omega)
    have := ih fun j hj => hstep j (by omega)
    omega

/-- A sequence that rises from 0 to `m` in `m` steps of at most one rises at every step. -/
theorem lt_of_steps {g : Nat → Nat} {i m : Nat} (h0 : g 0 = 0) (hstep : ∀ j < m, g (j + 1) ≤ g j + 1) (hm : g m = m)
    (hi : i < m) : g i < g (i + 1) := by
  have hbelow : g i ≤ g 0 + (i - 0) := le_add_of_steps (fun j hj => hstep j (by omega)) (Nat.zero_le i)
  have habove : g m ≤ g (i + 1) + (m - (i + 1)) := le_add_of_steps hstep hi
  omega

theorem rerank_rises {sa : List Nat} {n : Nat} (rank : List Nat) (k : Nat) (h : sa.Perm (List.range n)) :
    ∀ i < n - 1, rankAt (rerank sa rank k n) (sa.getD (i + 1) 0) ≤ rankAt (rerank sa rank k n) (sa.getD i 0) + 1 := by
  intro i hi
  rw [rerank_succ rank k h (by omega)]
  exact Nat.add_le_add_left (rankStep_le_one _ _ _) _

/-- R124: where the last rank is `n - 1`, each pair along the suffix array is smaller than the next. -/
theorem isChain_pairLt_of_last {sa rank : List Nat} {k n : Nat} (hn : 0 < n) (h : sa.Perm (List.range n))
    (hlast : rankAt (rerank sa rank k n) (sa.getD (n - 1) 0) = n - 1) :
    sa.IsChain (fun x y => pairLt rank n k x y = true) := by
  refine isChain_iff_getD.mpr fun i hi => ?_
  have hin : i + 1 < n := by simpa [h.length_eq] using hi
  have hlt := lt_of_steps (g := fun i => rankAt (rerank sa rank k n) (sa.getD i 0)) (rerank_along rank k hn h).1
    (rerank_rises rank k h) hlast (by omega : i < n - 1)
  simp only [rerank_succ rank k h hin] at hlt
  exact rankStep_pos.mp (by omega)

end Sys2Proof.Machine
end

section
/-! PROOFS. The obligations O30 and O31: the counting sort and the rank recompute. -/

namespace Sys2Proof.Machine

/-- Settles O30: the sorted list is the buckets one after the other, each in the order of the input. -/
theorem countingSortIsStable : Obligations.CountingSortIsStable := by
  unfold Obligations.CountingSortIsStable
  exact fun arr key buckets h =>
    ⟨countingSort_perm h, countingSort_pairwise h, fun b => countingSort_filter_key b h⟩

/-- Settles O31: each entry's rank is read as it was set, and ranks that start at 0 and rise by at most one skip no value. -/
theorem rerankFollowsThePairs : Obligations.RerankFollowsThePairs := by
  unfold Obligations.RerankFollowsThePairs
  intro sa rank k n hn h
  obtain ⟨hfirst, -⟩ := rerank_along rank k hn h
  refine ⟨hfirst, fun i hi hin => ?_, fun v hv => ?_⟩
  · obtain ⟨j, rfl⟩ := Nat.exists_eq_succ_of_ne_zero hi.ne'
    exact rerank_succ rank k h hin
  · obtain ⟨i, hi, hrank⟩ := exists_eq_of_steps (g := fun i => rankAt (rerank sa rank k n) (sa.getD i 0)) hfirst
      (rerank_rises rank k h) hv
    exact ⟨sa.getD i 0, getD_lt_of_perm_range h (by omega), hrank⟩

end Sys2Proof.Machine
end

section
/-! SUPPORT. Rank doubling (R121, R124): ranks that order the positions by how their suffixes begin, and what a round
makes of them. -/

namespace Sys2Proof.Machine

/-! ### Prefixes of the suffixes -/

/-- The first `k` values of the suffix at `i`, fewer at the end of the text. -/
def prefixAt (text : List Nat) (k i : Nat) : List Nat := (text.drop i).take k

/-- The ranks compare as the prefixes of length `k` do (R121). -/
def RanksPrefixes (text : List Nat) (k : Nat) (rank : List Nat) : Prop :=
  ∀ i < text.length, ∀ j < text.length, rankAt rank i < rankAt rank j ↔ prefixAt text k i < prefixAt text k j

/-- The positions stand in the order of their prefixes of length `k`. -/
def SortedByPrefix (text : List Nat) (k : Nat) (sa : List Nat) : Prop :=
  sa.Pairwise (fun i j => prefixAt text k i ≤ prefixAt text k j)

theorem take_add_lt_take_add (k m : Nat) (a b : List Nat) :
    a.take (k + m) < b.take (k + m) ↔
      a.take k < b.take k ∨ (a.take k = b.take k ∧ (a.drop k).take m < (b.drop k).take m) := by
  induction k generalizing a b with
  | zero => simp
  | succ k ih =>
    rw [Nat.add_right_comm]
    cases a with
    | nil => cases b <;> simp
    | cons x xs =>
      cases b with
      | nil => simp
      | cons y ys =>
        simp only [List.take_succ_cons, List.drop_succ_cons, List.cons_lt_cons_iff, ih, List.cons.injEq]
        tauto

theorem lt_of_take_lt_take {k : Nat} {a b : List Nat} (h : a.take k < b.take k) : a < b := by
  have := (take_add_lt_take_add k (a.length + b.length) a b).mpr (.inl h)
  rwa [List.take_of_length_le (by omega), List.take_of_length_le (by omega)] at this

theorem prefixAt_of_le {text : List Nat} {k : Nat} (h : text.length ≤ k) (i : Nat) : prefixAt text k i = text.drop i :=
  List.take_of_length_le (by rw [List.length_drop]; omega)

theorem prefixAt_add_lt {text : List Nat} {k m i j : Nat} :
    prefixAt text (k + m) i < prefixAt text (k + m) j ↔ prefixAt text k i < prefixAt text k j ∨
      (prefixAt text k i = prefixAt text k j ∧ prefixAt text m (i + k) < prefixAt text m (j + k)) := by
  simp only [prefixAt, ← List.drop_drop]
  exact take_add_lt_take_add k m _ _

theorem prefixAt_past {text : List Nat} {i : Nat} (k : Nat) (h : text.length ≤ i) : prefixAt text k i = [] := by
  rw [prefixAt, List.drop_of_length_le h, List.take_nil]

theorem nil_lt_prefixAt {text : List Nat} {k i : Nat} (hk : 0 < k) (h : i < text.length) : [] < prefixAt text k i := by
  obtain ⟨m, rfl⟩ := Nat.exists_eq_succ_of_ne_zero hk.ne'
  rw [prefixAt, List.drop_eq_getElem_cons h, List.take_succ_cons]
  exact List.nil_lt_cons _ _

theorem eq_of_drop_eq_drop {text : List Nat} {i j : Nat} (hi : i < text.length) (hj : j < text.length)
    (h : text.drop i = text.drop j) : i = j := by
  have := congrArg List.length h
  simp only [List.length_drop] at this
  omega

/-- The first ranks are the values themselves (R124). -/
theorem ranksPrefixes_one (text : List Nat) : RanksPrefixes text 1 text := by
  have hone : ∀ i < text.length, prefixAt text 1 i = [rankAt text i] := by
    intro i hi
    rw [prefixAt, List.drop_eq_getElem_cons hi, List.take_succ_cons, List.take_zero, rankAt, List.getD_eq_getElem]
  intro i hi j hj
  rw [hone i hi, hone j hj]
  simp [List.cons_lt_cons_iff]

/-! ### Pairs of ranks compare as prefixes of twice the length -/

theorem RanksPrefixes.eq_iff {text rank : List Nat} {k i j : Nat} (h : RanksPrefixes text k rank)
    (hi : i < text.length) (hj : j < text.length) :
    rankAt rank i = rankAt rank j ↔ prefixAt text k i = prefixAt text k j := by
  have hij := h i hi j hj
  have hji := h j hj i hi
  rw [eq_iff_le_not_lt, eq_iff_le_not_lt, ← not_lt, ← not_lt, hij, hji]

theorem RanksPrefixes.key2_lt_iff {text rank : List Nat} {k : Nat} (h : RanksPrefixes text k rank) (hk : 0 < k)
    (i j : Nat) :
    key2 rank text.length k i < key2 rank text.length k j ↔ prefixAt text k (i + k) < prefixAt text k (j + k) := by
  rcases Nat.lt_or_ge (i + k) text.length with hi | hi <;> rcases Nat.lt_or_ge (j + k) text.length with hj | hj
  · simpa [key2, hi, hj] using h _ hi _ hj
  · simp [key2, hj.not_gt, prefixAt_past k hj]
  · simpa [key2, hi.not_gt, hj, prefixAt_past k hi] using nil_lt_prefixAt hk hj
  · simp [key2, hi.not_gt, hj.not_gt, prefixAt_past k hi, prefixAt_past k hj]

/-- R121: the pairs of ranks compare as the prefixes of twice the length do. -/
theorem RanksPrefixes.pairLt_iff {text rank : List Nat} {k i j : Nat} (h : RanksPrefixes text k rank) (hk : 0 < k)
    (hi : i < text.length) (hj : j < text.length) :
    pairLt rank text.length k i j = true ↔ prefixAt text (2 * k) i < prefixAt text (2 * k) j := by
  simp only [pairLt, Bool.or_eq_true, Bool.and_eq_true, decide_eq_true_eq]
  rw [Nat.two_mul, prefixAt_add_lt, h i hi j hj, h.eq_iff hi hj, h.key2_lt_iff hk]

/-! ### The two sorts of a round -/

theorem rankAt_le_maxRank (rank : List Nat) (i : Nat) : rankAt rank i ≤ maxRank rank := by
  have hmax : maxRank rank = rank.foldr max 0 := List.foldl_eq_foldr
  rcases Nat.lt_or_ge i rank.length with hi | hi
  · rw [rankAt, List.getD_eq_getElem _ _ hi, hmax]
    exact List.le_max_of_le' 0 (List.getElem_mem hi) le_rfl
  · rw [rankAt, List.getD_eq_default _ _ hi]
    exact Nat.zero_le _

theorem key2_lt_buckets (rank : List Nat) (n k i : Nat) : key2 rank n k i < maxRank rank + 2 := by
  have := rankAt_le_maxRank rank (i + k)
  unfold key2
  split <;> omega

theorem rankAt_lt_buckets (rank : List Nat) (i : Nat) : rankAt rank i < maxRank rank + 1 :=
  Nat.lt_succ_of_le (rankAt_le_maxRank rank i)

theorem sortRound_perm (sa rank : List Nat) (k n : Nat) : (sortRound sa rank k n).Perm sa :=
  (countingSort_perm fun x _ => rankAt_lt_buckets rank x).trans
    (countingSort_perm fun x _ => key2_lt_buckets rank n k x)

/-- R122: entries with equal keys stay in the order they had. -/
theorem countingSort_pairwise_of_pairwise {R : Nat → Nat → Prop} {key : Nat → Nat} {buckets : Nat} {arr : List Nat}
    (h : ∀ x ∈ arr, key x < buckets) (hR : arr.Pairwise R) :
    (countingSort arr key buckets).Pairwise (fun x y => key x < key y ∨ (key x = key y ∧ R x y)) := by
  refine List.pairwise_iff_forall_sublist.mpr fun {x y} hxy => ?_
  rcases (List.pairwise_iff_forall_sublist.mp (countingSort_pairwise h) hxy).lt_or_eq with hlt | heq
  · exact .inl hlt
  · have hfilter : [x, y].Sublist (arr.filter (key · == key y)) := by
      rw [← countingSort_filter_key _ h]
      simpa [heq] using hxy.filter (key · == key y)
    exact .inr ⟨heq, List.pairwise_iff_forall_sublist.mp hR (hfilter.trans List.filter_sublist)⟩

/-- R124: the secondary pass, then the primary pass, sort by the pair. -/
theorem sortRound_pairwise (sa rank : List Nat) (k n : Nat) :
    (sortRound sa rank k n).Pairwise (fun x y => pairLt rank n k y x = false) := by
  have hkey2 := countingSort_pairwise (arr := sa) fun x _ => key2_lt_buckets rank n k x
  refine (countingSort_pairwise_of_pairwise (fun x _ => rankAt_lt_buckets rank x) hkey2).imp fun hxy => ?_
  simp only [pairLt, Bool.or_eq_false_iff, Bool.and_eq_false_iff, decide_eq_false_iff_not]
  omega

theorem RanksPrefixes.sortRound_sorted {text rank sa : List Nat} {k : Nat} (h : RanksPrefixes text k rank) (hk : 0 < k)
    (hp : sa.Perm (List.range text.length)) :
    SortedByPrefix text (2 * k) (sortRound sa rank k text.length) := by
  have hp' := (sortRound_perm sa rank k text.length).trans hp
  refine (sortRound_pairwise sa rank k text.length).imp_of_mem fun {i j} hi hj hij => ?_
  have hlt := h.pairLt_iff hk (List.mem_range.mp (hp'.mem_iff.mp hj)) (List.mem_range.mp (hp'.mem_iff.mp hi))
  exact not_lt.mp fun hlt' => by simp [hlt.mpr hlt'] at hij

/-! ### The recompute of a round -/

/-- From `i` to `j` the first `k` values of the suffix and the rank both stay, or both grow. -/
def GrowTogether (text : List Nat) (k : Nat) (rank : List Nat) (i j : Nat) : Prop :=
  (prefixAt text k i = prefixAt text k j ∧ rankAt rank i = rankAt rank j) ∨
    (prefixAt text k i < prefixAt text k j ∧ rankAt rank i < rankAt rank j)

theorem GrowTogether.trans {text rank : List Nat} {k a b c : Nat} (hab : GrowTogether text k rank a b)
    (hbc : GrowTogether text k rank b c) : GrowTogether text k rank a c := by
  rcases hab with ⟨hp, hr⟩ | ⟨hp, hr⟩ <;> rcases hbc with ⟨hp', hr'⟩ | ⟨hp', hr'⟩
  · exact .inl ⟨hp.trans hp', hr.trans hr'⟩
  · exact .inr ⟨hp ▸ hp', hr ▸ hr'⟩
  · exact .inr ⟨hp' ▸ hp, hr' ▸ hr⟩
  · exact .inr ⟨hp.trans hp', hr.trans hr'⟩

theorem GrowTogether.lt_iff {text rank : List Nat} {k i j : Nat} (h : GrowTogether text k rank i j) :
    (rankAt rank i < rankAt rank j ↔ prefixAt text k i < prefixAt text k j) ∧
    (rankAt rank j < rankAt rank i ↔ prefixAt text k j < prefixAt text k i) := by
  rcases h with ⟨hp, hr⟩ | ⟨hp, hr⟩
  · simp [hp, hr]
  · simp [hp, hr, hp.not_gt, hr.not_gt]

/-- Along a sorted suffix array, the new ranks grow exactly where the first `2 * k` values of the suffix do. -/
theorem RanksPrefixes.rerank_growTogether {text rank sa : List Nat} {k : Nat} (h : RanksPrefixes text k rank)
    (hk : 0 < k) (hp : sa.Perm (List.range text.length)) (hs : SortedByPrefix text (2 * k) sa) :
    sa.Pairwise (GrowTogether text (2 * k) (rerank sa rank k text.length)) := by
  have htrans : IsTrans Nat (GrowTogether text (2 * k) (rerank sa rank k text.length)) :=
    ⟨fun _ _ _ => GrowTogether.trans⟩
  refine List.isChain_iff_pairwise.mp (isChain_iff_getD.mpr fun i hi => ?_)
  have hin : i + 1 < text.length := by simpa [hp.length_eq] using hi
  have hle := isChain_iff_getD.mp hs.isChain i hi
  have hlt := h.pairLt_iff hk (getD_lt_of_perm_range hp (Nat.lt_of_succ_lt hin)) (getD_lt_of_perm_range hp hin)
  rw [GrowTogether, rerank_succ rank k hp hin]
  rcases hle.eq_or_lt with heq | hgrow
  · have hstay : rankStep (pairLt rank text.length k) (sa.getD i 0) (sa.getD (i + 1) 0) = 0 :=
      Nat.eq_zero_of_not_pos fun hpos => (hlt.mp (rankStep_pos.mp hpos)).ne heq
    exact .inl ⟨heq, by rw [hstay, Nat.add_zero]⟩
  · exact .inr ⟨hgrow, Nat.lt_add_of_pos_right (rankStep_pos.mpr (hlt.mpr hgrow))⟩

/-- R124: the recompute makes ranks of the prefixes of twice the length. -/
theorem RanksPrefixes.double {text rank sa : List Nat} {k : Nat} (h : RanksPrefixes text k rank) (hk : 0 < k)
    (hp : sa.Perm (List.range text.length)) (hs : SortedByPrefix text (2 * k) sa) :
    RanksPrefixes text (2 * k) (rerank sa rank k text.length) := by
  have hgrow := h.rerank_growTogether hk hp hs
  have hmem : ∀ i < text.length, i ∈ sa := fun i hi => hp.mem_iff.mpr (List.mem_range.mpr hi)
  exact fun i hi j hj => List.Pairwise.forall_of_forall_of_flip (fun _ _ => by simp)
    (hgrow.imp fun hij => hij.lt_iff.1) (hgrow.imp fun hij => hij.lt_iff.2) (hmem i hi) (hmem j hj)

/-! ### The rounds -/

/-- The positions stand in the order of their suffixes, each before the next (R126). -/
def SuffixesAscend (text sa : List Nat) : Prop := sa.IsChain (fun i j => text.drop i < text.drop j)

/-- Prefixes as long as the text are the suffixes, and no two suffixes are equal. -/
theorem SortedByPrefix.suffixesAscend {text sa : List Nat} {k : Nat} (h : SortedByPrefix text k sa)
    (hk : text.length ≤ k) (hp : sa.Perm (List.range text.length)) : SuffixesAscend text sa := by
  have hnodup : sa.Nodup := hp.nodup_iff.mpr List.nodup_range
  have hmem : ∀ {i}, i ∈ sa → i < text.length := fun hi => List.mem_range.mp (hp.mem_iff.mp hi)
  refine (List.Pairwise.imp_of_mem (fun {i j} hi hj hij => ?_) (hnodup.and h)).isChain
  obtain ⟨hne, hle⟩ := hij
  rw [prefixAt_of_le hk, prefixAt_of_le hk] at hle
  exact lt_of_le_of_ne hle fun heq => hne (eq_of_drop_eq_drop (hmem hi) (hmem hj) heq)

/-- R124: where the last rank is `n - 1` no two prefixes are equal, and the loop may stop. -/
theorem RanksPrefixes.suffixesAscend_of_last {text rank sa : List Nat} {k : Nat} (h : RanksPrefixes text k rank)
    (hk : 0 < k) (hn : 0 < text.length) (hp : sa.Perm (List.range text.length))
    (hlast : rankAt (rerank sa rank k text.length) (sa.getD (text.length - 1) 0) = text.length - 1) :
    SuffixesAscend text sa := by
  have hmem : ∀ {i}, i ∈ sa → i < text.length := fun hi => List.mem_range.mp (hp.mem_iff.mp hi)
  refine (isChain_pairLt_of_last hn hp hlast).imp_of_mem_imp fun i j hi hj hij => ?_
  exact lt_of_take_lt_take ((h.pairLt_iff hk (hmem hi) (hmem hj)).mp hij)

/-- The loop's invariant: the ranks compare as the prefixes of length `k`, which are sorted once `k` reaches the end of
the text; `fuel` lasts until it does. -/
theorem doublingRounds_sorts {text rank sa : List Nat} {fuel k : Nat} (hk : 0 < k) (hfuel : text.length ≤ k + fuel)
    (hp : sa.Perm (List.range text.length)) (hr : RanksPrefixes text k rank)
    (hs : text.length ≤ k → SortedByPrefix text k sa) :
    (doublingRounds text.length fuel k sa rank).Perm (List.range text.length) ∧
      SuffixesAscend text (doublingRounds text.length fuel k sa rank) := by
  induction fuel generalizing k sa rank with
  | zero => exact ⟨hp, (hs hfuel).suffixesAscend hfuel hp⟩
  | succ fuel ih =>
    have hp' := (sortRound_perm sa rank k text.length).trans hp
    have hs' := hr.sortRound_sorted hk hp
    simp only [doublingRounds]
    split
    · next hlt =>
      split
      · next hlast => exact ⟨hp', hr.suffixesAscend_of_last hk (Nat.zero_lt_of_lt hlt) hp' hlast⟩
      · exact ih (by omega) (by omega) hp' (hr.double hk hp' hs') fun _ => hs'
    · next hge => exact ⟨hp, (hs (Nat.not_lt.mp hge)).suffixesAscend (Nat.not_lt.mp hge) hp⟩

/-! ### The order of the suffixes of a buffer -/

theorem lt_iff_map_toNat_lt (a b : Buffer) : a < b ↔ a.map BitVec.toNat < b.map BitVec.toNat := by
  induction a generalizing b with
  | nil => cases b <;> simp
  | cons x xs ih =>
    cases b with
    | nil => simp
    | cons y ys => simp [List.cons_lt_cons_iff, ih, BitVec.lt_def, BitVec.toNat_inj]

theorem suffixBefore_iff {buf : Buffer} {i j : Nat} :
    suffixBefore buf i j ↔ (buf.map BitVec.toNat).drop i < (buf.map BitVec.toNat).drop j := by
  rw [← List.map_drop, ← List.map_drop]
  exact lt_iff_map_toNat_lt (buf.drop i) (buf.drop j)

theorem suffixesAscend_iff {buf : Buffer} {sa : List Nat} (h : sa.Perm (List.range buf.length)) :
    SuffixesAscend (buf.map BitVec.toNat) sa ↔
      ∀ i, i + 1 < buf.length → suffixBefore buf (sa.getD i 0) (sa.getD (i + 1) 0) := by
  have hlen : sa.length = buf.length := by simpa using h.length_eq
  simp only [suffixBefore_iff, ← hlen]
  exact isChain_iff_getD

theorem suffixArray_sorts (buf : Buffer) :
    (suffixArray buf).Perm (List.range buf.length) ∧ SuffixesAscend (buf.map BitVec.toNat) (suffixArray buf) := by
  have hlen : (buf.map BitVec.toNat).length = buf.length := List.length_map _
  have hsingle : buf.length ≤ 1 → SortedByPrefix (buf.map BitVec.toNat) 1 (List.range buf.length) := by
    intro h
    interval_cases buf.length <;> simp [SortedByPrefix]
  have hrounds := doublingRounds_sorts (fuel := buf.length) Nat.one_pos (by omega) (by rw [hlen])
    (ranksPrefixes_one (buf.map BitVec.toNat)) (by rwa [hlen])
  rw [hlen] at hrounds
  exact hrounds

/-- Two orderings of the same positions in which the suffixes ascend are equal. -/
theorem SuffixesAscend.unique {text sa sa' : List Nat} (h : SuffixesAscend text sa) (h' : SuffixesAscend text sa')
    (hp : sa.Perm sa') : sa = sa' := by
  have htrans : IsTrans Nat (fun i j => text.drop i < text.drop j) := ⟨fun _ _ _ => lt_trans⟩
  exact hp.eq_of_pairwise (fun _ _ _ _ hab hba => absurd hab hba.not_gt) (List.IsChain.pairwise h)
    (List.IsChain.pairwise h')

end Sys2Proof.Machine
end

section
/-! PROOFS. The obligation O32: the suffix array is the one sorted list of the suffixes. -/

namespace Sys2Proof.Machine

/-- Settles O32: rank doubling ends with the suffixes in strict order, and a strict order lists the positions one way. -/
theorem suffixArraySortsTheSuffixes : Obligations.SuffixArraySortsTheSuffixes := by
  unfold Obligations.SuffixArraySortsTheSuffixes
  intro buf sa
  obtain ⟨hperm, hascend⟩ := suffixArray_sorts buf
  constructor
  · rintro rfl
    exact ⟨hperm, (suffixesAscend_iff hperm).mp hascend⟩
  · rintro ⟨hp, hsorted⟩
    exact ((suffixesAscend_iff hp).mpr hsorted).unique hascend (hp.trans hperm.symm)

end Sys2Proof.Machine
end


section
/-! SUPPORT. The BWT: the encoder's bytes and primary index read off the suffix array (R140), and the LF table as places
in the sorted bytes (R142). -/

namespace Sys2Proof.Machine

/-! ### The encoder -/

theorem bwtEncode_of_ne_nil {buf : Buffer} (h : buf ≠ []) :
    bwtEncode buf = (saToBwt buf (suffixArray buf), primaryIndexCalc (suffixArray buf)) :=
  if_neg (mt List.length_eq_zero_iff.mp h)

theorem primaryIndexCalc_lt {sa : List Nat} {n : Nat} (h : sa.Perm (List.range n)) (hn : 0 < n) :
    primaryIndexCalc sa < n := by
  have hmem : 0 ∈ sa := h.mem_iff.mpr (List.mem_range.mpr hn)
  simpa [primaryIndexCalc, h.length_eq] using List.idxOf_lt_length_of_mem hmem

/-- The primary index is the only place of 0, since a permutation lists it once (R140). -/
theorem getD_eq_zero_iff_primaryIndexCalc {sa : List Nat} {n i : Nat} (h : sa.Perm (List.range n)) (hi : i < n) :
    sa.getD i 0 = 0 ↔ i = primaryIndexCalc sa := by
  have hlen : i < sa.length := by simpa [h.length_eq] using hi
  have hnodup : sa.Nodup := h.nodup_iff.mpr List.nodup_range
  rw [List.getD_eq_getElem _ _ hlen, primaryIndexCalc]
  constructor
  · intro hzero
    rw [← hzero, hnodup.idxOf_getElem i hlen]
  · rintro rfl
    exact List.getElem_idxOf hlen

theorem byteAt_saToBwt (buf : Buffer) {sa : List Nat} {i : Nat} (hi : i < sa.length) :
    byteAt (saToBwt buf sa) i = byteAt buf ((sa.getD i 0 + buf.length - 1) % buf.length) := by
  simp [byteAt, saToBwt, List.getD, hi]

/-! ### The LF table by counting positions -/

theorem take_eq_map_byteAt {b : Buffer} {k : Nat} (h : k ≤ b.length) : b.take k = (List.range k).map (byteAt b) := by
  refine List.ext_getElem (by simpa using h) fun i hi _ => ?_
  have hib : i < b.length := hi.trans_le (List.length_take_le' k b)
  simp [byteAt, List.getD, hib]

theorem countP_take_eq_length_filter (p : Byte → Bool) {b : Buffer} {k : Nat} (h : k ≤ b.length) :
    (b.take k).countP p = ((List.range k).filter (fun j => p (byteAt b j))).length := by
  rw [take_eq_map_byteAt h, List.countP_map, List.countP_eq_length_filter]
  rfl

theorem firstOcc_eq_length_filter (bwt : Buffer) (c : Byte) :
    firstOcc bwt c = ((List.range bwt.length).filter (fun j => decide ((byteAt bwt j).toNat < c.toNat))).length := by
  rw [← countP_take_eq_length_filter (fun b => decide (b.toNat < c.toNat)) le_rfl, List.take_length, firstOcc]

theorem rankL_eq_length_filter {bwt : Buffer} {i : Nat} (hi : i ≤ bwt.length) :
    rankL bwt i = ((List.range i).filter (fun j => byteAt bwt j == byteAt bwt i)).length :=
  countP_take_eq_length_filter (· == byteAt bwt i) hi

theorem lfTable_getD {bwt : Buffer} {i : Nat} (hi : i < bwt.length) :
    (lfTable bwt).getD i 0 = firstOcc bwt (byteAt bwt i) + rankL bwt i := by
  simp [lfTable, List.getD, hi]

/-! ### The LF table is a permutation -/

/-- A position inside the first `k` counts once more for its own byte than those before it. -/
theorem rankL_lt_count_take {bwt : Buffer} {i k : Nat} (hik : i < k) (hi : i < bwt.length) :
    rankL bwt i < (bwt.take k).count (byteAt bwt i) := by
  have hsucc : (bwt.take (i + 1)).count (byteAt bwt i) = rankL bwt i + 1 := by
    rw [List.take_succ_eq_append_getElem hi, List.count_append, rankL]
    simp [byteAt, List.getD, hi]
  have hle := (List.take_sublist_take_left (l := bwt) (show i + 1 ≤ k from hik)).count_le (byteAt bwt i)
  omega

theorem rankL_lt_count {bwt : Buffer} {i : Nat} (hi : i < bwt.length) : rankL bwt i < bwt.count (byteAt bwt i) := by
  simpa using rankL_lt_count_take hi hi

theorem rankL_lt_rankL {bwt : Buffer} {i j : Nat} (hij : i < j) (hi : i < bwt.length)
    (hb : byteAt bwt i = byteAt bwt j) : rankL bwt i < rankL bwt j := by
  have hj : rankL bwt j = (bwt.take j).count (byteAt bwt i) := by rw [rankL, hb]
  exact hj ▸ rankL_lt_count_take hij hi

/-- Where the places of byte `c` in the sorted bytes end: after those of every byte up to `c`. -/
theorem firstOcc_add_count (bwt : Buffer) (c : Byte) :
    firstOcc bwt c + bwt.count c = bwt.countP (fun b => decide (b.toNat ≤ c.toNat)) := by
  induction bwt with
  | nil => simp [firstOcc]
  | cons b bs ih =>
    have hb : (if b.toNat < c.toNat then 1 else 0) + (if b = c then 1 else 0) = if b.toNat ≤ c.toNat then 1 else 0 := by
      simp only [← BitVec.toNat_inj]
      split_ifs <;> omega
    simp only [firstOcc, List.countP_cons, List.count_cons, decide_eq_true_eq, beq_iff_eq] at ih ⊢
    omega

/-- The places of a greater byte begin no earlier. -/
theorem firstOcc_add_count_le {c d : Byte} (bwt : Buffer) (h : c.toNat < d.toNat) :
    firstOcc bwt c + bwt.count c ≤ firstOcc bwt d := by
  rw [firstOcc_add_count, firstOcc]
  refine List.countP_mono_left fun b _ hb => ?_
  simp only [decide_eq_true_eq] at hb ⊢
  omega

theorem firstOcc_add_count_le_length (bwt : Buffer) (c : Byte) : firstOcc bwt c + bwt.count c ≤ bwt.length :=
  (firstOcc_add_count bwt c).trans_le List.countP_le_length

theorem lfTable_lt {bwt : Buffer} {i : Nat} (hi : i < bwt.length) : (lfTable bwt).getD i 0 < bwt.length := by
  have hrank := rankL_lt_count hi
  have hfirst := firstOcc_add_count_le_length bwt (byteAt bwt i)
  rw [lfTable_getD hi]
  omega

/-- A position of a smaller byte is mapped before one of a greater byte. -/
theorem lfTable_lt_of_byte_lt {bwt : Buffer} {i j : Nat} (hi : i < bwt.length) (hj : j < bwt.length)
    (hb : (byteAt bwt i).toNat < (byteAt bwt j).toNat) : (lfTable bwt).getD i 0 < (lfTable bwt).getD j 0 := by
  have hrank := rankL_lt_count hi
  have hfirst := firstOcc_add_count_le bwt hb
  rw [lfTable_getD hi, lfTable_getD hj]
  omega

/-- Two positions get different places: by their bytes, or by their order when the bytes are equal. -/
theorem lfTable_ne_of_lt {bwt : Buffer} {i j : Nat} (hij : i < j) (hj : j < bwt.length) :
    (lfTable bwt).getD i 0 ≠ (lfTable bwt).getD j 0 := by
  have hi : i < bwt.length := hij.trans hj
  rcases Nat.lt_trichotomy (byteAt bwt i).toNat (byteAt bwt j).toNat with hlt | heq | hgt
  · exact (lfTable_lt_of_byte_lt hi hj hlt).ne
  · have hb : byteAt bwt i = byteAt bwt j := BitVec.eq_of_toNat_eq heq
    rw [lfTable_getD hi, lfTable_getD hj, hb]
    have hrank := rankL_lt_rankL hij hi hb
    omega
  · exact (lfTable_lt_of_byte_lt hj hi hgt).ne'

@[simp] theorem lfTable_length (bwt : Buffer) : (lfTable bwt).length = bwt.length := by simp [lfTable]

/-- R142: distinct places below `n` for `n` positions are all the places. -/
theorem lfTable_perm (bwt : Buffer) : (lfTable bwt).Perm (List.range bwt.length) := by
  have hnodup : (lfTable bwt).Nodup := by
    refine List.pairwise_iff_getElem.mpr fun i j hi hj hij => ?_
    rw [← List.getD_eq_getElem _ 0 hi, ← List.getD_eq_getElem _ 0 hj]
    exact lfTable_ne_of_lt hij (by simpa using hj)
  have hsub : lfTable bwt ⊆ List.range bwt.length := by
    intro x hx
    obtain ⟨i, hi, rfl⟩ := List.mem_iff_getElem.mp hx
    rw [← List.getD_eq_getElem _ 0 hi]
    exact List.mem_range.mpr (lfTable_lt (by simpa using hi))
  exact (hnodup.subperm hsub).perm_of_length_le (by simp)

end Sys2Proof.Machine
end


section
/-! SUPPORT. A command whose operands are in order (R61, R90): the frame ends as the command's own function does. -/

namespace Sys2Proof.Machine

@[simp] theorem State.srcBuf_length (s : State) : s.srcBuf.length = s.latch.srcLen.toNat := Memory.readBuf_length _ _ _

@[simp] theorem sat32_toNat (w : Word) : sat32 w.toNat = w := by
  rw [sat32, Nat.min_eq_left (Nat.le_sub_one_of_lt w.isLt), BitVec.ofNat_toNat, BitVec.setWidth_eq]

theorem regionsValid_of_ready {i : Instr} {s : State} {n : Nat} (haux : auxUse i = none) (hsrc : s.srcReady)
    (hdst : s.dstRoom n) : RegionsValid i s.cfg.memBytes s.latch :=
  ⟨hsrc.1, hdst.1, by simp [haux]⟩

/-- The command's own error is the frame's when its regions and its input are in order (R273). -/
theorem endsIn_errorWith_of_body {i : Instr} {s : State} {n : Nat} {code : ErrCode} {stage : Stage} {i0 i1 : Word}
    (haux : auxUse i = none) (hsrc : s.srcReady) (hdst : s.dstRoom n)
    (hbody : bodyOf i s.cfg.scratchLen s.srcBuf (s.auxBuf i) s.latch = .error ⟨code, stage, i0, i1⟩) :
    EndsIn i s (s.errorWith code stage i0 i1) :=
  endsIn_errorWith.mpr <| frameResult_eq_error.mpr <|
    .inr ⟨regionsValid_of_ready haux hsrc hdst, .inr ⟨hsrc.2, .inl hbody⟩⟩

/-- `State.doneWith` writes what the completion of a result without registers writes, up to `unseen` (R90). -/
theorem State.complete_eq_doneWith (s : State) (out : Buffer) :
    s.complete { out := out } = { s.doneWith out with unseen := s.before [.outLen] } := rfl

/-- A command whose output alone is its result ends with it at DST when its operands are in order (R90). -/
theorem endsIn_doneWith_of_body {i : Instr} {s : State} {out : Buffer} (haux : auxUse i = none) (hsrc : s.srcReady)
    (hdst : s.dstRoom out.length)
    (hbody : bodyOf i s.cfg.scratchLen s.srcBuf (s.auxBuf i) s.latch = .ok { out := out }) :
    EndsIn i s (s.doneWith out) := by
  have hf : frameResult i (bodyOf i) s = .ok { out := out } :=
    frameResult_eq_ok.mpr ⟨regionsValid_of_ready haux hsrc hdst, hsrc.2, hbody, hdst.2, by simp [haux]⟩
  exact ⟨_, (exec_eq_execute i s).trans ((execute_of_ok hf).trans (congrArg _ (State.complete_eq_doneWith s out)))⟩

/-! ### BWT_DEC -/

/-- The range check comes first, so an index out of range is BWT_DEC's error whatever the scratch holds (R144, R146). -/
theorem opBwtDec_of_out_of_range (scratch : Nat) {src : Buffer} (aux : Buffer) {l : Latch} (hn : 0 < src.length)
    (hp : l.primaryIndex.toInt < 0 ∨ (src.length : Int) ≤ l.primaryIndex.toInt) :
    opBwtDec scratch src aux l = .error ⟨.primaryRange, .bwtDecoder, l.primaryIndex, sat32 src.length⟩ := by
  refine bind_eq_error.mpr (.inl ?_)
  simpa [primaryRangeCheck, hn] using hp

theorem opBwtDec_nil (scratch : Nat) (aux : Buffer) (l : Latch) : opBwtDec scratch [] aux l = .ok { out := [] } :=
  opBwtDec_eq_ok.mpr ⟨fun h => absurd h (Nat.lt_irrefl 0), Nat.zero_le _, rfl⟩

end Sys2Proof.Machine
end


section
/-! PROOFS. The obligations O34, O36 and O38: the encoder's bytes and primary index, the LF table, and BWT_DEC on an index
out of range. -/

namespace Sys2Proof.Machine

/-- Settles O34: the suffix array is a permutation of the positions, so it holds 0 at one place. -/
theorem bwtEncodeFollowsTheSuffixArray : Obligations.BwtEncodeFollowsTheSuffixArray := by
  unfold Obligations.BwtEncodeFollowsTheSuffixArray
  refine ⟨rfl, fun buf hbuf => ?_⟩
  obtain ⟨hperm, -⟩ := suffixArray_sorts buf
  rw [bwtEncode_of_ne_nil hbuf]
  refine ⟨by simp, primaryIndexCalc_lt hperm (List.length_pos_iff.mpr hbuf), ?_, ?_⟩
  · exact fun i hi => getD_eq_zero_iff_primaryIndexCalc hperm hi
  · exact fun i hi => byteAt_saToBwt buf (by simpa using hi)

/-- Settles O36: smaller bytes are mapped first, equal bytes in their order, so the places are distinct. -/
theorem lfTableIsAPermutation : Obligations.LfTableIsAPermutation := by
  unfold Obligations.LfTableIsAPermutation
  refine fun bwt => ⟨lfTable_perm bwt, fun i hi => ?_⟩
  rw [lfTable_getD hi, firstOcc_eq_length_filter, rankL_eq_length_filter hi.le]

/-- Settles O38: BWT_DEC's own check raises PRIMARY_RANGE for a nonempty buffer, and passes the empty one. -/
theorem primaryIndexOutOfRange : Obligations.PrimaryIndexOutOfRange := by
  unfold Obligations.PrimaryIndexOutOfRange
  intro s hsrc hdst
  constructor
  · intro hne hp
    have hn : 0 < s.srcBuf.length := by
      rw [State.srcBuf_length]
      exact Nat.pos_of_ne_zero fun h => hne (BitVec.eq_of_toNat_eq h)
    have hbody := opBwtDec_of_out_of_range s.cfg.scratchLen (s.auxBuf .bwtDec) hn (by simpa using hp)
    rw [State.srcBuf_length, sat32_toNat] at hbody
    exact endsIn_errorWith_of_body rfl hsrc hdst hbody
  · intro hzero
    have hnil : s.srcBuf = [] := List.eq_nil_of_length_eq_zero (by simp [hzero])
    refine endsIn_doneWith_of_body rfl hsrc hdst ?_
    rw [hnil]
    exact opBwtDec_nil s.cfg.scratchLen (s.auxBuf .bwtDec) s.latch

end Sys2Proof.Machine
end


section
/-! SUPPORT. Move to front as a shift of the entries (R161), the symbol list as a permutation of the 256 bytes, and the
round trip of the two loops (R164, R166). -/

namespace Sys2Proof.Machine

/-! ### The shift of the entries -/

@[simp] theorem moveToFront_getD_zero (list : List Byte) (j : Nat) : (moveToFront list j).getD 0 0 = list.getD j 0 := rfl

theorem moveToFront_getD_of_le {j t : Nat} (list : List Byte) (ht : 0 < t) (htj : t ≤ j) :
    (moveToFront list j).getD t 0 = list.getD (t - 1) 0 := by
  obtain ⟨k, rfl⟩ := Nat.exists_eq_add_one.mpr ht
  simp [moveToFront, List.getD_eq_getElem?_getD, List.getElem?_eraseIdx_of_lt htj]

theorem moveToFront_getD_of_lt {j t : Nat} (list : List Byte) (hjt : j < t) :
    (moveToFront list j).getD t 0 = list.getD t 0 := by
  obtain ⟨k, rfl⟩ := Nat.exists_eq_add_one.mpr (Nat.zero_lt_of_lt hjt)
  simp [moveToFront, List.getD_eq_getElem?_getD, List.getElem?_eraseIdx_of_ge (Nat.le_of_lt_succ hjt)]

theorem moveToFront_zero {list : List Byte} (h : 0 < list.length) : moveToFront list 0 = list := by
  obtain ⟨b, bs, rfl⟩ := List.exists_cons_of_length_pos h
  rfl

theorem moveToFront_perm {list : List Byte} {j : Nat} (h : j < list.length) : (moveToFront list j).Perm list := by
  rw [moveToFront, List.getD_eq_getElem _ _ h]
  exact List.getElem_cons_eraseIdx_perm h

/-! ### The symbol list -/

@[simp] theorem mtfIdentity_length : mtfIdentity.length = 256 := by simp [mtfIdentity]

theorem mtfIdentity_getD {k : Nat} (h : k < 256) : mtfIdentity.getD k 0 = BitVec.ofNat 8 k := by
  simp [mtfIdentity, List.getD_eq_getElem?_getD, h]

theorem mem_mtfIdentity (b : Byte) : b ∈ mtfIdentity :=
  List.mem_map.mpr ⟨b.toNat, List.mem_range.mpr b.isLt, by rw [BitVec.ofNat_toNat, BitVec.setWidth_eq]⟩

section
variable {list : List Byte} (h : list.Perm mtfIdentity)
include h

theorem length_of_perm_mtfIdentity : list.length = 256 := h.length_eq.trans mtfIdentity_length

/-- Every index a byte can give has an entry, so the move keeps the entries (R161). -/
theorem moveToFront_perm_mtfIdentity {j : Nat} (hj : j < 256) : (moveToFront list j).Perm mtfIdentity :=
  (moveToFront_perm (by rwa [length_of_perm_mtfIdentity h])).trans h

/-- Every byte has an index of eight bits in the symbol list (R164). -/
theorem idxOf_lt_of_perm_mtfIdentity (b : Byte) : list.idxOf b < 256 :=
  length_of_perm_mtfIdentity h ▸ List.idxOf_lt_length_of_mem (h.mem_iff.mpr (mem_mtfIdentity b))

theorem getD_idxOf_of_perm_mtfIdentity (b : Byte) : list.getD (list.idxOf b) 0 = b := by
  have hmem : b ∈ list := h.mem_iff.mpr (mem_mtfIdentity b)
  rw [List.getD_eq_getElem _ _ (List.idxOf_lt_length_of_mem hmem), List.getElem_idxOf]

end

/-! ### The round trip -/

/-- The decoder reads at the encoder's index the byte the encoder looked up, so both move the same entry and keep equal
lists (R166). -/
theorem mtfDecodeFrom_mtfEncodeFrom {list : List Byte} (h : list.Perm mtfIdentity) (x : Buffer) :
    mtfDecodeFrom list (mtfEncodeFrom list x) = x := by
  induction x generalizing list with
  | nil => rfl
  | cons b bs ih =>
    have hlt : list.idxOf b < 256 := idxOf_lt_of_perm_mtfIdentity h b
    have hindex : (BitVec.ofNat 8 (list.idxOf b)).toNat = list.idxOf b :=
      (BitVec.toNat_ofNat _ _).trans (Nat.mod_eq_of_lt hlt)
    rw [mtfEncodeFrom, mtfDecodeFrom, hindex, getD_idxOf_of_perm_mtfIdentity h, ih (moveToFront_perm_mtfIdentity h hlt)]

theorem mtfDecode_mtfEncode (x : Buffer) : mtfDecode (mtfEncode x) = x :=
  mtfDecodeFrom_mtfEncodeFrom (List.Perm.refl _) x

/-! ### The commands on an empty buffer -/

/-- The emptiness check comes first, so no bytes are EMPTY_INPUT whatever the scratch holds (R165). -/
theorem opMtfEnc_nil (scratch : Nat) (aux : Buffer) (l : Latch) :
    opMtfEnc scratch [] aux l = .error ⟨.emptyInput, .mtfEncoder, 0, 0⟩ := rfl

theorem opMtfDec_nil (scratch : Nat) (aux : Buffer) (l : Latch) :
    opMtfDec scratch [] aux l = .error ⟨.emptyInput, .mtfDecoder, 0, 0⟩ := rfl

theorem State.srcBuf_eq_nil {s : State} (h : s.latch.srcLen = 0) : s.srcBuf = [] :=
  List.eq_nil_of_length_eq_zero (by simp [h])

end Sys2Proof.Machine
end


section
/-! PROOFS. The obligations O40 and O41: the move to front and the MTF round trip. -/

namespace Sys2Proof.Machine

/-- Settles O40: the moved entry is consed onto the list without it, so only the indices up to `j` shift. -/
theorem moveToFrontShiftsTheEntriesBefore : Obligations.MoveToFrontShiftsTheEntriesBefore := by
  unfold Obligations.MoveToFrontShiftsTheEntriesBefore
  refine ⟨fun list j hj => ⟨moveToFront_length hj, moveToFront_getD_zero list j, ?_, ?_, ?_⟩, mtfIdentity_length, ?_, ?_⟩
  · exact fun t ht htj => moveToFront_getD_of_le list ht htj
  · exact fun t hjt => moveToFront_getD_of_lt list hjt
  · rintro rfl
    exact moveToFront_zero hj
  · exact fun k hk => mtfIdentity_getD hk
  · exact fun list j h => moveToFront_perm_mtfIdentity h j.isLt

/-- Settles O41: the two loops keep equal lists, and each command's own check refuses the empty buffer first. -/
theorem mtfRoundTrip : Obligations.MtfRoundTrip := by
  unfold Obligations.MtfRoundTrip
  refine ⟨fun x _ => mtfDecode_mtfEncode x, fun s hsrc hdst hzero => ⟨?_, ?_⟩⟩
  · refine endsIn_errorWith_of_body rfl hsrc hdst ?_
    rw [State.srcBuf_eq_nil hzero]
    exact opMtfEnc_nil s.cfg.scratchLen (s.auxBuf .mtfEnc) s.latch
  · refine endsIn_errorWith_of_body rfl hsrc hdst ?_
    rw [State.srcBuf_eq_nil hzero]
    exact opMtfDec_nil s.cfg.scratchLen (s.auxBuf .mtfDec) s.latch

end Sys2Proof.Machine
end


section
/-! SUPPORT. RLE as a scan of runs (R180, R182): the round trip, the counts, and an encoder that splits where
the runs split. -/

namespace Sys2Proof.Machine

/-! ### The scan, one byte at a time (R180) -/

theorem rleRuns_extend {v : Byte} {count : Nat} (h : count < 255) (bs : Buffer) :
    rleRuns v count (v :: bs) = rleRuns v (count + 1) bs := by
  rw [rleRuns, if_pos ⟨rfl, h⟩]

theorem rleRuns_flush {v b : Byte} {count : Nat} (h : ¬(b = v ∧ count < 255)) (bs : Buffer) :
    rleRuns v count (b :: bs) = BitVec.ofNat 8 count :: v :: rleRuns b 1 bs := by
  rw [rleRuns, if_neg h]

theorem rleRuns_flush_full (v b : Byte) (bs : Buffer) :
    rleRuns v 255 (b :: bs) = 255 :: v :: rleRuns b 1 bs :=
  rleRuns_flush (fun h => Nat.lt_irrefl 255 h.2) bs

/-! ### The round trip -/

/-- The open run and the bytes still to come are what the stream decodes to; a count of at most 255 fits its byte. -/
theorem rleDecode_rleRuns (v : Byte) {count : Nat} (h : count ≤ 255) (bs : Buffer) :
    rleDecode (rleRuns v count bs) = List.replicate count v ++ bs := by
  have hcount {c : Nat} (hc : c ≤ 255) : (BitVec.ofNat 8 c).toNat = c :=
    (BitVec.toNat_ofNat _ _).trans (Nat.mod_eq_of_lt (Nat.lt_succ_of_le hc))
  induction bs generalizing v count with
  | nil => simp [rleRuns, rleDecode, hcount h]
  | cons b bs ih =>
    by_cases hrun : b = v ∧ count < 255
    · obtain ⟨rfl, hlt⟩ := hrun
      rw [rleRuns_extend hlt, ih b hlt, List.replicate_succ', List.append_assoc, List.singleton_append]
    · rw [rleRuns_flush hrun, rleDecode, hcount h, ih b (by decide), List.replicate_one, List.singleton_append]

theorem rleDecode_rleEncode (x : Buffer) : rleDecode (rleEncode x) = x := by
  cases x with
  | nil => rfl
  | cons b bs => exact rleDecode_rleRuns b (by decide) bs

/-! ### The pairs of the stream -/

theorem rleRuns_length_even (v : Byte) (count : Nat) (bs : Buffer) : (rleRuns v count bs).length % 2 = 0 := by
  induction bs generalizing v count with
  | nil => simp [rleRuns]
  | cons b bs ih =>
    rw [rleRuns]
    split
    · exact ih v (count + 1)
    · rw [List.length_cons, List.length_cons, Nat.add_assoc, Nat.add_mod_right]
      exact ih b 1

theorem rleEncode_length_even (x : Buffer) : (rleEncode x).length % 2 = 0 := by
  cases x with
  | nil => rfl
  | cons b bs => exact rleRuns_length_even b 1 bs

/-- A run is flushed with at least its first byte and at most 255, so its count byte is not 0. -/
theorem rleRuns_count_ne_zero (v : Byte) {count : Nat} (hpos : 0 < count) (hle : count ≤ 255) (bs : Buffer) {j : Nat}
    (hj : 2 * j < (rleRuns v count bs).length) : byteAt (rleRuns v count bs) (2 * j) ≠ 0 := by
  have hcount {c : Nat} (hc : 0 < c) (hc' : c ≤ 255) : BitVec.ofNat 8 c ≠ 0 := by bv_omega
  induction bs generalizing v count j with
  | nil =>
    obtain rfl : j = 0 := by simp [rleRuns] at hj; omega
    exact hcount hpos hle
  | cons b bs ih =>
    by_cases hrun : b = v ∧ count < 255
    · obtain ⟨rfl, hlt⟩ := hrun
      rw [rleRuns_extend hlt] at hj ⊢
      exact ih b (Nat.succ_pos count) hlt hj
    · rw [rleRuns_flush hrun] at hj ⊢
      cases j with
      | zero => exact hcount hpos hle
      | succ j => exact ih b Nat.one_pos (by decide) (by simp at hj; omega)

theorem rleEncode_count_ne_zero (x : Buffer) {j : Nat} (hj : 2 * j < (rleEncode x).length) :
    byteAt (rleEncode x) (2 * j) ≠ 0 := by
  cases x with
  | nil => simp [rleEncode] at hj
  | cons b bs => exact rleRuns_count_ne_zero b Nat.one_pos (by decide) bs hj

/-! ### Runs are encoded apart -/

/-- Where the next byte differs from the last one scanned, the open run is flushed and the scan starts afresh. -/
theorem rleRuns_append (v : Byte) (count : Nat) (xs : Buffer) {y : Buffer}
    (h : ∀ b, (v :: xs).getLast? = some b → y.head? ≠ some b) :
    rleRuns v count (xs ++ y) = rleRuns v count xs ++ rleEncode y := by
  induction xs generalizing v count with
  | nil =>
    cases y with
    | nil => rfl
    | cons b bs =>
      have hne : b ≠ v := fun hbv => h v rfl (congrArg some hbv)
      exact rleRuns_flush (fun hrun => hne hrun.1) bs
  | cons x xs ih =>
    rw [List.getLast?_cons_cons] at h
    by_cases hrun : x = v ∧ count < 255
    · obtain ⟨rfl, hlt⟩ := hrun
      rw [List.cons_append, rleRuns_extend hlt, rleRuns_extend hlt, ih x (count + 1) h]
    · rw [List.cons_append, rleRuns_flush hrun, rleRuns_flush hrun, ih x 1 h, List.cons_append, List.cons_append]

theorem rleEncode_append {x y : Buffer} (h : ∀ b, x.getLast? = some b → y.head? ≠ some b) :
    rleEncode (x ++ y) = rleEncode x ++ rleEncode y := by
  cases x with
  | nil => rfl
  | cons b bs => exact rleRuns_append b 1 bs h

/-- An open run of `count` with `k` more of its bytes to come is flushed as ⌈(count + k) / 255⌉ pairs. -/
theorem rleRuns_replicate_length (v : Byte) {count : Nat} (hpos : 0 < count) (hle : count ≤ 255) (k : Nat) :
    (rleRuns v count (List.replicate k v)).length = 2 * ((count + k + 254) / 255) := by
  induction k generalizing count with
  | zero =>
    have hone : (count + 0 + 254) / 255 = 1 := by omega
    rw [hone]
    rfl
  | succ k ih =>
    rw [List.replicate_succ]
    obtain hlt | rfl := Nat.lt_or_eq_of_le hle
    · rw [rleRuns_extend hlt, ih (Nat.succ_pos count) hlt, Nat.add_assoc count 1 k, Nat.add_comm 1 k]
    · rw [rleRuns_flush_full, List.length_cons, List.length_cons, ih Nat.one_pos (by decide)]
      omega

theorem rleEncode_replicate_length (v : Byte) (n : Nat) :
    (rleEncode (List.replicate n v)).length = 2 * ((n + 254) / 255) := by
  cases n with
  | zero => rfl
  | succ k =>
    rw [List.replicate_succ, rleEncode, rleRuns_replicate_length v Nat.one_pos (by decide), Nat.add_comm 1 k]

end Sys2Proof.Machine
end


section
/-! PROOFS. The obligation O43: the RLE round trip and the splitting of runs. -/

namespace Sys2Proof.Machine

/-- Settles O43: each pair decodes to the run it was flushed from, and at both ends of a maximal run the byte changes, so
the scan starts afresh there. -/
theorem rleRoundTrip : Obligations.RleRoundTrip := by
  unfold Obligations.RleRoundTrip
  refine ⟨fun x => ⟨rleDecode_rleEncode x, rleEncode_length_even x, fun j hj => rleEncode_count_ne_zero x hj⟩, ?_⟩
  intro x y n v hn hx hy
  have hhead : (List.replicate n v).head? = some v := by rw [List.head?_replicate, if_neg hn.ne']
  have hlast : (x ++ List.replicate n v).getLast? = some v := by
    rw [List.getLast?_append, List.getLast?_replicate, if_neg hn.ne', Option.some_or]
  have hleft : ∀ b, x.getLast? = some b → (List.replicate n v).head? ≠ some b :=
    fun b hb hv => hx (hb.trans (hv.symm.trans hhead))
  have hright : ∀ b, (x ++ List.replicate n v).getLast? = some b → y.head? ≠ some b :=
    fun b hb hv => hy (hv.trans (hb.symm.trans hlast))
  exact ⟨by rw [rleEncode_append hright, rleEncode_append hleft], rleEncode_replicate_length v n⟩

end Sys2Proof.Machine
end


section
/-! SUPPORT. The Huffman tree as the set of its leaves (R202, R203): which symbols it holds, what its paths lead to, and the
code table as the list of these paths (R205, R207). -/

namespace Sys2Proof.Machine

/-! ### The 256 bytes -/

theorem mem_allBytes (b : Byte) : b ∈ allBytes := mem_mtfIdentity b

theorem allBytes_nodup : allBytes.Nodup := by
  refine List.nodup_range.map_on fun i hi j hj hij => ?_
  have hi' := List.mem_range.mp hi
  have hj' := List.mem_range.mp hj
  simpa [Nat.mod_eq_of_lt hi', Nat.mod_eq_of_lt hj'] using congrArg BitVec.toNat hij

/-! ### The symbols of a tree -/

/-- The symbols at the leaves of a tree, from left to right. -/
def HuffNode.symbols : HuffNode → List Byte
  | .leaf sym _ _ => [sym]
  | .node left right _ _ => left.symbols ++ right.symbols

theorem HuffNode.symbols_length_pos (n : HuffNode) : 0 < n.symbols.length := by
  induction n with
  | leaf sym f q => exact Nat.one_pos
  | node left right f q ihl ihr => simp [HuffNode.symbols, ihl]

/-- `ExtractMin` splits the queue into the node it takes and the others (R203). -/
theorem extractMin_perm {q rest : List HuffNode} {a : HuffNode} (h : extractMin q = some (a, rest)) :
    (a :: rest).Perm q := by
  induction q generalizing a rest with
  | nil => cases h
  | cons b bs ih =>
    simp only [extractMin] at h
    split at h
    · next hn =>
      cases bs with
      | nil => cases h; exact .refl _
      | cons c cs => exact absurd hn (extractMin_cons_ne_none c cs)
    · next m others hm =>
      split at h <;> cases h
      · exact .refl _
      · exact (List.Perm.swap b a others).trans ((ih hm).cons b)

/-- A merge puts the leaves of two nodes under one, so the tree has exactly the leaves of the queue (R202). -/
theorem mergeNodes_symbols_perm {fuel t : Nat} {q : List HuffNode} {root : HuffNode}
    (h : mergeNodes fuel t q = some root) : root.symbols.Perm (q.flatMap HuffNode.symbols) := by
  induction fuel generalizing t q with
  | zero => cases h
  | succ fuel ih =>
    simp only [mergeNodes] at h
    split at h
    · cases h
    · next a q₁ h₁ =>
      have hfirst := (extractMin_perm h₁).flatMap_right HuffNode.symbols
      split at h
      · next h₂ =>
        cases h
        cases q₁ with
        | nil => simpa using hfirst
        | cons c cs => exact absurd h₂ (extractMin_cons_ne_none c cs)
      · next b q₂ h₂ =>
        have hsecond := ((extractMin_perm h₂).flatMap_right HuffNode.symbols).append_left a.symbols
        simpa [HuffNode.symbols] using (ih h).trans (List.Perm.trans (by simp [HuffNode.symbols]) (hsecond.trans hfirst))

/-- The bytes with a nonzero frequency, in order. -/
def usedBytes (freq : List Nat) : List Byte := allBytes.filter (fun s => decide (freq.getD s.toNat 0 ≠ 0))

theorem mem_usedBytes {freq : List Nat} {s : Byte} : s ∈ usedBytes freq ↔ freq.getD s.toNat 0 ≠ 0 := by
  simp [usedBytes, mem_allBytes]

theorem usedBytes_nodup (freq : List Nat) : (usedBytes freq).Nodup := allBytes_nodup.filter _

/-- The queue at the start has one leaf per used byte (R202). -/
theorem huffLeaves_eq_map (freq : List Nat) :
    huffLeaves freq = (usedBytes freq).map (fun s => .leaf s (freq.getD s.toNat 0) s.toNat) := by
  rw [huffLeaves, usedBytes, allBytes, List.filter_map, List.map_map, ← List.filterMap_eq_map,
    ← List.filterMap_eq_filter, List.filterMap_filterMap]
  refine List.filterMap_congr fun k hk => ?_
  have hk' : k % 256 = k := Nat.mod_eq_of_lt (List.mem_range.mp hk)
  by_cases h0 : freq.getD k 0 = 0 <;> simp [-List.getD_eq_getElem?_getD, Option.guard, hk', h0]

theorem flatMap_symbols_huffLeaves (freq : List Nat) : (huffLeaves freq).flatMap HuffNode.symbols = usedBytes freq := by
  rw [huffLeaves_eq_map, List.flatMap_map]
  exact List.flatMap_singleton' _

theorem buildTree_symbols_perm {freq : List Nat} {root : HuffNode} (h : buildTree freq = some root) :
    root.symbols.Perm (usedBytes freq) :=
  flatMap_symbols_huffLeaves freq ▸ mergeNodes_symbols_perm h

/-- There is no tree exactly when no byte is used (R202). -/
theorem buildTree_eq_none_iff {freq : List Nat} : buildTree freq = none ↔ usedBytes freq = [] := by
  constructor
  · intro hnone
    by_contra hne
    have hq : huffLeaves freq ≠ [] := by rwa [huffLeaves_eq_map, ne_eq, List.map_eq_nil_iff]
    exact Option.isSome_iff_ne_none.mp (mergeNodes_isSome hq le_rfl) hnone
  · intro hnil
    rw [buildTree, huffLeaves_eq_map, hnil]
    rfl

/-! ### Paths (R205) -/

/-- Only the empty path ends at a leaf that is the whole tree (R204). -/
theorem leafAt_leaf {sym s : Byte} {f q : Nat} {c : Bits} :
    leafAt (.leaf sym f q) c = some s ↔ c = [] ∧ s = sym := by
  cases c <;> simp [leafAt, eq_comm]

/-- The decoder's walk follows a path to its leaf and leaves the bits after it (R209). -/
theorem huffWalk_of_leafAt {n : HuffNode} {s : Byte} {c : Bits} (h : leafAt n c = some s) (rest : Bits) :
    huffWalk n (c ++ rest) = some (s, rest) := by
  induction n generalizing c with
  | leaf sym f q =>
    obtain ⟨rfl, rfl⟩ := leafAt_leaf.mp h
    rfl
  | node left right f q ihl ihr =>
    match c, h with
    | false :: c, h => exact ihl h
    | true :: c, h => exact ihr h

/-- A path that begins with another path is that path: both lead the walk to one leaf (R205). -/
theorem eq_of_leafAt_prefix {n : HuffNode} {s t : Byte} {c d : Bits} (hc : leafAt n c = some s)
    (hd : leafAt n d = some t) (h : c <+: d) : s = t := by
  obtain ⟨e, rfl⟩ := h
  have hwalk := (huffWalk_of_leafAt hc e).symm.trans (List.append_nil (c ++ e) ▸ huffWalk_of_leafAt hd [])
  cases hwalk
  rfl

/-- Every internal node on a path leaves at least one leaf aside, so a path is shorter than the number of leaves (R207). -/
theorem length_lt_of_leafAt {n : HuffNode} {s : Byte} {c : Bits} (h : leafAt n c = some s) :
    c.length < n.symbols.length := by
  induction n generalizing c with
  | leaf sym f q =>
    obtain ⟨rfl, -⟩ := leafAt_leaf.mp h
    exact Nat.one_pos
  | node left right f q ihl ihr =>
    have hl := left.symbols_length_pos
    have hr := right.symbols_length_pos
    rw [HuffNode.symbols, List.length_append]
    match c, h with
    | false :: c, h => have := ihl h; rw [List.length_cons]; omega
    | true :: c, h => have := ihr h; rw [List.length_cons]; omega

/-! ### The code table -/

theorem map_fst_visitCodes (n : HuffNode) (path : Bits) : (visitCodes n path).map Prod.fst = n.symbols := by
  induction n generalizing path with
  | leaf sym f q => rfl
  | node left right f q ihl ihr => simp [visitCodes, HuffNode.symbols, ihl, ihr]

/-- `visit` lists the paths from a node to its leaves, each after the path to the node (R205). -/
theorem mem_visitCodes {n : HuffNode} {path c : Bits} {s : Byte} :
    (s, c) ∈ visitCodes n path ↔ ∃ d, c = path ++ d ∧ leafAt n d = some s := by
  induction n generalizing path with
  | leaf sym f q => simp [visitCodes, leafAt_leaf, and_comm]
  | node left right f q ihl ihr =>
    simp only [visitCodes, List.mem_append, ihl, ihr, List.append_assoc, List.singleton_append]
    constructor
    · rintro (⟨d, rfl, hd⟩ | ⟨d, rfl, hd⟩)
      · exact ⟨false :: d, rfl, hd⟩
      · exact ⟨true :: d, rfl, hd⟩
    · rintro ⟨d, rfl, hd⟩
      match d, hd with
      | false :: d, hd => exact .inl ⟨d, rfl, hd⟩
      | true :: d, hd => exact .inr ⟨d, rfl, hd⟩

/-- The entries of the code table are the symbols of the tree with their paths (R205). -/
theorem mem_codeTable {freq : List Nat} {s : Byte} {c : Bits} :
    (s, c) ∈ codeTable freq ↔ ∃ root, buildTree freq = some root ∧ leafAt root c = some s := by
  rw [codeTable]
  cases buildTree freq with
  | none => simp [codesOf]
  | some root => simp [codesOf, mem_visitCodes]

/-- The code table has one entry per used byte (R205). -/
theorem map_fst_codeTable_perm (freq : List Nat) : ((codeTable freq).map Prod.fst).Perm (usedBytes freq) := by
  rw [codeTable]
  cases hroot : buildTree freq with
  | none => rw [buildTree_eq_none_iff.mp hroot]; exact .refl _
  | some root => rw [codesOf, map_fst_visitCodes]; exact buildTree_symbols_perm hroot

theorem codeTable_symbols_nodup (freq : List Nat) : ((codeTable freq).map Prod.fst).Nodup :=
  (map_fst_codeTable_perm freq).nodup_iff.mpr (usedBytes_nodup freq)

/-- With one entry per symbol, looking a symbol up finds its entry. -/
theorem codeFor_eq_some_iff_mem {code : List (Byte × Bits)} {s : Byte} {c : Bits} (h : (code.map Prod.fst).Nodup) :
    codeFor code s = some c ↔ (s, c) ∈ code := by
  induction code with
  | nil => simp [codeFor]
  | cons e code ih =>
    obtain ⟨t, d⟩ := e
    obtain ⟨hnotin, hnodup⟩ := List.nodup_cons.mp h
    by_cases hst : s = t
    · subst hst
      have hother : (s, c) ∉ code := fun hmem => hnotin (List.mem_map.mpr ⟨_, hmem, rfl⟩)
      simp [codeFor, hother, eq_comm]
    · have hlookup : codeFor ((t, d) :: code) s = codeFor code s := by
        rw [codeFor, List.lookup_cons, beq_false_of_ne hst]; rfl
      simp [hlookup, ih hnodup, hst]

/-- The code of a symbol is the path from the root to its leaf (R205). -/
theorem codeFor_eq_some_iff {freq : List Nat} {s : Byte} {c : Bits} :
    codeFor (codeTable freq) s = some c ↔ ∃ root, buildTree freq = some root ∧ leafAt root c = some s :=
  (codeFor_eq_some_iff_mem (codeTable_symbols_nodup freq)).trans mem_codeTable

/-- Exactly the used bytes have a code (R205). -/
theorem codeFor_isSome_iff {freq : List Nat} {s : Byte} :
    (codeFor (codeTable freq) s).isSome = true ↔ freq.getD s.toNat 0 ≠ 0 := by
  rw [← mem_usedBytes, ← (map_fst_codeTable_perm freq).mem_iff, codeFor, List.lookup_isSome_iff]
  simp only [beq_iff_eq, List.mem_map, @eq_comm Byte s]

theorem usedBytes_length_le (freq : List Nat) : (usedBytes freq).length ≤ 256 :=
  (List.length_filter_le _ allBytes).trans_eq (by simp [allBytes])

/-- A code is shorter than the number of used bytes (R207). -/
theorem length_lt_of_codeFor {freq : List Nat} {s : Byte} {c : Bits} (h : codeFor (codeTable freq) s = some c) :
    c.length < (usedBytes freq).length := by
  obtain ⟨root, hroot, hleaf⟩ := codeFor_eq_some_iff.mp h
  exact (buildTree_symbols_perm hroot).length_eq ▸ length_lt_of_leafAt hleaf

end Sys2Proof.Machine
end


section
/-! PROOFS. The obligation O48: the codes are the paths of the tree, none begins another, and they are bounded. -/

namespace Sys2Proof.Machine

/-- Settles O48: the table lists the paths of a tree whose leaves are the used bytes, one each, and a path that extends
another leads to the same leaf. -/
theorem codesArePrefixFreeAndBounded : Obligations.CodesArePrefixFreeAndBounded := by
  unfold Obligations.CodesArePrefixFreeAndBounded
  refine fun freq => ⟨codeTable_symbols_nodup freq, ?_, fun s c => codeFor_eq_some_iff,
    fun root s c rest h => huffWalk_of_leafAt h rest, ?_, ?_⟩
  · exact fun s => Bool.eq_iff_iff.mpr (codeFor_isSome_iff.trans decide_eq_true_iff.symm)
  · intro s t c d hc hd hbegins
    obtain ⟨root, hroot, hleafc⟩ := codeFor_eq_some_iff.mp hc
    obtain ⟨root', hroot', hleafd⟩ := codeFor_eq_some_iff.mp hd
    obtain rfl : root = root' := Option.some.inj (hroot.symm.trans hroot')
    exact eq_of_leafAt_prefix hleafc hleafd hbegins
  · intro s c hc
    have hlen : (codeTable freq).length = (usedBytes freq).length := by
      simpa using (map_fst_codeTable_perm freq).length_eq
    have hshort := length_lt_of_codeFor hc
    have hused := usedBytes_length_le freq
    omega

end Sys2Proof.Machine
end


section
/-! SUPPORT. The frequency table: the count of each byte, the length of the buffer as their sum (R200), and the record read
back (R96). -/

namespace Sys2Proof.Machine

theorem freqOf_getD (buf : Buffer) {k : Nat} (hk : k < 256) : (freqOf buf).getD k 0 = buf.count (BitVec.ofNat 8 k) := by
  simp [freqOf, allBytes, List.getD_eq_getElem?_getD, hk]

theorem freqOf_getD_toNat (buf : Buffer) (s : Byte) : (freqOf buf).getD s.toNat 0 = buf.count s := by
  rw [freqOf_getD buf s.isLt, BitVec.ofNat_toNat, BitVec.setWidth_eq]

theorem freqOf_getD_le (buf : Buffer) {k : Nat} (hk : k < 256) : (freqOf buf).getD k 0 ≤ buf.length :=
  (freqOf_getD buf hk).trans_le List.count_le_length

theorem count_eq_length_filter (buf : Buffer) (s : Byte) :
    buf.count s = ((List.range buf.length).filter (fun i => byteAt buf i == s)).length := by
  rw [← countP_take_eq_length_filter (· == s) le_rfl, List.take_length, List.count]

/-- Each position holds one of the listed bytes, so their counts add up to the length. -/
theorem sum_map_count {l : List Byte} (hnodup : l.Nodup) (buf : Buffer) (hall : ∀ b ∈ buf, b ∈ l) :
    (l.map (fun s => buf.count s)).sum = buf.length := by
  rw [← List.sum_toFinset _ hnodup]
  simpa using Multiset.sum_count_eq_card (m := (buf : Multiset Byte)) fun b hb => List.mem_toFinset.mpr (hall b hb)

/-- The frequencies of a buffer add up to its length (R200). -/
theorem sum_freqOf (buf : Buffer) : (freqOf buf).sum = buf.length :=
  sum_map_count allBytes_nodup buf fun b _ => mem_allBytes b

theorem readWords_le32_append (n : Nat) (w : Word) (rest : Buffer) :
    readWords (n + 1) (le32 w ++ rest) = w.toNat :: readWords n rest := by
  conv_rhs => rw [← rdLe32_le32 w []]
  rfl

/-- Words written one after the other are read back, whatever follows (R16, R96). -/
theorem readWords_flatMap_le32 (ws : List Word) (rest : Buffer) :
    readWords ws.length (ws.flatMap le32 ++ rest) = ws.map BitVec.toNat := by
  induction ws with
  | nil => simp [readWords]
  | cons w ws ih =>
    rw [List.flatMap_cons, List.append_assoc, List.length_cons, readWords_le32_append, ih, List.map_cons]

/-- The frequency-table record reads back as the table when each entry fits its word (R96). -/
theorem readFreqs_freqRecord {freq : List Nat} (rest : Buffer) (hlen : freq.length = 256)
    (hfit : ∀ f ∈ freq, f < 2 ^ 32) : readFreqs (freqRecord freq ++ rest) = freq := by
  have hrecord : freqRecord freq = (freq.map (BitVec.ofNat 32)).flatMap le32 := by
    have hentries : freq = (List.range 256).map (freq.getD · 0) :=
      List.ext_getElem (by simp [hlen]) fun i hi _ => by simp [hi]
    conv_rhs => rw [hentries, List.map_map, List.flatMap_map]
    rfl
  have hread := readWords_flatMap_le32 (freq.map (BitVec.ofNat 32)) rest
  rw [List.length_map, hlen, List.map_map] at hread
  rw [readFreqs, hrecord, hread]
  exact List.map_congr_left (fun f hf => Nat.mod_eq_of_lt (hfit f hf)) |>.trans (List.map_id freq)

/-- The table of a buffer reads back when the counts fit their words (R96, R200). -/
theorem readFreqs_huffEncode {x : Buffer} (rest : Buffer) (h : x.length < 2 ^ 32) :
    readFreqs (huffEncode x ++ rest) = freqOf x := by
  rw [huffEncode, List.append_assoc]
  refine readFreqs_freqRecord _ (freqOf_length x) fun f hf => ?_
  obtain ⟨s, -, rfl⟩ := List.mem_map.mp hf
  exact List.count_le_length.trans_lt h

end Sys2Proof.Machine
end


section
/-! PROOFS. The obligation O46: the frequency table counts positions. -/

namespace Sys2Proof.Machine

/-- Settles O46: an entry counts the positions of its byte, so it is at most the length of the buffer. -/
theorem frequenciesCountPositions : Obligations.FrequenciesCountPositions := by
  unfold Obligations.FrequenciesCountPositions
  refine fun buf => ⟨freqOf_length buf, fun k hk => ⟨?_, fun hlen => ?_⟩⟩
  · rw [freqOf_getD buf hk, count_eq_length_filter]
  · exact (freqOf_getD_le buf hk).trans_lt (Nat.lt_of_le_of_lt hlen (by decide))

end Sys2Proof.Machine
end


section
/-! SUPPORT. The packed bits read back, zero-padded (R97, R208, R209), and the walk over a sequence of codes gives the
encoded buffer (R209, R214). -/

namespace Sys2Proof.Machine

/-- Bits read as a number, the most significant first: bit `n - 1 - r` of the number is bit `r` of the sequence. -/
theorem testBit_foldl_bits (f : Nat → Bool) {n r : Nat} (h : r < n) :
    ((List.range n).foldl (fun acc r => 2 * acc + (f r).toNat) 0).testBit (n - 1 - r) = f r := by
  induction n with
  | zero => omega
  | succ n ih =>
    rw [List.range_succ, List.foldl_append, List.foldl_cons, List.foldl_nil, ← Nat.bit_val]
    obtain hlt | rfl := Nat.lt_succ_iff_lt_or_eq.mp h
    · rw [show n + 1 - 1 - r = (n - 1 - r) + 1 by omega, Nat.testBit_bit_succ]
      exact ih hlt
    · rw [Nat.add_sub_cancel, Nat.sub_self, Nat.testBit_bit_zero]

/-- Unpacking a packed byte gives its eight bits, zeros past the end of the sequence (R97, R209). -/
theorem unpackByte_packByte (bits : Bits) :
    unpackByte (packByte bits) = (List.range 8).map (fun r => bits.getD r false) := by
  refine List.map_congr_left fun r hr => ?_
  have hr8 : r < 8 := List.mem_range.mp hr
  rw [packByte, BitVec.getLsbD_ofNat, decide_eq_true (show 7 - r < 8 by omega), Bool.true_and]
  exact testBit_foldl_bits (fun r => bits.getD r false) hr8

theorem flatMap_range_eight {α : Type} (f : Nat → α) (n : Nat) :
    (List.range n).flatMap (fun q => (List.range 8).map (fun r => f (8 * q + r))) = (List.range (8 * n)).map f := by
  induction n with
  | zero => rfl
  | succ n ih =>
    rw [List.range_succ (n := n), List.flatMap_append, ih, List.flatMap_singleton, Nat.mul_succ, List.range_add,
      List.map_append, List.map_map]
    rfl

theorem map_range_getD_eq_append {bits : Bits} {n : Nat} (h : bits.length ≤ n) :
    (List.range n).map (fun j => bits.getD j false) = bits ++ List.replicate (n - bits.length) false := by
  refine List.ext_getElem (by simp; omega) fun i hi _ => ?_
  by_cases hib : i < bits.length
  · simp [hib]
  · simp [hib, List.getElem_append_right (Nat.le_of_not_lt hib)]

/-- The bits of the packed bytes are the sequence, with zeros up to a whole byte (R97, R208, R209). -/
theorem unpackBits_packBits (bits : Bits) :
    unpackBits (packBits bits) = bits ++ List.replicate (8 * ((bits.length + 7) / 8) - bits.length) false := by
  have hchunk (q : Nat) : unpackByte (packByte ((bits.drop (8 * q)).take 8)) =
      (List.range 8).map (fun r => bits.getD (8 * q + r) false) := by
    rw [unpackByte_packByte]
    refine List.map_congr_left fun r hr => ?_
    simp [List.getD_eq_getElem?_getD, List.getElem?_take_of_lt (List.mem_range.mp hr)]
  rw [unpackBits, packBits, List.flatMap_map]
  simp only [hchunk]
  rw [flatMap_range_eight (fun j => bits.getD j false), map_range_getD_eq_append (by omega)]

/-- The packed bytes begin with the bits of the sequence, whatever bytes follow (R208). -/
theorem isPrefix_unpackBits_packBits (bits : Bits) (rest : Buffer) : bits <+: unpackBits (packBits bits ++ rest) := by
  rw [unpackBits, List.flatMap_append, ← unpackBits, unpackBits_packBits, List.append_assoc]
  exact ⟨_, rfl⟩

/-! ### Decoding a sequence of codes (R209) -/

theorem codeBits_cons {code : List (Byte × Bits)} {b : Byte} {c : Bits} (bs : Buffer) (h : codeFor code b = some c) :
    codeBits code (b :: bs) = c ++ codeBits code bs := by
  simp [codeBits, h]

/-- The loop decodes the codes of `x` one after the other, whatever bits follow (R209). -/
theorem huffSymbols_codeBits {code : List (Byte × Bits)} {root : HuffNode} {x : Buffer}
    (h : ∀ b ∈ x, ∃ c, codeFor code b = some c ∧ leafAt root c = some b) (rest : Bits) (out : Buffer) :
    huffSymbols root x.length (codeBits code x ++ rest) out = .ok (out.reverse ++ x) := by
  induction x generalizing out with
  | nil => simp [huffSymbols]
  | cons b bs ih =>
    obtain ⟨⟨c, hc, hleaf⟩, hbs⟩ := List.forall_mem_cons.mp h
    have hwalk := huffWalk_of_leafAt hleaf (codeBits code bs ++ rest)
    simp [codeBits_cons bs hc, huffSymbols, hwalk, ih hbs]

/-- A tree's symbols come out of their codes; a one-leaf tree has an empty code, so all of `x` is its symbol (R206). -/
theorem huffEmit_codeBits {code : List (Byte × Bits)} {root : HuffNode} {x : Buffer}
    (h : ∀ b ∈ x, ∃ c, codeFor code b = some c ∧ leafAt root c = some b) (rest : Bits) :
    huffEmit root x.length (codeBits code x ++ rest) = .ok x := by
  cases root with
  | leaf sym f q =>
    refine congrArg Except.ok (List.eq_replicate_of_mem fun b hb => ?_).symm
    obtain ⟨c, -, hleaf⟩ := h b hb
    exact (leafAt_leaf.mp hleaf).2
  | node left right f q => exact huffSymbols_codeBits h rest []

/-- Every byte of a buffer has a code in the table of the buffer's frequencies, the path to its leaf (R205, R208). -/
theorem exists_code_of_mem {x : Buffer} {b : Byte} (h : b ∈ x) : ∃ c root, codeFor (codeTable (freqOf x)) b = some c ∧
    buildTree (freqOf x) = some root ∧ leafAt root c = some b := by
  have hused : (freqOf x).getD b.toNat 0 ≠ 0 := by
    rw [freqOf_getD_toNat]
    exact (List.count_pos_iff.mpr h).ne'
  obtain ⟨c, hc⟩ := Option.isSome_iff_exists.mp (codeFor_isSome_iff.mpr hused)
  obtain ⟨root, hroot, hleaf⟩ := codeFor_eq_some_iff.mp hc
  exact ⟨c, root, hc, hroot, hleaf⟩

/-- `HuffDecode` undoes `HuffEncode`, whatever bytes follow the payload (R214). -/
theorem huffDecode_huffEncode {scratch : Nat} {x : Buffer} (stage : Stage) (rest : Buffer)
    (hscratch : x.length ≤ scratch) (hword : x.length < 2 ^ 32) :
    huffDecode scratch stage (huffEncode x ++ rest) = .ok x := by
  have htable : 1024 ≤ (huffEncode x ++ rest).length := by simp [huffEncode, freqRecord_length]
  have hpayload : (huffEncode x ++ rest).drop 1024 = packBits (codeBits (codeTable (freqOf x)) x) ++ rest := by
    rw [huffEncode, List.append_assoc, ← freqRecord_length (freqOf x), List.drop_left]
  rw [huffDecode_eq_ok, readFreqs_huffEncode rest hword, sum_freqOf, hpayload]
  refine ⟨htable, hscratch, ?_⟩
  cases hroot : buildTree (freqOf x) with
  | none =>
    refine .inl ⟨rfl, List.eq_nil_iff_forall_not_mem.mpr fun b hb => ?_⟩
    obtain ⟨-, root, -, hsome, -⟩ := exists_code_of_mem hb
    cases hroot.symm.trans hsome
  | some root =>
    have hcodes : ∀ b ∈ x, ∃ c, codeFor (codeTable (freqOf x)) b = some c ∧ leafAt root c = some b := by
      intro b hb
      obtain ⟨c, root', hc, hsome, hleaf⟩ := exists_code_of_mem hb
      obtain rfl : root = root' := Option.some.inj (hroot.symm.trans hsome)
      exact ⟨c, hc, hleaf⟩
    obtain ⟨bits, hbits⟩ := isPrefix_unpackBits_packBits (codeBits (codeTable (freqOf x)) x) rest
    exact .inr ⟨root, rfl, hbits ▸ huffEmit_codeBits hcodes bits⟩

end Sys2Proof.Machine
end


section
/-! PROOFS. The obligation O52: the Huffman round trip. -/

namespace Sys2Proof.Machine

/-- Settles O52: the table reads back as the buffer's frequencies, so both sides have one tree, and the walk follows the
codes. -/
theorem huffmanRoundTrip : Obligations.HuffmanRoundTrip := by
  unfold Obligations.HuffmanRoundTrip
  intro s x rest hlegal hsrc hbuf hscratch hdst
  have hword : x.length < 2 ^ 32 := by
    simp only [Config.legal, Bool.and_eq_true, decide_eq_true_eq] at hlegal
    omega
  refine endsIn_doneWith_of_body rfl hsrc hdst ?_
  rw [hbuf]
  have hdecode := huffDecode_huffEncode .huffmanDecoder rest hscratch hword
  exact (opHufDec_eq_ok (aux := s.auxBuf .hufDec) (l := s.latch)).mpr ⟨x, hdecode, rfl⟩

end Sys2Proof.Machine
end


section
/-! SUPPORT. A command whose regions are valid, its AUX region among them (R61, R90): the frame ends as the command's own
function does. What PIPE_DEC takes from the metadata record and makes of the decoded length (R244, R246). -/

namespace Sys2Proof.Machine

theorem regionsValid_of_auxReady (i : Instr) {s : State} {n : Nat} (hsrc : s.srcReady) (haux : s.auxReady)
    (hdst : s.dstRoom n) : RegionsValid i s.cfg.memBytes s.latch :=
  ⟨hsrc.1, hdst.1, fun _ => haux⟩

/-- The command's own error is the frame's when the regions the command uses are valid and its input fits the scratch
(R273). -/
theorem endsIn_errorWith_of_regionsValid {i : Instr} {s : State} {code : ErrCode} {stage : Stage} {i0 i1 : Word}
    (hregions : RegionsValid i s.cfg.memBytes s.latch) (hsrc : s.srcReady)
    (hbody : bodyOf i s.cfg.scratchLen s.srcBuf (s.auxBuf i) s.latch = .error ⟨code, stage, i0, i1⟩) :
    EndsIn i s (s.errorWith code stage i0 i1) :=
  endsIn_errorWith.mpr <| frameResult_eq_error.mpr <| .inr ⟨hregions, .inr ⟨hsrc.2, .inl hbody⟩⟩

/-- The command's own result is committed when the regions are valid, its input fits the scratch and the result fits DST
and AUX (R90). -/
theorem endsIn_complete_of_regionsValid {i : Instr} {s : State} {res : CmdResult}
    (hregions : RegionsValid i s.cfg.memBytes s.latch) (hsrc : s.srcReady)
    (hbody : bodyOf i s.cfg.scratchLen s.srcBuf (s.auxBuf i) s.latch = .ok res)
    (hfits : res.out.length ≤ s.latch.dstCap.toNat) (hrecord : auxUse i = some .output → 8 ≤ s.latch.auxLen.toNat) :
    EndsIn i s (s.complete res) :=
  ⟨_, (exec_eq_execute i s).trans (execute_of_ok (frameResult_eq_ok.mpr ⟨hregions, hsrc.2, hbody, hfits, hrecord⟩))⟩

/-! ### The metadata record in the AUX region (R99, R244) -/

@[simp] theorem State.auxBuf_pipeDec_length (s : State) : (s.auxBuf .pipeDec).length = s.latch.auxLen.toNat :=
  Memory.readBuf_length _ _ _

/-- A word inside the first `k` bytes of a region does not depend on how many bytes follow them. -/
theorem rdLe32_readBuf_of_le (m : Memory) (a : Nat) {off k n : Nat} (hoff : off + 4 ≤ k) (hk : k ≤ n) :
    rdLe32 (m.readBuf a n) off = rdLe32 (m.readBuf a k) off := by
  have hbyte (j : Nat) (hj : j < 4) : byteAt (m.readBuf a n) (off + j) = byteAt (m.readBuf a k) (off + j) :=
    (Memory.readBuf_getD m (by omega)).trans (Memory.readBuf_getD m (by omega)).symm
  have hfirst : byteAt (m.readBuf a n) off = byteAt (m.readBuf a k) off := hbyte 0 (by decide)
  simp [rdLe32, hfirst, hbyte]

/-- PIPE_DEC takes the words of the record from the first 8 bytes of AUX, however long the region is (R243). -/
theorem State.rdLe32_auxBuf_pipeDec (s : State) {off : Nat} (hoff : off + 4 ≤ 8) (hrecord : 8 ≤ s.latch.auxLen.toNat) :
    rdLe32 (s.auxBuf .pipeDec) off = rdLe32 (s.mem.readBuf s.latch.auxAddr.toNat 8) off :=
  rdLe32_readBuf_of_le s.mem s.latch.auxAddr.toNat hoff hrecord

/-- The metadata check refuses a record of fewer than 8 bytes, an absent one with a code of its own (R244). -/
theorem metadataCheck_eq_error {aux : Buffer} {r : Report} :
    metadataCheck aux = .error r ↔
      (aux.length = 0 ∧ r = ⟨.metadataMissing, .pipeline, 0, 8⟩) ∨
      (0 < aux.length ∧ aux.length < 8 ∧ r = ⟨.metadataTruncated, .pipeline, sat32 aux.length, 8⟩) := by
  simp [metadataCheck, bind_eq_error, List.length_pos_iff]

/-- PIPE_DEC checks the metadata first, so a short record ends it whatever its payload is (R244). -/
theorem pipeDec_endsIn_errorWith_of_metadataCheck {s : State} {n : Nat} {code : ErrCode} {i0 i1 : Word}
    (hsrc : s.srcReady) (haux : s.auxReady) (hdst : s.dstRoom n)
    (hcheck : metadataCheck (s.auxBuf .pipeDec) = .error ⟨code, .pipeline, i0, i1⟩) :
    EndsIn .pipeDec s (s.errorWith code .pipeline i0 i1) :=
  endsIn_errorWith_of_regionsValid (regionsValid_of_auxReady .pipeDec hsrc haux hdst) hsrc
    (bind_eq_error.mpr (.inl hcheck))

/-! ### The end of PIPE_DEC (R243, R246) -/

/-- What PIPE_DEC hands to the frame when its stages gave `x` and the record holds the words `p` and `olen` (R243). -/
def pipeDecResult (x : Buffer) (p olen : Word) : CmdResult :=
  { out := x, primaryIndex := some p, origLen := some olen, warn := lengthWarning x.length olen }

theorem opPipeDec_of_pipeBackward {scratch : Nat} {src aux x : Buffer} (l : Latch) (hrecord : 8 ≤ aux.length)
    (hx : pipeBackward scratch src (rdLe32 aux 0) = .ok x) :
    opPipeDec scratch src aux l = .ok (pipeDecResult x (rdLe32 aux 0) (rdLe32 aux 4)) :=
  opPipeDec_eq_ok.mpr ⟨hrecord, x, hx, rfl⟩

/-- With a whole record, PIPE_DEC completes with what its stages give and the record's two words (R243). -/
theorem pipeDec_endsIn_complete {s : State} {x : Buffer} (hsrc : s.srcReady) (haux : s.auxReady)
    (hrecord : 8 ≤ s.latch.auxLen.toNat) (hdst : s.dstRoom x.length)
    (hx : pipeBackward s.cfg.scratchLen s.srcBuf (rdLe32 (s.mem.readBuf s.latch.auxAddr.toNat 8) 0) = .ok x) :
    EndsIn .pipeDec s (s.complete (pipeDecResult x (rdLe32 (s.mem.readBuf s.latch.auxAddr.toNat 8) 0)
      (rdLe32 (s.mem.readBuf s.latch.auxAddr.toNat 8) 4))) := by
  rw [← s.rdLe32_auxBuf_pipeDec (by decide) hrecord] at hx ⊢
  rw [← s.rdLe32_auxBuf_pipeDec (by decide) hrecord]
  have hbody := opPipeDec_of_pipeBackward s.latch (hrecord.trans_eq s.auxBuf_pipeDec_length.symm) hx
  exact endsIn_complete_of_regionsValid (regionsValid_of_auxReady .pipeDec hsrc haux hdst) hsrc hbody hdst.2 nofun

/-- When the lengths agree there is no warning: DONE, and ERR as it stands (R246). -/
theorem complete_pipeDecResult_of_length_eq (s : State) {x : Buffer} (p : Word) {olen : Word}
    (h : x.length = olen.toNat) :
    s.complete (pipeDecResult x p olen) =
      { s.doneWith x with primaryIndex := p, origLen := olen, unseen := s.before [.outLen, .primaryIndex, .origLen] } := by
  have hwarn : lengthWarning x.length olen = none := if_pos h
  rw [pipeDecResult, hwarn]
  rfl

/-- When the lengths differ the completion carries WARN and the LENGTH_MISMATCH report; a decoded length that fits its word
is reported as it is (R246, R276). -/
theorem complete_pipeDecResult_of_length_ne (s : State) {x : Buffer} (p : Word) {olen : Word}
    (h : x.length ≠ olen.toNat) (hword : x.length < 2 ^ 32) :
    s.complete (pipeDecResult x p olen) =
      { s.doneWith x with
        primaryIndex := p
        origLen := olen
        status := statusDone ||| statusWarn ||| (s.status &&& statusOverrun)
        err := 0x00000B0D
        errInfo0 := BitVec.ofNat 32 x.length
        errInfo1 := olen
        unseen := s.before [.outLen, .primaryIndex, .origLen, .err, .errInfo0, .errInfo1] } := by
  have hsat : sat32 x.length = BitVec.ofNat 32 x.length := by
    rw [sat32, Nat.min_eq_left (Nat.le_sub_one_of_lt hword)]
  have hwarn : lengthWarning x.length olen = some (BitVec.ofNat 32 x.length, olen) := by
    rw [lengthWarning, if_neg h, hsat]
  rw [pipeDecResult, hwarn]
  rfl

end Sys2Proof.Machine
end


section
/-! PROOFS. The obligations O57 and O58: a metadata record that is too short, and a decoded length that is not the recorded
one. -/

namespace Sys2Proof.Machine

/-- Settles O57: the metadata check stands before the decode stages, and the length of AUX alone decides it. -/
theorem shortMetadataEndsPipeDec : Obligations.ShortMetadataEndsPipeDec := by
  unfold Obligations.ShortMetadataEndsPipeDec
  intro s hsrc haux hdst
  constructor
  · intro hzero
    have hcheck : metadataCheck (s.auxBuf .pipeDec) = .error ⟨.metadataMissing, .pipeline, 0, 8⟩ :=
      metadataCheck_eq_error.mpr (.inl ⟨by simp [hzero], rfl⟩)
    exact pipeDec_endsIn_errorWith_of_metadataCheck hsrc haux hdst hcheck
  · intro hpos hshort
    have hcheck : metadataCheck (s.auxBuf .pipeDec) = .error ⟨.metadataTruncated, .pipeline, s.latch.auxLen, 8⟩ := by
      rw [metadataCheck_eq_error, State.auxBuf_pipeDec_length, sat32_toNat]
      exact .inr ⟨hpos, Nat.lt_succ_of_le hshort, rfl⟩
    exact pipeDec_endsIn_errorWith_of_metadataCheck hsrc haux hdst hcheck

/-- Settles O58: PIPE_DEC completes in both cases, and whether the lengths agree decides what the completion reports. -/
theorem lengthMismatchIsAWarning : Obligations.LengthMismatchIsAWarning := by
  unfold Obligations.LengthMismatchIsAWarning
  intro s x hsrc haux hrecord hdst p olen hx
  obtain ⟨u, hu⟩ := pipeDec_endsIn_complete hsrc haux hrecord hdst hx
  have hword : x.length < 2 ^ 32 := hdst.2.trans_lt s.latch.dstCap.isLt
  constructor
  · intro heq
    rw [complete_pipeDecResult_of_length_eq s p heq] at hu
    exact ⟨u, hu⟩
  · intro hne
    rw [complete_pipeDecResult_of_length_ne s p hne hword] at hu
    exact ⟨u, hu⟩

end Sys2Proof.Machine
end


section
/-! SUPPORT. The engine's step into ERROR (R271): it is an error entry, and the word of ERR that the entry writes. -/

namespace Sys2Proof.Machine

/-- A running command that ends in ERROR ends by an error entry, never by a completion, and the warning's code is not among
the codes it can report (R271, R276). -/
theorem engineStep_eq_raiseError_of_error {s t : State} (hb : s.busy = true) (ht : engineStep s = .next t)
    (he : t.error = true) : ∃ r : Report, r.code ≠ .lengthMismatch ∧ t = s.raiseError r := by
  rcases engineStep_cases s with ⟨hidle, -⟩ | ⟨-, i, res, -, -, hx⟩ | ⟨-, i, r, -, hf, hx⟩ | ⟨-, e, -, hx⟩
  · exact absurd hb (by simp [hidle])
  · obtain rfl := Host.Outcome.next.inj (ht.symm.trans hx)
    simp at he
  · exact ⟨r, (frameResult_error_code hf).1, Host.Outcome.next.inj (ht.symm.trans hx)⟩
  · exact ⟨⟨.illegalCmd, .frame, s.latch.cmd, 0⟩, nofun, Host.Outcome.next.inj (ht.symm.trans hx)⟩

@[simp] theorem State.errorWith_err (s : State) (code : ErrCode) (stage : Stage) (i0 i1 : Word) :
    (s.errorWith code stage i0 i1).err = errWord stage code := rfl

end Sys2Proof.Machine
end


section
/-! PROOFS. The obligation O19: the error entry is precise, and the numbers in ERR. -/

namespace Sys2Proof.Machine

/-- Settles O19: a step into ERROR is the error entry, which writes no memory, and ERR packs the numbers of R270 and R272. -/
theorem errorEntryIsPrecise : Obligations.ErrorEntryIsPrecise := by
  unfold Obligations.ErrorEntryIsPrecise
  constructor
  · intro s t hb ht he
    obtain ⟨⟨code, stage, i0, i1⟩, hcode, rfl⟩ := engineStep_eq_raiseError_of_error hb ht he
    exact ⟨code, stage, i0, i1, _, hcode, State.raiseError_eq_errorWith s code stage i0 i1,
      fun a => by rw [State.raiseError_mem]⟩
  · intro s code stage i0 i1 c g hc hg
    have hcode : c = code.num := by cases code <;> simpa [ErrCode.num] using hc
    have hstage : g = stage.num := by cases stage <;> simpa [Stage.num] using hg
    rw [State.errorWith_err, errWord_toNat, hcode, hstage, Nat.mul_comm]

end Sys2Proof.Machine
end

section
/-! SUPPORT. The decoder and the encoder as inverses (R91, R92). -/

namespace Sys2Proof.Machine

/-- R92: the opcodes of the map, from the opcode to the command. -/
theorem opcode_toNat_of_decodeOpcode {op : Byte} {i : Instr} (h : decodeOpcode op = .ok i) :
    i.opcode.toNat = op.toNat := by
  simp only [decodeOpcode] at h
  split at h <;> cases h <;> exact Eq.symm ‹_›

theorem encode_toNat (i : Instr) : (encode i).toNat = i.opcode.toNat := by cases i <;> rfl

theorem decode_encode (i : Instr) : decode (encode i) = .ok i := by cases i <;> rfl

/-- A decoded word is the word of its command: its reserved bits are zero, so it is its own opcode (R91). -/
theorem eq_encode_of_decode {w : Word} {i : Instr} (h : decode w = .ok i) : w = encode i := by
  simp only [decode] at h
  split at h
  · next hres =>
    have hop := opcode_toNat_of_decodeOpcode h
    rw [cmdOpcode_toNat, Nat.mod_eq_of_lt (cmdReserved_eq_zero.mp hres)] at hop
    exact BitVec.eq_of_toNat_eq (hop.symm.trans (encode_toNat i).symm)
  · cases h

theorem tableWord_toNat (w : Word) : tableWord 32 w.toNat = w := by
  rw [tableWord, Nat.mod_eq_of_lt w.isLt, BitVec.ofNat_toNat, BitVec.setWidth_eq]

theorem decode_eq_ok_iff {w : Word} {i : Instr} : decode w = .ok i ↔ w = encode i :=
  ⟨eq_encode_of_decode, fun h => h ▸ decode_encode i⟩

end Sys2Proof.Machine
end


section
/-! PROOFS. The obligations O1 and O2: the command words. -/

namespace Sys2Proof.Machine

/-- Settles O1: the reserved bits and the opcode determine the word, and outside 0x01–0x0C one of them is wrong. -/
theorem decodeExactlyTheOpcodeMap : Obligations.DecodeExactlyTheOpcodeMap := by
  unfold Obligations.DecodeExactlyTheOpcodeMap
  refine fun w => ⟨fun i => decode_eq_ok_iff, decode_eq_error_iff.trans ?_⟩
  rw [← BitVec.toNat_inj, show (0 : Word).toNat = 0 from rfl]
  omega

/-- Settles O2: the decoder evaluated on each of the words. -/
theorem opcodeMapWordsDecode : Obligations.OpcodeMapWordsDecode := by
  unfold Obligations.OpcodeMapWordsDecode
  decide

end Sys2Proof.Machine
end
section
/-! SUPPORT. The regions of a latched command (R72, R301), what the invariant says of a running one (R36, R307), and the
memory a reset leaves. -/

namespace Sys2Proof.Machine

/-! ### Held and abandoned regions -/

theorem src_mem_heldRegions (l : Latch) : ⟨l.srcAddr, l.srcLen, .input⟩ ∈ heldRegions l := by simp [heldRegions]

theorem dst_mem_heldRegions (l : Latch) : ⟨l.dstAddr, l.dstCap, .output⟩ ∈ heldRegions l := by simp [heldRegions]

theorem auxUseOfWord_encode (i : Instr) : auxUseOfWord (encode i) = auxUse i := by cases i <;> rfl

/-- Only the two pipeline commands hold an AUX region, each with its own use (R28, R72). -/
theorem aux_mem_heldRegions {l : Latch} {i : Instr} {use : RegionUse} (hcmd : l.cmd = encode i)
    (huse : auxUse i = some use) : ⟨l.auxAddr, l.auxLen, use⟩ ∈ heldRegions l := by
  simp [heldRegions, hcmd, auxUseOfWord_encode, huse]

/-- The one word that holds AUX as output is PIPE_ENC's. -/
theorem auxUseOfWord_eq_output {w : Word} : auxUseOfWord w = some .output ↔ w = encode .pipeEnc := by
  constructor
  · intro h
    simp only [auxUseOfWord] at h
    split at h
    · next i hd =>
      have hi : i = .pipeEnc := by cases i <;> cases h; rfl
      exact hi ▸ eq_encode_of_decode hd
    · cases h
  · rintro rfl
    rfl

theorem mem_abandonedRegions {l : Latch} {h : HeldRegion} :
    h ∈ abandonedRegions l ↔ h = ⟨l.dstAddr, l.dstCap, .output⟩ ∨
      (l.cmd = encode .pipeEnc ∧ h = ⟨l.auxAddr, l.auxLen, .output⟩) := by
  rw [← auxUseOfWord_eq_output]
  cases hu : auxUseOfWord l.cmd with
  | none => simp [abandonedRegions, heldRegions, hu]
  | some use => cases use <;> simp [abandonedRegions, heldRegions, hu]

/-! ### The memory after a reset (R301) -/

section
variable {n draw a : Nat} {regions : List HeldRegion}

theorem read_foldl_abandon_outside (m : Memory) (h : ∀ r ∈ regions, inRegion r.address r.len a = false) :
    (regions.foldl (Memory.abandon n draw) m).read a = m.read a := by
  induction regions generalizing m with
  | nil => rfl
  | cons r rs ih =>
    obtain ⟨hr, hrs⟩ := List.forall_mem_cons.mp h
    exact (ih _ hrs).trans (Memory.read_abandon_outside n draw m r hr)

/-- A byte of an abandoned region is the draw's free value, whichever of the regions that hold it comes last. -/
theorem read_foldl_abandon_inside (m : Memory) (ha : a < n) (h : ∃ r ∈ regions, inRegion r.address r.len a = true) :
    (regions.foldl (Memory.abandon n draw) m).read a = Config.abandonedByte draw a := by
  induction regions generalizing m with
  | nil => simp at h
  | cons r rs ih =>
    rw [List.foldl_cons]
    by_cases hrs : ∃ q ∈ rs, inRegion q.address q.len a = true
    · exact ih _ hrs
    · have hr : inRegion r.address r.len a = true := by simpa [hrs] using h
      rw [read_foldl_abandon_outside _ (by simpa using hrs), Memory.read_abandon_inside draw m r hr ha]

end

theorem wf_foldl_abandon (n draw : Nat) (regions : List HeldRegion) {m : Memory} (h : m.wf) :
    (regions.foldl (Memory.abandon n draw) m).wf :=
  List.foldlRecOn regions _ h fun _ hm r _ => Memory.wf_abandon hm n draw r

theorem inside_foldl_abandon {n : Nat} (draw : Nat) (regions : List HeldRegion) {m : Memory} (h : m.inside n) :
    (regions.foldl (Memory.abandon n draw) m).inside n :=
  List.foldlRecOn regions _ h fun _ hm r _ => Memory.inside_abandon hm draw r

theorem State.memAfterReset_busy {s : State} (h : s.busy = true) :
    s.memAfterReset = (abandonedRegions s.latch).foldl (Memory.abandon s.cfg.memBytes s.draws) s.mem := by
  simp [State.memAfterReset, h]

theorem State.resetEvent_powerOn (c : Config) (m : Memory) : (State.powerOn c m).resetEvent = State.powerOn c m := by
  have hb : (State.powerOn c m).busy = false := by simp [State.busy]
  rw [State.resetEvent, State.memAfterReset_not_busy hb, hb]
  rfl

/-- A reset changes a byte only where it abandons a running command's output. -/
theorem State.read_memAfterReset_outside {s : State} {a : Nat}
    (hdst : inRegion s.latch.dstAddr s.latch.dstCap a = false)
    (haux : s.latch.cmd = encode .pipeEnc → inRegion s.latch.auxAddr s.latch.auxLen a = false) :
    s.memAfterReset.read a = s.mem.read a := by
  cases hb : s.busy with
  | false => rw [State.memAfterReset_not_busy hb]
  | true =>
    rw [State.memAfterReset_busy hb]
    refine read_foldl_abandon_outside _ fun r hr => ?_
    rcases mem_abandonedRegions.mp hr with rfl | ⟨hcmd, rfl⟩
    · exact hdst
    · exact haux hcmd

/-! ### A running command under the invariant -/

/-- While BUSY a legal STATUS is BUSY alone or with OVERRUN (R23). -/
theorem status_of_busy {s : State} (h : statusLegal s.status = true) (hb : s.busy = true) :
    s.status = 0x01 ∨ s.status = 0x11 := by
  simp only [statusLegal, List.contains_iff_mem, List.mem_cons, List.not_mem_nil, or_false] at h
  have hodd : s.status.toNat % 2 = 1 := by
    simpa [State.busy, BitVec.getLsbD, Nat.testBit_zero] using hb
  have hnum : s.status.toNat = 0x01 ∨ s.status.toNat = 0x11 := by omega
  exact hnum.imp (fun hn => BitVec.eq_of_toNat_eq hn) (fun hn => BitVec.eq_of_toNat_eq hn)

/-- BUSY excludes the other phases (R23). -/
theorem phases_of_busy {s : State} (h : statusLegal s.status = true) (hb : s.busy = true) :
    s.done = false ∧ s.error = false ∧ s.warned = false := by
  rcases status_of_busy h hb with hs | hs <;> simp [State.done, State.error, State.warned, hs]

section
variable {s : State} (h : s.Inv) (hb : s.busy = true)
include h hb

theorem busyAgrees_of_busy : s.latch.cmd = s.cmd ∧ (∀ r ∈ heldRegions s.latch, r ∈ s.held) ∧ s.unseen = [] := by
  simpa [busyAgrees, hb, and_assoc] using h.busyAgrees

/-- While BUSY the report registers and OUT_LEN hold the zeros of the acceptance (R36). -/
theorem report_zero_of_busy : s.err = 0 ∧ s.errInfo0 = 0 ∧ s.errInfo1 = 0 ∧ s.outLen = 0 := by
  obtain ⟨hdone, herror, hwarned⟩ := phases_of_busy h.statusLegal hb
  have hrep := h.reportAgrees
  simp only [reportAgrees, hdone, herror, hwarned, Bool.or_self, Bool.not_false, Bool.true_or, Bool.and_true,
    Bool.false_or, Bool.and_eq_true, Bool.or_eq_true, beq_iff_eq, decide_eq_true_eq, decide_eq_false_iff_not,
    Decidable.not_not] at hrep
  obtain ⟨⟨herr, hinfo⟩, hout⟩ := hrep
  obtain ⟨hinfo0, hinfo1⟩ := hinfo.resolve_left (not_not_intro herr)
  exact ⟨herr, hinfo0, hinfo1, hout⟩

end

end Sys2Proof.Machine
end


section
/-! SUPPORT. Steps of the host by the head of its script (R101, R102), and what a host statement can change. -/

namespace Sys2Proof.Machine

theorem hostStep_of_nil {s : State} (h : s.script = []) : hostStep s = .next s := by simp only [hostStep, h]

theorem hostStep_of_cons {s : State} {op : HostOp} {rest : List HostOp} (h : s.script = op :: rest) :
    hostStep s = hostOp op { s with script := rest } := by
  simp only [hostStep, h]

theorem hostMemWrite_refused {s : State} {h : HeldRegion} {a : Nat} (v : Byte) (hheld : h ∈ s.held)
    (ha : a < s.cfg.memBytes) (hin : inRegion h.address h.len a = true) :
    hostMemWrite a v s = .refused (.hostWriteToHeldRegion a) := by
  have hmay : hostMayNotWrite s.held a = true := List.any_eq_true.mpr ⟨h, hheld, hin⟩
  simp [hostMemWrite, hmay, ha]

theorem hostMemRead_refused {s : State} {h : HeldRegion} {a : Nat} (hheld : h ∈ s.held) (huse : h.use = .output)
    (ha : a < s.cfg.memBytes) (hin : inRegion h.address h.len a = true) :
    hostMemRead a s = .refused (.hostReadOfHeldOutput a) := by
  have hmay : hostMayNotRead s.held a = true := List.any_eq_true.mpr ⟨h, hheld, by simp [huse, hin]⟩
  simp [hostMemRead, hmay, ha]

/-- Without BUSY, with nothing left to do and no turn listed, a step changes nothing (R38, R304). -/
theorem step_idle {s : State} (hb : s.busy = false) (hscript : s.script = []) (hturns : s.turns = []) :
    step s = .next s := by
  have hhost : s.nextTurn = .host := by simp [State.nextTurn, hturns, hb]
  have htake : s.takeTurn = s := by rw [State.takeTurn, show s.turns.drop 1 = s.turns by rw [hturns]; rfl]
  rw [step_of_host hhost, htake, hostStep_of_nil hscript]

theorem State.hostReadReg_status_busy {s : State} (h : s.busy = true) :
    s.hostReadReg .status = { s with rdata := s.status } := by
  rw [State.hostReadReg_status, State.observe_busy h]

theorem State.hostReadReg_status_not_busy {s : State} (h : s.busy = false) :
    s.hostReadReg .status = { s with rdata := s.status, held := [], unseen := [] } := by
  rw [State.hostReadReg_status, State.observe_not_busy h]

theorem step_scriptRd {s : State} {r : RegName} {rest : List HostOp} (hn : s.nextTurn = .host)
    (hs : s.script = scriptRd s.cfg r ++ rest) :
    step s = .next (({ s with script := rest, turns := s.turns.drop 1 } : State).hostReadReg r) :=
  (step_of_host hn).trans ((hostStep_of_cons (s := s.takeTurn) hs).trans (hostRegRead_register _ r))

theorem hostWait_busy {s : State} (h : s.busy = true) :
    hostWait s = .next { s with rdata := s.status, script := .wait :: s.script } := by
  rw [hostWait, State.hostReadReg_status_busy h, if_pos h]

theorem hostWait_not_busy {s : State} (h : s.busy = false) :
    hostWait s = .next { s with rdata := s.status, held := [], unseen := [] } := by
  rw [hostWait, State.hostReadReg_status_not_busy h, if_neg (by simp [h])]

theorem step_wait {s : State} {rest : List HostOp} (hn : s.nextTurn = .host) (hs : s.script = .wait :: rest) :
    step s = hostWait { s with script := rest, turns := s.turns.drop 1 } :=
  (step_of_host hn).trans (hostStep_of_cons (s := s.takeTurn) hs)

/-- The registers a host write changes, CMD apart (10_state.md section 2). -/
def operandRegs : List RegName := [.srcAddr, .srcLen, .dstAddr, .dstCap, .auxAddr, .auxLen, .primaryIndex]

theorem State.reg_hostWriteReg_same {r : RegName} (s : State) (v : Word) (hr : r ∈ operandRegs) :
    (s.hostWriteReg v r).reg r = v := by
  simp only [operandRegs, List.mem_cons, List.not_mem_nil, or_false] at hr
  rcases hr with rfl | rfl | rfl | rfl | rfl | rfl | rfl <;> rfl

theorem State.reg_hostWriteReg_other {r q : RegName} (s : State) (v : Word) (hr : r ∈ operandRegs) (hq : q ≠ r) :
    (s.hostWriteReg v r).reg q = s.reg q := by
  simp only [operandRegs, List.mem_cons, List.not_mem_nil, or_false] at hr
  rcases hr with rfl | rfl | rfl | rfl | rfl | rfl | rfl <;> cases q <;> simp_all [State.hostWriteReg, State.reg]

/-- R26–R29: beyond its register an operand write touches nothing the engine, the host's duties or the host have. -/
theorem State.hostWriteReg_operand_frame {r : RegName} (s : State) (v : Word) (hr : r ∈ operandRegs) :
    (s.hostWriteReg v r).latch = s.latch ∧ (s.hostWriteReg v r).mem = s.mem ∧ (s.hostWriteReg v r).cfg = s.cfg ∧
    (s.hostWriteReg v r).held = s.held ∧ (s.hostWriteReg v r).rdata = s.rdata ∧
    (s.hostWriteReg v r).script = s.script := by
  simp only [operandRegs, List.mem_cons, List.not_mem_nil, or_false] at hr
  rcases hr with rfl | rfl | rfl | rfl | rfl | rfl | rfl <;> exact ⟨rfl, rfl, rfl, rfl, rfl, rfl⟩

/-- A register write never ends a duty of the host; a CMD write can add some (R72; log 9). -/
theorem State.mem_held_hostWriteReg (s : State) (v : Word) (r : RegName) {q : HeldRegion} (hq : q ∈ s.held) :
    q ∈ (s.hostWriteReg v r).held := by
  cases r with
  | cmd =>
    show q ∈ (s.issue v).held
    cases hb : s.busy with
    | true => rwa [State.issue_busy v hb]
    | false => rw [State.issue_not_busy v hb]; exact List.mem_append_left _ hq
  | _ => exact hq

/-- A register read ends the host's duties exactly as a STATUS read with BUSY = 0 (R71, R72). -/
theorem State.hostReadReg_held (s : State) (r : RegName) :
    (s.hostReadReg r).held = s.held ∨ (r = .status ∧ s.busy = false) := by
  by_cases hr : r = .status
  · subst hr
    cases hb : s.busy with
    | false => exact .inr ⟨rfl, rfl⟩
    | true => exact .inl (by rw [State.hostReadReg_status, State.observe_busy hb])
  · cases hl : s.unseen.lookup r with
    | none => exact .inl (by rw [State.hostReadReg_synchronised hr hl])
    | some old =>
      obtain ⟨v, -, hv⟩ := State.hostReadReg_unsynchronised hr hl
      exact .inl (by rw [hv])

/-- The host's duties end only where it sees BUSY = 0 in STATUS (R71, R72). -/
theorem hostOp_keeps_held {op : HostOp} {s t : State} (h : hostOp op s = .next t) :
    (∀ r ∈ s.held, r ∈ t.held) ∨ (s.busy = false ∧
      (op = .wait ∨ op = .regRead .word (s.cfg.regBase + RegName.status.offset))) := by
  cases op with
  | regWrite width address v =>
    rcases hostRegWrite_cases h with ⟨r, -, -, rfl⟩ | rfl
    · exact .inl fun _ hq => s.mem_held_hostWriteReg v r hq
    · exact .inl fun _ hr => hr
  | regRead width address =>
    rcases hostRegRead_cases h with ⟨r, rfl, rfl, rfl⟩ | rfl
    · rcases s.hostReadReg_held r with hheld | ⟨rfl, hb⟩
      · exact .inl fun q hq => hheld ▸ hq
      · exact .inr ⟨hb, .inr rfl⟩
    · exact .inl fun _ hr => hr
  | memWrite address v =>
    obtain ⟨-, -, rfl⟩ := hostMemWrite_eq_next.mp h
    exact .inl fun _ hr => hr
  | memRead address =>
    obtain ⟨-, -, rfl⟩ := hostMemRead_eq_next.mp h
    exact .inl fun _ hr => hr
  | wait =>
    cases h
    rcases s.hostReadReg_held .status with hheld | ⟨-, hb⟩
    · exact .inl fun q hq => hheld ▸ hq
    · exact .inr ⟨hb, .inl rfl⟩

theorem engineStep_held {s t : State} (h : engineStep s = .next t) : t.held = s.held := by
  rcases engineStep_cases s with ⟨-, hx⟩ | ⟨-, i, res, -, -, hx⟩ | ⟨-, i, r, -, -, hx⟩ | ⟨-, e, -, hx⟩ <;>
    (cases hx.symm.trans h; rfl)

end Sys2Proof.Machine
end


section
/-! PROOFS. The obligations O3, O7, O10, O11, O13 and O14: the engine's turn, and what the host's accesses do and may
do. -/

namespace Sys2Proof.Machine

/-- Settles O3: the latched word decodes to its command, and `State.withFetchWord` latches the word and lists the
engine. -/
theorem stepRunsTheDecodedCommand : Obligations.StepRunsTheDecodedCommand := by
  unfold Obligations.StepRunsTheDecodedCommand
  refine ⟨fun s i hn hb hd => (step_of_engine hn).trans (engineStep_legal (s := s.takeTurn) hb hd), fun s i => ?_⟩
  rw [State.withFetchWord, tableWord_toNat, step_of_engine rfl]
  exact engineStep_legal (s := { s.accept (encode i) with turns := s.turns }) (State.accept_busy _ s) (decode_encode i)

/-- Settles O7: a register write to an operand register is a write to one field, and to a read-only one it is none. -/
theorem hostWriteChangesOneOperandRegister : Obligations.HostWriteChangesOneOperandRegister := by
  unfold Obligations.HostWriteChangesOneOperandRegister
  intro s r v rest hn hs
  rw [step_scriptWr hn hs]
  constructor
  · intro hr
    obtain ⟨hlatch, hmem, hcfg, hheld, hrdata, hscript⟩ :=
      State.hostWriteReg_operand_frame { s with script := rest, turns := s.turns.drop 1 } v hr
    exact ⟨_, rfl, State.reg_hostWriteReg_same _ v hr,
      fun q hq => (State.reg_hostWriteReg_other _ v hr hq).trans (by cases q <;> rfl), hlatch, hmem, hcfg, hheld, hrdata, hscript⟩
  · intro hr
    simp only [List.mem_cons, List.not_mem_nil, or_false] at hr
    rcases hr with rfl | rfl | rfl | rfl | rfl | rfl | rfl | rfl | rfl <;> rfl

/-- Settles O10: a read is synchronised or not, and while BUSY the invariant leaves no unsynchronised register. -/
theorem registerReadGivesItsValue : Obligations.RegisterReadGivesItsValue := by
  unfold Obligations.RegisterReadGivesItsValue
  constructor
  · intro s r rest hn hs
    rw [step_scriptRd hn hs]
    have hreg : ({ s with script := rest, turns := s.turns.drop 1 } : State).reg r = s.reg r := by cases r <;> rfl
    refine ⟨fun hr hl => ?_, fun old hr hl => ?_, ?_, ?_⟩
    · rw [← hreg]
      exact congrArg _ (State.hostReadReg_synchronised hr hl)
    · obtain ⟨v, hv, hread⟩ := State.hostReadReg_unsynchronised
        (s := { s with script := rest, turns := s.turns.drop 1 }) hr hl
      exact ⟨v, hreg ▸ hv, congrArg _ hread⟩
    · rintro rfl hb
      exact congrArg _ (State.hostReadReg_status_busy hb)
    · rintro rfl hb
      exact congrArg _ (State.hostReadReg_status_not_busy hb)
  · intro s r h hb
    obtain ⟨-, -, hunseen⟩ := busyAgrees_of_busy h hb
    obtain ⟨herr, hinfo0, hinfo1, hout⟩ := report_zero_of_busy h hb
    have hread : (s.hostReadReg r).rdata = s.reg r := by
      by_cases hr : r = .status
      · subst hr
        rfl
      · rw [State.hostReadReg_synchronised hr (by simp [hunseen])]
    refine ⟨hread, fun hr => hread.trans ?_, hb⟩
    simp only [List.mem_cons, List.not_mem_nil, or_false] at hr
    rcases hr with rfl | rfl | rfl | rfl
    · exact hout
    · exact herr
    · exact hinfo0
    · exact hinfo1

/-- Settles O11: a poll is a STATUS read, and only BUSY puts the statement back. -/
theorem waitPollsUntilNotBusy : Obligations.WaitPollsUntilNotBusy := by
  unfold Obligations.WaitPollsUntilNotBusy
  intro s rest hn hs
  rw [step_wait hn hs]
  refine ⟨fun hb => ?_, fun hb => hostWait_not_busy hb⟩
  rw [hs]
  exact hostWait_busy hb

/-- Settles O13: a byte access that no held region forbids goes to the one byte it names. -/
theorem hostByteAccess : Obligations.HostByteAccess := by
  unfold Obligations.HostByteAccess
  intro s a v
  refine ⟨fun ha hw => ⟨_, hostMemWrite_eq_next.mpr ⟨ha, hw, rfl⟩, ?_, fun b hb => ?_⟩,
    fun ha hr => hostMemRead_eq_next.mpr ⟨ha, hr, rfl⟩, fun ha => ?_⟩
  · rw [Memory.read_write_inside _ le_rfl (by simp)]
    simp
  · exact Memory.read_write_outside _ (by simp; omega)
  · simp [hostMemWrite, hostMemRead, ha]

/-- Settles O14: the invariant puts a running command's regions among the held ones, and only an observed BUSY = 0 or a
reset takes a region out. -/
theorem hostKeptOffARunningCommandsRegions : Obligations.HostKeptOffARunningCommandsRegions := by
  unfold Obligations.HostKeptOffARunningCommandsRegions
  refine ⟨fun s a h hb ha => ?_, fun s r a hr ha hin => ?_, fun s t ht => ?_⟩
  · obtain ⟨-, hheld, -⟩ := busyAgrees_of_busy h hb
    constructor
    · rintro (hin | hin | ⟨hcmd | hcmd, hin⟩) v
      · exact hostMemWrite_refused v (hheld _ (src_mem_heldRegions _)) ha hin
      · exact hostMemWrite_refused v (hheld _ (dst_mem_heldRegions _)) ha hin
      · exact hostMemWrite_refused v (hheld _ (aux_mem_heldRegions hcmd rfl)) ha hin
      · exact hostMemWrite_refused v (hheld _ (aux_mem_heldRegions hcmd rfl)) ha hin
    · rintro (hin | ⟨hcmd, hin⟩)
      · exact hostMemRead_refused (hheld _ (dst_mem_heldRegions _)) rfl ha hin
      · exact hostMemRead_refused (hheld _ (aux_mem_heldRegions hcmd rfl)) rfl ha hin
  · exact ⟨fun v => hostMemWrite_refused v hr ha hin, fun huse => hostMemRead_refused hr huse ha hin⟩
  · rcases step_cases ht with ⟨-, he⟩ | ⟨hn, hh⟩ | ⟨hn, -⟩
    · exact .inl fun q hq => engineStep_held he ▸ hq
    · rcases hostStep_cases hh with ⟨-, rfl⟩ | ⟨op, rest, hs, hop⟩
      · exact .inl fun q hq => hq
      · rcases hostOp_keeps_held hop with hheld | ⟨hb, hread⟩
        · exact .inl hheld
        · refine .inr (.inr ⟨hn, hb, rest, ?_⟩)
          rcases hread with rfl | rfl
          · exact .inl hs
          · exact .inr hs
    · exact .inr (.inl hn)

end Sys2Proof.Machine
end


section
/-! PROOFS. The obligations O15, O16, O17 and O26: reset. -/

namespace Sys2Proof.Machine

/-- Settles O15: the reset event is written out field by field, and after it neither the engine nor an empty script
moves. -/
theorem resetSetsEveryRegister : Obligations.ResetSetsEveryRegister := by
  unfold Obligations.ResetSetsEveryRegister
  refine ⟨State.resetEvent_powerOn, fun s hn => ⟨s.takeTurn.resetEvent, step_of_reset hn, rfl,
    rfl, rfl, rfl, rfl, rfl, rfl, rfl, rfl, rfl, rfl, rfl, rfl, rfl, rfl, fun hb => State.memAfterReset_not_busy hb,
    engineStep_idle (State.resetEvent_busy _), step_idle (State.resetEvent_busy _)⟩⟩

/-- Settles O16: only the regions abandoned as output are written. -/
theorem resetWhileBusyAbandonsTheCommand : Obligations.ResetWhileBusyAbandonsTheCommand := by
  unfold Obligations.ResetWhileBusyAbandonsTheCommand
  exact fun s hn _ => ⟨s.takeTurn.resetEvent, step_of_reset hn, State.resetEvent_busy _, rfl, rfl, rfl, rfl,
    fun a hdst haux => State.read_memAfterReset_outside hdst haux⟩

/-- Settles O17: the draw's free values fill the regions abandoned as output. -/
theorem abandonedBytesAreFreeValues : Obligations.AbandonedBytesAreFreeValues := by
  unfold Obligations.AbandonedBytesAreFreeValues
  intro s a hn hb ha hin
  refine ⟨s.takeTurn.resetEvent, step_of_reset hn, ?_, if_pos hb⟩
  rw [State.resetEvent_mem, State.memAfterReset_busy (s := s.takeTurn) hb]
  refine read_foldl_abandon_inside _ ha ?_
  rcases hin with hdst | ⟨hcmd, haux⟩
  · exact ⟨_, mem_abandonedRegions.mpr (.inl rfl), hdst⟩
  · exact ⟨_, mem_abandonedRegions.mpr (.inr ⟨hcmd, rfl⟩), haux⟩

end Sys2Proof.Machine
end


section
/-! SUPPORT. The invariant, one lemma per update of the state (R23, R24, R60): acceptance, an ignored CMD write, the two
endings, the host's accesses and reset. -/

namespace Sys2Proof.Machine

theorem busyAgrees_of_not_busy {s : State} (hb : s.busy = false) : busyAgrees s = true := by simp [busyAgrees, hb]

theorem busyAgrees_of_duties {s : State} (hcmd : s.latch.cmd = s.cmd) (hheld : ∀ r ∈ heldRegions s.latch, r ∈ s.held)
    (hunseen : s.unseen = []) : busyAgrees s = true := by
  simp +contextual [busyAgrees, hcmd, hunseen, hheld]

theorem errLegal_zero : errLegal 0 = true := by decide

/-! ### What an ending writes -/

/-- The registers an ending writes, STATUS apart. -/
def resultRegs : List RegName := [.outLen, .primaryIndex, .origLen, .err, .errInfo0, .errInfo1]

theorem regsWritten_subset (res : CmdResult) : res.regsWritten ⊆ resultRegs := by
  intro r hr
  simp only [CmdResult.regsWritten, List.mem_append, List.mem_ite_nil_right, List.mem_cons, List.not_mem_nil,
    or_false] at hr
  simp only [resultRegs, List.mem_cons, List.not_mem_nil, or_false]
  tauto

theorem errLegal_errWord (stage : Stage) (code : ErrCode) : errLegal (errWord stage code) = true := by
  have hcode := code.num_pos
  have hstage := stage.num_le
  simp only [errLegal, errWord_toNat, Bool.and_eq_true, Bool.or_eq_true, decide_eq_true_eq]
  omega

theorem errWord_ne_zero (stage : Stage) (code : ErrCode) : errWord stage code ≠ 0#32 := by
  intro h0
  have hnum := errWord_toNat stage code
  rw [h0, BitVec.toNat_ofNat] at hnum
  have := code.num_pos
  omega

/-! ### Power-on and reset -/

theorem powerOn_inv {c : Config} {m : Memory} (hc : c.legal = true) (hwf : m.wf) (hinside : m.inside c.memBytes) :
    (State.powerOn c m).Inv :=
  ⟨hc, rfl, errLegal_zero, by simp [reportAgrees, State.done, State.error, State.warned],
    busyAgrees_of_not_busy (by simp [State.busy]), rfl, hwf, hinside⟩

section
variable {s : State} (h : s.Inv)
include h

theorem resetEvent_inv : s.resetEvent.Inv := by
  have hmem : s.memAfterReset.wf ∧ s.memAfterReset.inside s.cfg.memBytes := by
    cases hb : s.busy with
    | false => rw [State.memAfterReset_not_busy hb]; exact ⟨h.memWf, h.memInside⟩
    | true =>
      rw [State.memAfterReset_busy hb]
      exact ⟨wf_foldl_abandon _ _ _ h.memWf, inside_foldl_abandon _ _ h.memInside⟩
  exact ⟨h.cfgLegal, rfl, errLegal_zero, by simp [reportAgrees, State.done, State.error, State.warned],
    busyAgrees_of_not_busy (State.resetEvent_busy s), rfl, hmem.1, hmem.2⟩

/-! ### Host accesses -/

/-- The invariant does not speak of the host agent, the turns or the draws. -/
theorem inv_of_hostAgent (rdata : Word) (script : List HostOp) (turns : List Turn) (draws : Nat) :
    ({ s with rdata := rdata, script := script, turns := turns, draws := draws } : State).Inv :=
  ⟨h.cfgLegal, h.statusLegal, h.errLegal, h.reportAgrees, h.busyAgrees, h.unseenAgrees, h.memWf, h.memInside⟩

/-- R36: acceptance clears the report and holds the command's regions. -/
theorem accept_inv (w : Word) : (s.accept w).Inv where
  cfgLegal := h.cfgLegal
  statusLegal := rfl
  errLegal := errLegal_zero
  reportAgrees := by
    simp [Machine.reportAgrees, State.done, State.error, State.warned, statusOnAccept, statusBusy]
  busyAgrees := busyAgrees_of_duties rfl (fun _ hr => List.mem_append_right _ hr) rfl
  unseenAgrees := rfl
  memWf := h.memWf
  memInside := h.memInside

/-- R36: an ignored CMD write sets OVERRUN, which no clause but that of STATUS looks at. -/
theorem ignoreCmd_inv (hb : s.busy = true) : s.ignoreCmd.Inv := by
  have hstatus := status_of_busy h.statusLegal hb
  have hphase : s.ignoreCmd.done = s.done ∧ s.ignoreCmd.error = s.error ∧ s.ignoreCmd.warned = s.warned := by
    rcases hstatus with hs | hs <;>
      simp [State.done, State.error, State.warned, statusOnIgnoredWrite, statusOverrun, hs]
  obtain ⟨hdone, herror, hwarned⟩ := hphase
  refine ⟨h.cfgLegal, ?_, h.errLegal, ?_, ?_, h.unseenAgrees, h.memWf, h.memInside⟩
  · rcases hstatus with hs | hs <;> rw [State.ignoreCmd_status, hs] <;> rfl
  · rw [reportAgrees, hdone, herror, hwarned]
    exact h.reportAgrees
  · rw [busyAgrees, State.ignoreCmd_busy]
    exact h.busyAgrees

theorem hostWriteReg_inv (v : Word) (r : RegName) : (s.hostWriteReg v r).Inv := by
  cases r with
  | cmd =>
    show (s.issue v).Inv
    cases hb : s.busy with
    | true => rw [State.issue_busy v hb]; exact ignoreCmd_inv h hb
    | false => rw [State.issue_not_busy v hb]; exact accept_inv h v
  | primaryIndex =>
    refine ⟨h.cfgLegal, h.statusLegal, h.errLegal, h.reportAgrees, ?_, ?_, h.memWf, h.memInside⟩
    · cases hb : s.busy with
      | false => exact busyAgrees_of_not_busy hb
      | true =>
        obtain ⟨hcmd, hheld, hunseen⟩ := busyAgrees_of_busy h hb
        exact busyAgrees_of_duties hcmd hheld (congrArg (List.filter _) hunseen)
    · exact List.all_eq_true.mpr fun e he => List.all_eq_true.mp h.unseenAgrees e (List.mem_of_mem_filter he)
  | _ =>
    exact ⟨h.cfgLegal, h.statusLegal, h.errLegal, h.reportAgrees, h.busyAgrees, h.unseenAgrees, h.memWf, h.memInside⟩

/-- R71: the observation of BUSY = 0 empties what only BUSY needs. -/
theorem observe_inv : s.observe.Inv := by
  cases hb : s.busy with
  | true => rwa [State.observe_busy hb]
  | false =>
    rw [State.observe_not_busy hb]
    exact ⟨h.cfgLegal, h.statusLegal, h.errLegal, h.reportAgrees, busyAgrees_of_not_busy hb, rfl,
      h.memWf, h.memInside⟩

theorem hostReadReg_inv (r : RegName) : (s.hostReadReg r).Inv := by
  by_cases hr : r = .status
  · subst hr
    exact inv_of_hostAgent (observe_inv h) s.status s.observe.script s.observe.turns s.observe.draws
  · cases hl : s.unseen.lookup r with
    | none =>
      rw [State.hostReadReg_synchronised hr hl]
      exact inv_of_hostAgent h (s.reg r) s.script s.turns s.draws
    | some old =>
      obtain ⟨v, -, hv⟩ := State.hostReadReg_unsynchronised hr hl
      rw [hv]
      exact inv_of_hostAgent h v s.script s.turns (s.draws + 1)

/-- R60: a host byte write stays inside the memory. -/
theorem memWrite_inv {a : Nat} (v : Byte) (ha : a < s.cfg.memBytes) :
    ({ s with mem := s.mem.write a [v] } : State).Inv :=
  ⟨h.cfgLegal, h.statusLegal, h.errLegal, h.reportAgrees, h.busyAgrees, h.unseenAgrees, Memory.wf_write h.memWf a [v],
    Memory.inside_write h.memInside (.inr (Nat.succ_le_of_lt ha))⟩

/-- Every statement of the host keeps the invariant. -/
theorem hostOp_inv {op : HostOp} {t : State} (ht : hostOp op s = .next t) : t.Inv := by
  rcases hostOp_cases ht with ⟨r, v, rfl⟩ | rfl | ⟨r, rfl⟩ | rfl | ⟨a, v, ha, -, rfl⟩ | ⟨a, -, -, rfl⟩ | rfl
  · exact hostWriteReg_inv h v r
  · exact h
  · exact hostReadReg_inv h r
  · exact inv_of_hostAgent h 0 s.script s.turns s.draws
  · exact memWrite_inv h v ha
  · exact inv_of_hostAgent h _ s.script s.turns s.draws
  · exact inv_of_hostAgent (hostReadReg_inv h .status) (s.hostReadReg .status).rdata _ (s.hostReadReg .status).turns
      (s.hostReadReg .status).draws

theorem hostStep_inv {t : State} (ht : hostStep s = .next t) : t.Inv := by
  rcases hostStep_cases ht with ⟨-, rfl⟩ | ⟨op, rest, -, hop⟩
  · exact h
  · exact hostOp_inv (inv_of_hostAgent h s.rdata rest s.turns s.draws) hop

/-! ### Endings (R90, R271) -/

/-- What an ending of a running command leaves unsynchronised: result registers, the report's with the acceptance's
0. -/
theorem unseenAgrees_before (hb : s.busy = true) {written : List RegName} (hw : written ⊆ resultRegs) {t : State}
    (ht : t.unseen = s.before written) : unseenAgrees t = true := by
  obtain ⟨herr, hinfo0, hinfo1, hout⟩ := report_zero_of_busy h hb
  rw [unseenAgrees, ht, List.all_eq_true]
  intro e he
  obtain ⟨hmem, hval⟩ := State.mem_before he
  have hres := hw hmem
  obtain ⟨r, v⟩ := e
  obtain rfl : v = s.reg r := hval
  simp only [resultRegs, List.mem_cons, List.not_mem_nil, or_false] at hres
  rcases hres with rfl | rfl | rfl | rfl | rfl | rfl
  · simp [State.reg, hout]
  · rfl
  · rfl
  · simp [State.reg, herr]
  · simp [State.reg, hinfo0]
  · simp [State.reg, hinfo1]

/-- R271: the error entry keeps the invariant; its code is never the warning's. -/
theorem raiseError_inv (hb : s.busy = true) {r : Report} (hcode : r.code ≠ .lengthMismatch) : (s.raiseError r).Inv where
  cfgLegal := h.cfgLegal
  statusLegal := by
    rcases status_of_busy h.statusLegal hb with hs | hs <;> rw [State.raiseError_status, hs] <;> rfl
  errLegal := errLegal_errWord r.stage r.code
  reportAgrees := by
    have hpos := r.code.num_pos
    have hnum : (errWord r.stage r.code).toNat % 256 ≠ ErrCode.lengthMismatch.num := by
      intro hn
      rw [errWord_toNat] at hn
      have hc : r.code.num = ErrCode.lengthMismatch.num := by omega
      exact hcode (errWord_inj (g := .frame) (g' := .frame) (by rw [errWord, errWord, hc])).2
    simp [Machine.reportAgrees, errWord_ne_zero, hnum]
  busyAgrees := busyAgrees_of_not_busy (State.raiseError_busy r s)
  unseenAgrees := unseenAgrees_before h hb (by simp [resultRegs]) rfl
  memWf := h.memWf
  memInside := h.memInside

/-- R90, R246: a completion keeps the invariant; a report can only be the warning's. -/
theorem complete_inv (hb : s.busy = true) {res : CmdResult}
    (hinside : (res.commit s.latch s.mem).inside s.cfg.memBytes) : (s.complete res).Inv where
  cfgLegal := h.cfgLegal
  statusLegal := by
    rcases status_of_busy h.statusLegal hb with hs | hs <;> rw [State.complete_status, hs] <;>
      cases res.warn.isSome <;> rfl
  errLegal := by
    obtain ⟨herr, -, -, -⟩ := report_zero_of_busy h hb
    rw [State.complete_err, herr]
    split
    · exact errLegal_errWord _ _
    · exact errLegal_zero
  reportAgrees := by
    obtain ⟨herr, hinfo0, hinfo1, -⟩ := report_zero_of_busy h hb
    cases hw : res.warn <;> simp [Machine.reportAgrees, hw, herr, hinfo0, hinfo1, errWord_ne_zero]
  busyAgrees := busyAgrees_of_not_busy (State.complete_busy res s)
  unseenAgrees := unseenAgrees_before h hb (regsWritten_subset res) rfl
  memWf := CmdResult.wf_commit h.memWf
  memInside := hinside

end

/-- The commit of a result the frame passed stays inside the memory (R61, R66). -/
theorem inside_commit_of_frameResult {i : Instr} {s : State} {res : CmdResult}
    (hf : frameResult i (bodyOf i) s = .ok res) (h : s.mem.inside s.cfg.memBytes) :
    (res.commit s.latch s.mem).inside s.cfg.memBytes := by
  obtain ⟨⟨-, hdst, haux⟩, -, hbody, hout, hrecord⟩ := frameResult_eq_ok.mp hf
  obtain ⟨-, -, hnone, hlen, -⟩ := body_ok_fields hbody
  refine CmdResult.inside_commit h (by omega) fun v hv => ?_
  have hi : i = .pipeEnc := by
    by_contra hne
    simp [hnone hne] at hv
  have h8 : 8 ≤ s.latch.auxLen.toNat := hrecord (hi ▸ rfl)
  have hvalid := haux (hi ▸ rfl)
  rw [hlen v hv]
  omega

/-- Every step of the engine keeps the invariant. -/
theorem engineStep_inv {s t : State} (h : s.Inv) (ht : engineStep s = .next t) : t.Inv := by
  rcases engineStep_cases s with ⟨-, hx⟩ | ⟨hb, i, res, -, hf, hx⟩ | ⟨hb, i, r, -, hf, hx⟩ | ⟨hb, e, -, hx⟩ <;>
    cases hx.symm.trans ht
  · exact h
  · exact complete_inv h hb (inside_commit_of_frameResult hf h.memInside)
  · exact raiseError_inv h hb (frameResult_error_code hf).1
  · exact raiseError_inv h hb nofun

end Sys2Proof.Machine
end


section
/-! PROOFS. The obligations O26 and O27: the invariant. -/

namespace Sys2Proof.Machine

/-- Settles O26: `State.reset` is power-on with an empty memory. -/
theorem resetMeetsTheInvariant : Obligations.ResetMeetsTheInvariant := by
  unfold Obligations.ResetMeetsTheInvariant
  exact ⟨powerOn_inv rfl reset_mem_wf.1 reset_mem_wf.2, fun c m => powerOn_inv⟩

/-- Settles O27: agent by agent. -/
theorem everyStepKeepsTheInvariant : Obligations.EveryStepKeepsTheInvariant := by
  unfold Obligations.EveryStepKeepsTheInvariant
  intro s t h ht
  have htake : s.takeTurn.Inv := inv_of_hostAgent h s.rdata s.script (s.turns.drop 1) s.draws
  rcases step_cases ht with ⟨-, he⟩ | ⟨-, hh⟩ | ⟨-, rfl⟩
  · exact engineStep_inv htake he
  · exact hostStep_inv htake hh
  · exact resetEvent_inv htake

end Sys2Proof.Machine
end


section
/-! SUPPORT. What a step does to a byte of memory (20_memory.md sections 3 to 5), and a step of a state whose latched
record nothing reads (10_state.md section 6). -/

namespace Sys2Proof.Machine

/-! ### Who writes a byte -/

theorem State.hostWriteReg_mem (s : State) (v : Word) (r : RegName) : (s.hostWriteReg v r).mem = s.mem := by
  cases r with
  | cmd =>
    show (s.issue v).mem = s.mem
    cases hb : s.busy <;> simp [hb]
  | _ => rfl

theorem State.observe_mem (s : State) : s.observe.mem = s.mem := by
  cases hb : s.busy <;> simp [hb]

theorem State.hostReadReg_mem (s : State) (r : RegName) : (s.hostReadReg r).mem = s.mem := by
  by_cases hr : r = .status
  · subst hr
    exact s.observe_mem
  · cases hl : s.unseen.lookup r with
    | none => rw [State.hostReadReg_synchronised hr hl]
    | some old =>
      obtain ⟨v, -, hv⟩ := State.hostReadReg_unsynchronised hr hl
      rw [hv]

/-- Of the host's statements only a byte write changes memory. -/
theorem hostOp_mem {op : HostOp} {s t : State} (h : hostOp op s = .next t) :
    t.mem = s.mem ∨ ∃ a v, op = .memWrite a v ∧ t.mem = s.mem.write a [v] := by
  cases op with
  | regWrite width address v =>
    rcases hostRegWrite_cases h with ⟨r, -, -, rfl⟩ | rfl
    · exact .inl (s.hostWriteReg_mem v r)
    · exact .inl rfl
  | regRead width address =>
    rcases hostRegRead_cases h with ⟨r, -, -, rfl⟩ | rfl
    · exact .inl (s.hostReadReg_mem r)
    · exact .inl rfl
  | memWrite a v =>
    obtain ⟨-, -, rfl⟩ := hostMemWrite_eq_next.mp h
    exact .inr ⟨a, v, rfl, rfl⟩
  | memRead a =>
    obtain ⟨-, -, rfl⟩ := hostMemRead_eq_next.mp h
    exact .inl rfl
  | wait =>
    cases h
    exact .inl (s.hostReadReg_mem .status)

/-- A host step changes a byte only by writing that byte. -/
theorem hostStep_read_changed {s t : State} {a : Nat} (h : hostStep s = .next t) (hne : t.mem.read a ≠ s.mem.read a) :
    ∃ v rest, s.script = .memWrite a v :: rest := by
  rcases hostStep_cases h with ⟨-, rfl⟩ | ⟨op, rest, hs, hop⟩
  · exact absurd rfl hne
  · rcases hostOp_mem hop with hmem | ⟨b, v, rfl, hmem⟩
    · exact absurd (congrArg (·.read a) hmem) hne
    · have hab : a = b := by
        by_contra hab
        rw [hmem] at hne
        exact hne (Memory.read_write_outside _ (by simp; omega))
      exact ⟨v, rest, hab ▸ hs⟩

/-- R66: a completed command changes no byte outside DST and, for PIPE_ENC, AUX. -/
theorem read_commit_of_frameResult {i : Instr} {s : State} {res : CmdResult} {a : Nat}
    (hf : frameResult i (bodyOf i) s = .ok res) (hdst : inRegion s.latch.dstAddr s.latch.dstCap a = false)
    (haux : i = .pipeEnc → inRegion s.latch.auxAddr s.latch.auxLen a = false) :
    (res.commit s.latch s.mem).read a = s.mem.read a := by
  obtain ⟨-, -, hbody, hout, hrecord⟩ := frameResult_eq_ok.mp hf
  obtain ⟨-, -, hnone, hlen, -⟩ := body_ok_fields hbody
  simp only [inRegion, Bool.and_eq_false_iff, decide_eq_false_iff_not] at hdst haux
  refine CmdResult.read_commit_outside (by omega) fun v hv => ?_
  have hi : i = .pipeEnc := by
    by_contra hne
    simp [hnone hne] at hv
  have h8 : 8 ≤ s.latch.auxLen.toNat := hrecord (hi ▸ rfl)
  have haux := haux hi
  rw [hlen v hv]
  omega

/-- The engine changes a byte only by completing a running command, inside its output regions. -/
theorem engineStep_read_changed {s t : State} {a : Nat} (h : engineStep s = .next t)
    (hne : t.mem.read a ≠ s.mem.read a) :
    s.busy = true ∧ (inRegion s.latch.dstAddr s.latch.dstCap a = true ∨
      (s.latch.cmd = encode .pipeEnc ∧ inRegion s.latch.auxAddr s.latch.auxLen a = true)) := by
  rcases engineStep_cases s with ⟨-, hx⟩ | ⟨hb, i, res, hd, hf, hx⟩ | ⟨-, i, r, -, -, hx⟩ | ⟨-, e, -, hx⟩ <;>
    cases hx.symm.trans h
  · exact absurd rfl hne
  · refine ⟨hb, ?_⟩
    by_contra hout
    simp only [not_or, not_and, Bool.not_eq_true] at hout
    refine hne (read_commit_of_frameResult hf hout.1 fun hi => hout.2 ?_)
    exact hi ▸ eq_encode_of_decode hd
  · exact absurd rfl hne
  · exact absurd rfl hne

/-- A reset changes a byte only where it abandons a running command's output. -/
theorem resetEvent_read_changed {s : State} {a : Nat} (hne : s.resetEvent.mem.read a ≠ s.mem.read a) :
    s.busy = true ∧ (inRegion s.latch.dstAddr s.latch.dstCap a = true ∨
      (s.latch.cmd = encode .pipeEnc ∧ inRegion s.latch.auxAddr s.latch.auxLen a = true)) := by
  constructor
  · by_contra hb
    exact hne (by rw [State.resetEvent_mem, State.memAfterReset_not_busy (Bool.eq_false_iff.mpr hb)])
  · by_contra hout
    simp only [not_or, not_and, Bool.not_eq_true] at hout
    exact hne (State.read_memAfterReset_outside hout.1 hout.2)

/-! ### The latched record without BUSY -/

theorem State.hostReadReg_of_lookup {s : State} {r : RegName} {old : Word} (hr : r ≠ .status)
    (h : s.unseen.lookup r = some old) : s.hostReadReg r =
      { s with rdata := if Config.seesCompletion s.draws then s.reg r else old, draws := s.draws + 1 } := by
  cases r with
  | status => exact absurd rfl hr
  | _ => simp only [State.hostReadReg, h]

/-- The outcome `o'` is `o` up to `L`, which is the same again once a command is accepted. -/
def SameButLatch (o o' : Host.Outcome State Fault Refusal) : Prop :=
  match o with
  | .next t => ∃ l', o' = .next { t with latch := l' } ∧ (t.busy = true → l' = t.latch)
  | .fault r => o' = .fault r
  | .refused r => o' = .refused r

section
variable {s : State} (l : Latch)

theorem sameButLatch_next (hb : s.busy = false) : SameButLatch (.next s) (.next { s with latch := l }) :=
  ⟨l, rfl, fun h => absurd h (by simp [hb])⟩

theorem sameButLatch_same : SameButLatch (.next s) (.next s) := ⟨s.latch, rfl, fun _ => rfl⟩

variable (hb : s.busy = false)
include hb

/-- A CMD write latches the operands anew, and every other write leaves `L` alone. -/
theorem hostWriteReg_sameButLatch (v : Word) (r : RegName) :
    SameButLatch (.next (s.hostWriteReg v r)) (.next (({ s with latch := l } : State).hostWriteReg v r)) := by
  cases r with
  | cmd =>
    show SameButLatch (.next (s.issue v)) (.next (({ s with latch := l } : State).issue v))
    rw [State.issue_not_busy v hb, State.issue_not_busy (s := { s with latch := l }) v hb]
    exact sameButLatch_same
  | _ => exact sameButLatch_next l hb

theorem hostReadReg_sameButLatch (r : RegName) :
    SameButLatch (.next (s.hostReadReg r)) (.next (({ s with latch := l } : State).hostReadReg r)) := by
  by_cases hr : r = .status
  · subst hr
    rw [State.hostReadReg_status_not_busy hb, State.hostReadReg_status_not_busy (s := { s with latch := l }) hb]
    exact sameButLatch_next l hb
  · have hreg : ({ s with latch := l } : State).reg r = s.reg r := by cases r <;> rfl
    cases hl : s.unseen.lookup r with
    | none =>
      rw [State.hostReadReg_synchronised hr hl, State.hostReadReg_synchronised (s := { s with latch := l }) hr hl, hreg]
      exact sameButLatch_next l hb
    | some old =>
      rw [State.hostReadReg_of_lookup hr hl, State.hostReadReg_of_lookup (s := { s with latch := l }) hr hl, hreg]
      exact sameButLatch_next l hb

theorem hostMemWrite_sameButLatch (a : Nat) (v : Byte) :
    SameButLatch (hostMemWrite a v s) (hostMemWrite a v { s with latch := l }) := by
  simp only [hostMemWrite]
  split
  · rfl
  · split
    · rfl
    · exact sameButLatch_next l hb

theorem hostMemRead_sameButLatch (a : Nat) :
    SameButLatch (hostMemRead a s) (hostMemRead a { s with latch := l }) := by
  simp only [hostMemRead]
  split
  · rfl
  · split
    · rfl
    · exact sameButLatch_next l hb

theorem hostOp_sameButLatch (op : HostOp) : SameButLatch (hostOp op s) (hostOp op { s with latch := l }) := by
  cases op with
  | regWrite width address v =>
    show SameButLatch (hostRegWrite width address v s) (hostRegWrite width address v { s with latch := l })
    rcases regAccess_cases s.cfg width address with ⟨e, he⟩ | ⟨r, rfl, rfl⟩ | ⟨offset, ha, hr⟩
    · rw [hostRegWrite_refused v he, hostRegWrite_refused (s := { s with latch := l }) v he]
      rfl
    · rw [hostRegWrite_register, hostRegWrite_register { s with latch := l }]
      exact hostWriteReg_sameButLatch l hb v r
    · rw [hostRegWrite_reserved v ha hr, hostRegWrite_reserved (s := { s with latch := l }) v ha hr]
      exact sameButLatch_next l hb
  | regRead width address =>
    show SameButLatch (hostRegRead width address s) (hostRegRead width address { s with latch := l })
    rcases regAccess_cases s.cfg width address with ⟨e, he⟩ | ⟨r, rfl, rfl⟩ | ⟨offset, ha, hr⟩
    · rw [hostRegRead_refused he, hostRegRead_refused (s := { s with latch := l }) he]
      rfl
    · rw [hostRegRead_register, hostRegRead_register { s with latch := l }]
      exact hostReadReg_sameButLatch l hb r
    · rw [hostRegRead_reserved ha hr, hostRegRead_reserved (s := { s with latch := l }) ha hr]
      exact sameButLatch_next l hb
  | memWrite a v => exact hostMemWrite_sameButLatch l hb a v
  | memRead a => exact hostMemRead_sameButLatch l hb a
  | wait =>
    show SameButLatch (hostWait s) (hostWait { s with latch := l })
    rw [hostWait_not_busy hb, hostWait_not_busy (s := { s with latch := l }) hb]
    exact sameButLatch_next l hb

theorem hostStep_sameButLatch : SameButLatch (hostStep s) (hostStep { s with latch := l }) := by
  obtain hs | ⟨op, rest, hs⟩ : s.script = [] ∨ ∃ op rest, s.script = op :: rest := by cases s.script <;> simp
  · rw [hostStep_of_nil hs, hostStep_of_nil (s := { s with latch := l }) hs]
    exact sameButLatch_next l hb
  · rw [hostStep_of_cons hs, hostStep_of_cons (s := { s with latch := l }) hs]
    exact hostOp_sameButLatch (s := { s with script := rest }) l hb op

theorem resetEvent_of_latch : ({ s with latch := l } : State).resetEvent = s.resetEvent := by
  rw [State.resetEvent, State.resetEvent, State.memAfterReset_not_busy hb,
    State.memAfterReset_not_busy (s := { s with latch := l }) hb]
  rfl

/-- No agent's step reads `L` without BUSY (10_state.md section 6). -/
theorem step_sameButLatch : SameButLatch (step s) (step { s with latch := l }) := by
  have hturn : ({ s with latch := l } : State).nextTurn = s.nextTurn := rfl
  cases hn : s.nextTurn with
  | engine =>
    rw [step_of_engine hn, step_of_engine (hturn.trans hn), engineStep_idle (s := s.takeTurn) hb,
      engineStep_idle (s := ({ s with latch := l } : State).takeTurn) hb]
    exact sameButLatch_next (s := s.takeTurn) l hb
  | host =>
    rw [step_of_host hn, step_of_host (hturn.trans hn)]
    exact hostStep_sameButLatch (s := s.takeTurn) l hb
  | reset =>
    rw [step_of_reset hn, step_of_reset (hturn.trans hn)]
    exact resetEvent_of_latch (s := s.takeTurn) l hb ▸ sameButLatch_same

end

end Sys2Proof.Machine
end


section
/-! PROOFS. The obligations O28 and O29: the writers of memory, and the latched record without BUSY. -/

namespace Sys2Proof.Machine

/-- Settles O28: each agent changes a byte only as its own lemma says. -/
theorem memoryChangesOnlyByItsWriters : Obligations.MemoryChangesOnlyByItsWriters := by
  unfold Obligations.MemoryChangesOnlyByItsWriters
  intro s t a ht hne
  rcases step_cases ht with ⟨hn, he⟩ | ⟨hn, hh⟩ | ⟨hn, rfl⟩
  · exact .inl ⟨.inl hn, engineStep_read_changed (s := s.takeTurn) he hne⟩
  · exact .inr ⟨hn, hostStep_read_changed (s := s.takeTurn) hh hne⟩
  · exact .inl ⟨.inr hn, resetEvent_read_changed (s := s.takeTurn) hne⟩

/-- Settles O29: without BUSY no agent's step reads the latched record. -/
theorem latchIsNeverReadWithoutBusy : Obligations.LatchIsNeverReadWithoutBusy := by
  unfold Obligations.LatchIsNeverReadWithoutBusy
  exact fun s l hb => step_sameButLatch l hb

end Sys2Proof.Machine
end


section
/-! SUPPORT. Words written one after the other (R95, R96), the LF walk visit by visit (R143), RLE pair by pair (R180,
R182), and an output that DST does not hold (R90). -/

namespace Sys2Proof.Machine

/-! ### Records of words -/

theorem rdLe32_flatMap_le32 (ws : List Word) (rest : Buffer) {j : Nat} (hj : j < ws.length) :
    rdLe32 (ws.flatMap le32 ++ rest) (4 * j) = ws.getD j 0 := by
  have hlen : (ws.flatMap le32).length = 4 * ws.length := by
    simp only [List.length_flatMap, le32_length, List.map_const', List.sum_replicate, smul_eq_mul, Nat.mul_comm]
  have hread := readWords_getD (n := ws.length) (b := ws.flatMap le32 ++ rest)
    (by simp only [List.length_append, hlen]; omega) hj
  rw [readWords_flatMap_le32] at hread
  refine BitVec.eq_of_toNat_eq (hread.symm.trans ?_)
  simp [List.getD, hj]

/-- Entry `j` of the suffix-array record (R95). -/
theorem rdLe32_saRecord {sa : List Nat} {j : Nat} (hj : j < sa.length) :
    rdLe32 (saRecord sa) (4 * j) = BitVec.ofNat 32 (sa.getD j 0) := by
  have hrecord : saRecord sa = (sa.map (BitVec.ofNat 32)).flatMap le32 ++ [] := by
    rw [List.append_nil, List.flatMap_map]
    rfl
  rw [hrecord, rdLe32_flatMap_le32 _ _ (by simpa using hj)]
  simp [List.getD, hj]

/-! ### BWT -/

theorem bwtEncode_length (buf : Buffer) : (bwtEncode buf).1.length = buf.length := by
  by_cases h : buf = []
  · subst h; rfl
  · simp [bwtEncode_of_ne_nil h]

@[simp] theorem bwtDecode_length (bwt : Buffer) (p : Nat) : (bwtDecode bwt p).length = bwt.length := by
  simp [bwtDecode]

/-- The walk puts its bytes in front of those decoded before it. -/
theorem lfWalk_append (bwt : Buffer) (lf : List Nat) (steps pos : Nat) (decoded : Buffer) :
    lfWalk bwt lf steps pos decoded = lfWalk bwt lf steps pos [] ++ decoded := by
  induction steps generalizing pos decoded with
  | zero => rfl
  | succ n ih => rw [lfWalk, lfWalk, ih, ih _ [byteAt bwt pos], List.append_assoc, List.singleton_append]

theorem repeat_comm (f : Nat → Nat) (k pos : Nat) : Nat.repeat f k (f pos) = f (Nat.repeat f k pos) := by
  induction k with
  | zero => rfl
  | succ k ih => exact congrArg f ih

/-- Visit `k` of the walk gives the byte `k` places before the last (R143). -/
theorem byteAt_lfWalk (bwt : Buffer) (lf : List Nat) {steps k : Nat} (pos : Nat) (hk : k < steps) :
    byteAt (lfWalk bwt lf steps pos []) (steps - 1 - k) = byteAt bwt (Nat.repeat (fun q => lf.getD q 0) k pos) := by
  induction steps generalizing pos k with
  | zero => omega
  | succ n ih =>
    rw [lfWalk, lfWalk_append]
    have hlen : (lfWalk bwt lf n (lf.getD pos 0) []).length = n := by simp
    cases k with
    | zero =>
      have hlast := byteAt_append_right (lfWalk bwt lf n (lf.getD pos 0) []) [byteAt bwt pos] 0
      rw [hlen] at hlast
      exact hlast
    | succ k =>
      rw [byteAt_append_left (by omega), show n + 1 - 1 - (k + 1) = n - 1 - k by omega, ih _ (by omega)]
      exact congrArg (byteAt bwt) (repeat_comm (fun q => lf.getD q 0) k pos)

/-! ### RLE -/

theorem rleEncode_length_le (x : Buffer) : (rleEncode x).length ≤ 2 * x.length := by
  cases x with
  | nil => exact Nat.le_refl 0
  | cons b bs => exact (rleRuns_length_le b 1 bs).trans_eq (by rw [List.length_cons, Nat.mul_succ, Nat.add_comm])

@[simp] theorem rleDecode_length (x : Buffer) : (rleDecode x).length = rleTotal x := by
  induction x using rleDecode.induct with
  | case1 c v rest ih => simp [rleDecode, rleTotal, ih]
  | case2 x h => cases x with
    | nil => rfl
    | cons c x => cases x with
      | nil => rfl
      | cons v rest => exact absurd rfl (h c v rest)

/-- A stream of whole pairs decodes on its own, whatever follows (R182). -/
theorem rleDecode_append {x : Buffer} (h : x.length % 2 = 0) (y : Buffer) :
    rleDecode (x ++ y) = rleDecode x ++ rleDecode y := by
  induction x using rleDecode.induct with
  | case1 c v rest ih =>
    have heven : rest.length % 2 = 0 := (Nat.add_mod_right rest.length 2).symm.trans h
    simp [rleDecode, ih heven]
  | case2 x hx => cases x with
    | nil => rfl
    | cons c x => cases x with
      | nil => simp at h
      | cons v rest => exact absurd rfl (hx c v rest)

theorem opRleEnc_eq_error {scratch : Nat} {src aux : Buffer} {l : Latch} {r : Report} :
    opRleEnc scratch src aux l = .error r ↔
      (l.dstCap.toNat < 2 * src.length ∧ r = ⟨.capacityExceeded, .rleEncoder, l.dstCap, sat32 (2 * src.length)⟩) ∨
      (2 * src.length ≤ l.dstCap.toNat ∧ scratch < 2 * src.length ∧
        r = ⟨.allocationFailure, .rleEncoder, sat32 (2 * src.length), sat32 scratch⟩) := by
  simp [opRleEnc, bind_eq_error]

theorem opRleDec_eq_error {scratch : Nat} {src aux : Buffer} {l : Latch} {r : Report} :
    opRleDec scratch src aux l = .error r ↔
      (src.length % 2 = 1 ∧ r = ⟨.rleMalformed, .rleDecoder, sat32 src.length, 0⟩) ∨
      (src.length % 2 = 0 ∧ scratch < rleTotal src ∧
        r = ⟨.allocationFailure, .rleDecoder, sat32 (rleTotal src), sat32 scratch⟩) := by
  simp [opRleDec, rleOddCheck, bind_eq_error]

/-- A number of 32 bits is reported as it is (R17). -/
theorem sat32_of_lt {n : Nat} (h : n < 2 ^ 32) : sat32 n = BitVec.ofNat 32 n := by
  rw [sat32, Nat.min_eq_left (Nat.le_sub_one_of_lt h)]

/-! ### An output larger than DST -/

theorem capacityChecks_eq_error {i : Instr} {l : Latch} {res : CmdResult} {r : Report} :
    capacityChecks i l res = .error r ↔
      (l.dstCap.toNat < res.out.length ∧ r = ⟨.dstTooSmall, stageOf i, l.dstCap, sat32 res.out.length⟩) ∨
      (res.out.length ≤ l.dstCap.toNat ∧ auxUse i = some .output ∧ l.auxLen.toNat < 8 ∧
        r = ⟨.dstTooSmall, .pipeline, l.auxLen, 8⟩) := by
  simp [capacityChecks, bind_eq_error, and_assoc]

/-- R90: a result larger than DST ends the command at its own stage. -/
theorem endsIn_dstTooSmall {i : Instr} {s : State} {res : CmdResult} (hregions : RegionsValid i s.cfg.memBytes s.latch)
    (hsrc : s.srcReady) (hbody : bodyOf i s.cfg.scratchLen s.srcBuf (s.auxBuf i) s.latch = .ok res)
    (hsmall : s.latch.dstCap.toNat < res.out.length) :
    EndsIn i s (s.errorWith .dstTooSmall (stageOf i) s.latch.dstCap (sat32 res.out.length)) :=
  endsIn_errorWith.mpr <| frameResult_eq_error.mpr <| .inr ⟨hregions, .inr ⟨hsrc.2, .inr ⟨res, hbody,
    capacityChecks_eq_error.mpr (.inl ⟨hsmall, rfl⟩)⟩⟩⟩

end Sys2Proof.Machine
end


section
/-! PROOFS. The obligations O33, O35, O37, O42, O44 and O45: how the commands that make no Huffman tree end. -/

namespace Sys2Proof.Machine

/-- Settles O33: SA_BUILD's record has four bytes per entry, and each entry reads back. -/
theorem saBuildWritesTheRecord : Obligations.SaBuildWritesTheRecord := by
  unfold Obligations.SaBuildWritesTheRecord
  intro s hsrc hdst
  have hlen : (saRecord (suffixArray s.srcBuf)).length = 4 * s.latch.srcLen.toNat := by simp [saRecord_length]
  refine ⟨endsIn_doneWith_of_body rfl hsrc (hlen ▸ hdst) ?_, hlen, fun j hj => rdLe32_saRecord (by simpa using hj)⟩
  exact (opSaBuild_eq_ok (aux := s.auxBuf .saBuild) (l := s.latch)).mpr ⟨by simpa using hsrc.2, rfl⟩

/-- Settles O35: BWT_ENC's result carries the bytes and PRIMARY_INDEX. -/
theorem bwtEncWritesBytesAndPrimaryIndex : Obligations.BwtEncWritesBytesAndPrimaryIndex := by
  unfold Obligations.BwtEncWritesBytesAndPrimaryIndex
  intro s hsrc hdst
  have hlen : (bwtEncode s.srcBuf).1.length = s.latch.srcLen.toNat := by simp [bwtEncode_length]
  have hbody := (opBwtEnc_eq_ok (aux := s.auxBuf .bwtEnc) (l := s.latch)).mpr
    ⟨s.srcBuf_length.trans_le hsrc.2, rfl⟩
  obtain ⟨u, hu⟩ := endsIn_complete_of_regionsValid (i := .bwtEnc) (regionsValid_of_ready rfl hsrc hdst) hsrc hbody
    (hlen.trans_le hdst.2) nofun
  exact ⟨⟨u, hu⟩, hlen⟩

/-- Settles O37: a primary index in range passes BWT_DEC's check, and the walk goes on at `LF` from it. -/
theorem bwtDecWalksTheLfTable : Obligations.BwtDecWalksTheLfTable := by
  unfold Obligations.BwtDecWalksTheLfTable
  refine ⟨fun s hsrc hdst hp => ?_, fun bwt p => ⟨bwtDecode_length bwt p, fun k hk => byteAt_lfWalk bwt _ p hk⟩⟩
  refine endsIn_doneWith_of_body rfl hsrc (by simpa using hdst) ?_
  refine (opBwtDec_eq_ok (aux := s.auxBuf .bwtDec) (l := s.latch)).mpr ⟨fun hn => ?_, by simpa using hsrc.2, rfl⟩
  rw [State.srcBuf_length] at hn ⊢
  exact hp.resolve_left fun h0 => by simp [h0] at hn

/-- Settles O42: both loops give one byte per byte, and the place of a byte is its index in the symbol list. -/
theorem mtfCommandsWriteOneBytePerByte : Obligations.MtfCommandsWriteOneBytePerByte := by
  unfold Obligations.MtfCommandsWriteOneBytePerByte
  refine ⟨fun s hsrc hdst hne => ?_, fun list b bs h => ?_, fun x => ⟨rfl, rfl⟩, fun list j js => rfl⟩
  · have hnonempty : s.srcBuf ≠ [] := by
      intro hnil
      have hlen := s.srcBuf_length
      rw [hnil] at hlen
      exact hne (BitVec.eq_of_toNat_eq hlen.symm)
    have hscratch : s.srcBuf.length ≤ s.cfg.scratchLen := s.srcBuf_length.trans_le hsrc.2
    have henc : (mtfEncode s.srcBuf).length = s.latch.srcLen.toNat := by simp [mtfEncode]
    have hdec : (mtfDecode s.srcBuf).length = s.latch.srcLen.toNat := by simp [mtfDecode]
    refine ⟨endsIn_doneWith_of_body rfl hsrc (henc ▸ hdst) ?_, endsIn_doneWith_of_body rfl hsrc (hdec ▸ hdst) ?_,
      henc, hdec⟩
    · exact (opMtfEnc_eq_ok (aux := s.auxBuf .mtfEnc) (l := s.latch)).mpr ⟨hnonempty, hscratch, rfl⟩
    · exact (opMtfDec_eq_ok (aux := s.auxBuf .mtfDec) (l := s.latch)).mpr ⟨hnonempty, hscratch, rfl⟩
  · exact ⟨list.idxOf b, idxOf_lt_of_perm_mtfIdentity h b, getD_idxOf_of_perm_mtfIdentity h b, rfl⟩

/-- Settles O44: RLE_ENC's two checks are on `2n`, which no stream exceeds. -/
theorem rleEncWritesPairsOrReportsCapacity : Obligations.RleEncWritesPairsOrReportsCapacity := by
  unfold Obligations.RleEncWritesPairsOrReportsCapacity
  refine ⟨fun s hsrc hdst hlegal => ?_, rleEncode_length_le⟩
  have hscratch : s.cfg.scratchLen ≤ 2 ^ 31 - 1 := by
    simp only [Config.legal, Bool.and_eq_true, decide_eq_true_eq] at hlegal
    exact hlegal.2
  have hn := hsrc.2
  rw [← sat32_of_lt (n := 2 * s.latch.srcLen.toNat) (by omega), ← sat32_of_lt (n := s.cfg.scratchLen) (by omega),
    ← s.srcBuf_length]
  refine ⟨fun hcap hfit => ?_, fun hcap => ?_, fun hcap hfit => ?_⟩
  · refine endsIn_doneWith_of_body rfl hsrc ⟨hdst.1, (rleEncode_length_le _).trans hcap⟩ ?_
    exact (opRleEnc_eq_ok (aux := s.auxBuf .rleEnc)).mpr ⟨hcap, hfit, rfl⟩
  · exact endsIn_errorWith_of_body rfl hsrc hdst
      ((opRleEnc_eq_error (aux := s.auxBuf .rleEnc)).mpr (.inl ⟨hcap, rfl⟩))
  · exact endsIn_errorWith_of_body rfl hsrc hdst
      ((opRleEnc_eq_error (aux := s.auxBuf .rleEnc)).mpr (.inr ⟨hcap, hfit, rfl⟩))

/-- Settles O45: the decoder takes one pair after the other, and RLE_DEC's checks are on the length and on the sum. -/
theorem rleDecExpandsPairsOrReports : Obligations.RleDecExpandsPairsOrReports := by
  unfold Obligations.RleDecExpandsPairsOrReports
  refine ⟨rleDecode_length, rfl, fun x y c v hx => ?_, fun s hsrc hdst => ?_⟩
  · rw [rleDecode_append hx, rleDecode, List.append_assoc]
  · rw [← s.srcBuf_length]
    refine ⟨fun heven hfit hcap => ?_, fun hodd => ?_, fun heven hfit => ?_, fun heven hfit hcap => ?_⟩
    · refine endsIn_doneWith_of_body rfl hsrc ⟨hdst.1, by simpa using hcap⟩ ?_
      exact (opRleDec_eq_ok (aux := s.auxBuf .rleDec) (l := s.latch)).mpr ⟨heven, hfit, rfl⟩
    · have hbody := (opRleDec_eq_error (scratch := s.cfg.scratchLen) (aux := s.auxBuf .rleDec) (l := s.latch)).mpr
        (.inl ⟨hodd, rfl⟩)
      rw [State.srcBuf_length, sat32_toNat] at hbody
      exact endsIn_errorWith_of_body rfl hsrc hdst hbody
    · exact endsIn_errorWith_of_body rfl hsrc hdst
        ((opRleDec_eq_error (aux := s.auxBuf .rleDec) (l := s.latch)).mpr (.inr ⟨heven, hfit, rfl⟩))
    · have hbody := (opRleDec_eq_ok (aux := s.auxBuf .rleDec) (l := s.latch)).mpr ⟨heven, hfit, rfl⟩
      have hend := endsIn_dstTooSmall (i := .rleDec) (regionsValid_of_ready rfl hsrc hdst) hsrc hbody (by simpa using hcap)
      simpa [stageOf] using hend

end Sys2Proof.Machine
end


section
/-! SUPPORT. The order of extraction (R203), and `BuildTree`'s loop as the relation `MergesTo` (R202). -/

namespace Sys2Proof.Machine

/-- `(f, seq)` of `a` is no larger than that of `b`, lexicographic (R203). -/
def NotAfter (a b : HuffNode) : Prop :=
  nodeFreq a < nodeFreq b ∨ (nodeFreq a = nodeFreq b ∧ nodeSeq a ≤ nodeSeq b)

theorem NotAfter.trans {a b c : HuffNode} (hab : NotAfter a b) (hbc : NotAfter b c) : NotAfter a c := by
  simp only [NotAfter] at *
  omega

theorem notAfter_of_nodeBefore {a b : HuffNode} (h : nodeBefore a b = true) : NotAfter a b := by
  simp only [nodeBefore, Bool.or_eq_true, Bool.and_eq_true, decide_eq_true_eq] at h
  simp only [NotAfter]
  omega

theorem notAfter_of_not_nodeBefore {a b : HuffNode} (h : ¬ nodeBefore a b = true) : NotAfter b a := by
  simp only [nodeBefore, Bool.or_eq_true, Bool.and_eq_true, decide_eq_true_eq] at h
  simp only [NotAfter]
  omega

/-- Among nodes of different sequence numbers the pairs are strictly ordered. -/
theorem NotAfter.extractedFirst {a b : HuffNode} (h : NotAfter a b) (hseq : nodeSeq a ≠ nodeSeq b) :
    extractedFirst a b := by
  simp only [NotAfter, Machine.extractedFirst] at *
  omega

theorem extractMin_eq_none_iff {q : List HuffNode} : extractMin q = none ↔ q = [] := by
  cases q with
  | nil => simp [extractMin]
  | cons a q => simp [extractMin_cons_ne_none]

/-- The node taken out is a smallest one (R203). -/
theorem extractMin_notAfter {q rest : List HuffNode} {a : HuffNode} (h : extractMin q = some (a, rest)) :
    ∀ b ∈ rest, NotAfter a b := by
  induction q generalizing a rest with
  | nil => cases h
  | cons b bs ih =>
    simp only [extractMin] at h
    split at h
    · cases h
      simp
    · next m others hm =>
      have hmin := ih hm
      split at h
      · next hbefore =>
        cases h
        have hbm := notAfter_of_nodeBefore hbefore
        intro c hc
        rcases List.mem_cons.mp ((extractMin_perm hm).mem_iff.mpr hc) with rfl | hc
        · exact hbm
        · exact hbm.trans (hmin c hc)
      · next hbefore =>
        cases h
        exact List.forall_mem_cons.mpr ⟨notAfter_of_not_nodeBefore hbefore, hmin⟩

/-- The sequence numbers of a queue are distinct, and below the next one to be given (R202, R203). -/
def SeqsDistinct (t : Nat) (q : List HuffNode) : Prop :=
  (q.map nodeSeq).Nodup ∧ ∀ n ∈ q, nodeSeq n < 256 + t

theorem SeqsDistinct.perm {t : Nat} {q q' : List HuffNode} (h : SeqsDistinct t q) (hperm : q'.Perm q) :
    SeqsDistinct t q' :=
  ⟨(hperm.map nodeSeq).nodup_iff.mpr h.1, fun n hn => h.2 n (hperm.mem_iff.mp hn)⟩

theorem SeqsDistinct.tail {t : Nat} {a : HuffNode} {q : List HuffNode} (h : SeqsDistinct t (a :: q)) :
    SeqsDistinct t q :=
  ⟨(List.nodup_cons.mp h.1).2, fun n hn => h.2 n (List.mem_cons_of_mem a hn)⟩

theorem SeqsDistinct.ne_head {t : Nat} {a b : HuffNode} {q : List HuffNode} (h : SeqsDistinct t (a :: q))
    (hb : b ∈ q) : nodeSeq a ≠ nodeSeq b :=
  fun he => (List.nodup_cons.mp h.1).1 (List.mem_map.mpr ⟨b, hb, he.symm⟩)

theorem SeqsDistinct.merge {t : Nat} {q : List HuffNode} (h : SeqsDistinct t q) (a b : HuffNode) (f : Nat) :
    SeqsDistinct (t + 1) (.node a b f (256 + t) :: q) := by
  refine ⟨List.nodup_cons.mpr ⟨fun hmem => ?_, h.1⟩, List.forall_mem_cons.mpr ⟨Nat.lt_succ_self _, fun n hn => ?_⟩⟩
  · obtain ⟨n, hn, hseq⟩ := List.mem_map.mp hmem
    exact Nat.ne_of_lt (h.2 n hn) hseq
  · exact (h.2 n hn).trans (Nat.lt_succ_self _)

/-- With distinct sequence numbers the node taken out is the only smallest one. -/
theorem extractMin_extractedFirst {t : Nat} {q rest : List HuffNode} {a : HuffNode} (h : extractMin q = some (a, rest))
    (hq : SeqsDistinct t q) : ∀ b ∈ rest, extractedFirst a b :=
  fun b hb => (extractMin_notAfter h b hb).extractedFirst ((hq.perm (extractMin_perm h)).ne_head hb)

/-- The loop merges as the relation says (R202, R203, R205). -/
theorem mergesTo_of_mergeNodes {fuel t : Nat} {q : List HuffNode} {root : HuffNode}
    (h : mergeNodes fuel t q = some root) (hq : SeqsDistinct t q) : MergesTo t q root := by
  induction fuel generalizing t q with
  | zero => cases h
  | succ fuel ih =>
    simp only [mergeNodes] at h
    split at h
    · cases h
    · next a q₁ h₁ =>
      have hperm₁ := extractMin_perm h₁
      split at h
      · next h₂ =>
        cases h
        obtain rfl := extractMin_eq_none_iff.mp h₂
        rw [← List.singleton_perm.mp hperm₁]
        exact .done t root
      · next b q₂ h₂ =>
        have hperm₂ := extractMin_perm h₂
        have hq₁ : SeqsDistinct t q₁ := (hq.perm hperm₁).tail
        have hq₂ : SeqsDistinct t q₂ := (hq₁.perm hperm₂).tail
        exact .merge (hperm₁.symm.trans (hperm₂.symm.cons a))
          (fun c hc => extractMin_extractedFirst h₁ hq c (hperm₂.mem_iff.mp hc))
          (extractMin_extractedFirst h₂ hq₁) (ih h (hq₂.merge a b _))

theorem mem_huffLeaves {freq : List Nat} {n : HuffNode} :
    n ∈ huffLeaves freq ↔ ∃ sym : Byte, freq.getD sym.toNat 0 ≠ 0 ∧ n = .leaf sym (freq.getD sym.toNat 0) sym.toNat := by
  simp only [huffLeaves_eq_map, List.mem_map, mem_usedBytes, eq_comm]

/-- The leaves at the start have the symbols as their sequence numbers (R203). -/
theorem seqsDistinct_huffLeaves (freq : List Nat) : SeqsDistinct 0 (huffLeaves freq) := by
  constructor
  · rw [huffLeaves_eq_map, List.map_map]
    exact (usedBytes_nodup freq).map_on fun a _ b _ hab => BitVec.eq_of_toNat_eq hab
  · intro n hn
    obtain ⟨sym, -, rfl⟩ := mem_huffLeaves.mp hn
    exact sym.isLt

theorem usedBytes_eq_nil_iff {freq : List Nat} : usedBytes freq = [] ↔ ∀ sym : Byte, freq.getD sym.toNat 0 = 0 := by
  simp only [List.eq_nil_iff_forall_not_mem, mem_usedBytes, Decidable.not_not]

end Sys2Proof.Machine
end


section
/-! PROOFS. The obligations O47 and O49: the Huffman tree, and packing. -/

namespace Sys2Proof.Machine

/-- Settles O47: a queue's sequence numbers stay distinct, so every extraction has one smallest node. -/
theorem extractMinTakesTheSmallestPair : Obligations.ExtractMinTakesTheSmallestPair := by
  unfold Obligations.ExtractMinTakesTheSmallestPair
  refine ⟨fun q => extractMin_eq_none_iff, fun q rest a h => ⟨extractMin_perm h, extractMin_notAfter h⟩, fun freq =>
    ⟨buildTree_eq_none_iff.trans usedBytes_eq_nil_iff, fun root hroot =>
      ⟨huffLeaves freq, ?_, fun n => mem_huffLeaves, ?_⟩⟩⟩
  · exact (seqsDistinct_huffLeaves freq).1.of_map nodeSeq
  · exact mergesTo_of_mergeNodes hroot (seqsDistinct_huffLeaves freq)

/-- Settles O49: the packed bytes unpack to the bits and the zeros of the last byte. -/
theorem packIsMsbFirstAndZeroPadded : Obligations.PackIsMsbFirstAndZeroPadded := by
  unfold Obligations.PackIsMsbFirstAndZeroPadded
  exact fun bits => ⟨packBits_length bits, unpackBits_packBits bits⟩

end Sys2Proof.Machine
end


section
/-! SUPPORT. The code-table record entry by entry (R100), the payload's length (R97, R208), and words as numbers
(R16). -/

namespace Sys2Proof.Machine

/-! ### Records of entries of one length -/

/-- Where every element gives `n` entries, entry `k` of element `j` stands at place `n * j + k`. -/
theorem getD_flatMap_of_length {α β : Type} {f : α → List β} {n : Nat} {l : List α} (h : ∀ a ∈ l, (f a).length = n)
    (d : β) {j k : Nat} (hj : j < l.length) (hk : k < n) : (l.flatMap f).getD (n * j + k) d = (f l[j]).getD k d := by
  induction l generalizing j with
  | nil => simp at hj
  | cons a l ih =>
    obtain ⟨ha, hl⟩ := List.forall_mem_cons.mp h
    cases j with
    | zero => simp [List.getD, List.getElem?_append_left (ha ▸ hk)]
    | succ j =>
      have hplace : n * (j + 1) + k = (f a).length + (n * j + k) := by rw [ha, Nat.mul_succ]; omega
      have hrest := ih hl (Nat.lt_of_succ_lt_succ hj)
      rw [List.flatMap_cons, hplace, List.getD_append_right _ _ _ _ (Nat.le_add_right _ _), Nat.add_sub_cancel_left, hrest]
      rfl

theorem getD_append_replicate {α : Type} (l : List α) (n j : Nat) (d : α) :
    (l ++ List.replicate n d).getD j d = l.getD j d := by
  by_cases hj : j < l.length
  · rw [List.getD_append _ _ _ _ hj]
  · rw [List.getD_append_right _ _ _ _ (Nat.le_of_not_lt hj), List.getD_eq_getElem?_getD,
      List.getElem?_getD_replicate_default_eq, List.getD_eq_default _ _ (Nat.le_of_not_lt hj)]

/-- Bit `j` of a buffer is bit `7 - j mod 8` of its byte `j div 8`, and zero past its end (R97, R209). -/
theorem unpackBits_getD (b : Buffer) (j : Nat) :
    (unpackBits b).getD j false = (byteAt b (j / 8)).getLsbD (7 - j % 8) := by
  by_cases hj : j / 8 < b.length
  · have hbyte := getD_flatMap_of_length (f := unpackByte) (n := 8) (l := b) (fun _ _ => by simp [unpackByte]) false hj
      (Nat.mod_lt j (by decide))
    rw [Nat.div_add_mod] at hbyte
    rw [unpackBits, hbyte]
    simp [unpackByte, byteAt, List.getD, hj, Nat.mod_lt j (show 0 < 8 by decide)]
  · have hlen : (unpackBits b).length ≤ j := by rw [unpackBits_length]; omega
    have hzero : byteAt b (j / 8) = 0 := List.getD_eq_default _ _ (Nat.le_of_not_lt hj)
    rw [List.getD_eq_default _ _ hlen, hzero]
    simp

/-- Bit `j` of packed bytes, whatever zero bytes follow (R97). -/
theorem packBits_bit (c : Bits) (n j : Nat) :
    (byteAt (packBits c ++ List.replicate n 0) (j / 8)).getLsbD (7 - j % 8) = c.getD j false := by
  rw [byteAt, getD_append_replicate, ← byteAt, ← unpackBits_getD, unpackBits_packBits, getD_append_replicate]

/-- A code fits its 32 bytes (R100, R207). -/
theorem codeEntry_length {o : Option Bits} (h : (o.getD []).length ≤ 255) : (codeEntry o).length = 36 := by
  cases o with
  | none => simp [codeEntry]
  | some c =>
    have hlen : c.length ≤ 255 := h
    simp only [codeEntry, List.length_append, List.length_cons, List.length_nil, packBits_length, List.length_replicate]
    omega

theorem codeFor_length_le (freq : List Nat) (s : Byte) : ((codeFor (codeTable freq) s).getD []).length ≤ 255 := by
  cases hc : codeFor (codeTable freq) s with
  | none => simp
  | some c =>
    have hlt := length_lt_of_codeFor hc
    have hused := usedBytes_length_le freq
    simp only [Option.getD_some]
    omega

theorem codeRecord_length (freq : List Nat) : (codeRecord (codeTable freq)).length = 9216 := by
  have hentry : ∀ s ∈ allBytes, (codeEntry (codeFor (codeTable freq) s)).length = 36 :=
    fun s _ => codeEntry_length (codeFor_length_le freq s)
  rw [codeRecord, List.length_flatMap, List.map_congr_left hentry, List.map_const', List.sum_replicate]
  simp [allBytes]

/-- Entry `s` stands at offset `36s` (R100). -/
theorem byteAt_codeRecord (freq : List Nat) (s : Byte) {k : Nat} (hk : k < 36) :
    byteAt (codeRecord (codeTable freq)) (36 * s.toNat + k) = byteAt (codeEntry (codeFor (codeTable freq) s)) k := by
  have hs : s.toNat < allBytes.length := by simpa [allBytes] using s.isLt
  have hbyte := getD_flatMap_of_length (f := fun s => codeEntry (codeFor (codeTable freq) s)) (l := allBytes)
    (fun s _ => codeEntry_length (codeFor_length_le freq s)) 0 hs hk
  have hsym : allBytes[s.toNat] = s := by simp [allBytes]
  rw [hsym] at hbyte
  exact hbyte

/-- The fields of an entry (R100). -/
theorem byteAt_codeEntry {o : Option Bits} (h : (o.getD []).length ≤ 255) :
    byteAt (codeEntry o) 0 = (if o.isSome then 1 else 0) ∧ (byteAt (codeEntry o) 1).toNat = (o.getD []).length ∧
    byteAt (codeEntry o) 2 = 0 ∧ byteAt (codeEntry o) 3 = 0 ∧
    ∀ j, j < 256 → (byteAt (codeEntry o) (4 + j / 8)).getLsbD (7 - j % 8) = (o.getD []).getD j false := by
  cases o with
  | none =>
    refine ⟨rfl, rfl, rfl, rfl, fun j hj => ?_⟩
    have hzero : byteAt (codeEntry none) (4 + j / 8) = 0 := by
      rw [byteAt, codeEntry, List.getD_eq_getElem?_getD, List.getElem?_getD_replicate_default_eq]
    simp [hzero]
  | some c =>
    refine ⟨rfl, Nat.mod_eq_of_lt (Nat.lt_succ_of_le h), rfl, rfl, fun j _ => ?_⟩
    have hcode : byteAt (codeEntry (some c)) (4 + j / 8) =
        byteAt (packBits c ++ List.replicate (32 - (packBits c).length) 0) (j / 8) := by
      rw [codeEntry, List.append_assoc]
      exact byteAt_append_right [1, BitVec.ofNat 8 c.length, 0, 0] _ (j / 8)
    rw [hcode, packBits_bit, Option.getD_some]

/-! ### Words as numbers -/

/-- The first byte of a word is the least significant (R16). -/
theorem rdLe32_toNat (b : Buffer) (off : Nat) :
    (rdLe32 b off).toNat = (byteAt b off).toNat + 2 ^ 8 * (byteAt b (off + 1)).toNat +
      2 ^ 16 * (byteAt b (off + 2)).toNat + 2 ^ 24 * (byteAt b (off + 3)).toNat := by
  have hread : rdLe32 b off = rdLe32 [byteAt b off, byteAt b (off + 1), byteAt b (off + 2), byteAt b (off + 3)] 0 := rfl
  rw [hread]
  generalize byteAt b off = b0
  generalize byteAt b (off + 1) = b1
  generalize byteAt b (off + 2) = b2
  generalize byteAt b (off + 3) = b3
  have h0 := b0.isLt
  have h1 := b1.isLt
  have h2 := b2.isLt
  have h3 := b3.isLt
  have hword : [b0, b1, b2, b3] =
      le32 (BitVec.ofNat 32 (b0.toNat + 2 ^ 8 * b1.toNat + 2 ^ 16 * b2.toNat + 2 ^ 24 * b3.toNat)) := by
    simp only [le32, List.cons.injEq, and_true, ← BitVec.toNat_inj, BitVec.extractLsb'_toNat, BitVec.toNat_ofNat,
      Nat.shiftRight_eq_div_pow]
    omega
  rw [hword, ← List.append_nil (le32 _), rdLe32_le32, BitVec.toNat_ofNat]
  omega

end Sys2Proof.Machine
end


section
/-! SUPPORT. The length of a payload (R97, R208), and what HUF_DEC does on any table (R206, R209). -/

namespace Sys2Proof.Machine

/-! ### The payload -/

theorem freqRecord_eq_flatMap (freq : List Nat) :
    freqRecord freq = ((List.range 256).map (fun s => BitVec.ofNat 32 (freq.getD s 0))).flatMap le32 := by
  rw [List.flatMap_map]
  rfl

/-- Entry `sym` of the table a payload begins with (R96, R208). -/
theorem rdLe32_huffEncode (x : Buffer) {sym : Nat} (h : sym < 256) :
    rdLe32 (huffEncode x) (4 * sym) = BitVec.ofNat 32 ((freqOf x).getD sym 0) := by
  rw [huffEncode, freqRecord_eq_flatMap, rdLe32_flatMap_le32 _ _ (by simpa using h)]
  simp [List.getD_eq_getElem?_getD, h]

theorem drop_huffEncode (x : Buffer) : (huffEncode x).drop 1024 = packBits (codeBits (codeTable (freqOf x)) x) := by
  rw [huffEncode, ← freqRecord_length (freqOf x), List.drop_left]

/-- With one entry per symbol, the lengths of the entries for a symbol add up to that of its code. -/
theorem sum_map_ite_code {code : List (Byte × Bits)} (h : (code.map Prod.fst).Nodup) (b : Byte) :
    (code.map (fun e => if b = e.1 then e.2.length else 0)).sum = ((codeFor code b).getD []).length := by
  induction code with
  | nil => rfl
  | cons e code ih =>
    obtain ⟨hnotin, hnodup⟩ := List.nodup_cons.mp h
    rw [List.map_cons, List.sum_cons, ih hnodup, codeFor, codeFor, List.lookup_cons]
    by_cases hb : b = e.1
    · have hnone : code.lookup b = none := by
        rw [List.lookup_eq_none_iff]
        exact fun p hp => bne_iff_ne.mpr fun hbp => hnotin (hb ▸ hbp ▸ List.mem_map_of_mem hp)
      simp [hb ▸ hnone, hb]
    · simp [hb, beq_false_of_ne hb]

/-- The codes of a buffer take, entry by entry, the count of the symbol times the length of its code (R208). -/
theorem codeBits_length {code : List (Byte × Bits)} (h : (code.map Prod.fst).Nodup) (x : Buffer) :
    (codeBits code x).length = (code.map (fun e => x.count e.1 * e.2.length)).sum := by
  induction x with
  | nil => simp [codeBits]
  | cons b bs ih =>
    have hsplit : ∀ e ∈ code, (b :: bs).count e.1 * e.2.length =
        (if b = e.1 then e.2.length else 0) + bs.count e.1 * e.2.length := by
      intro e _
      by_cases hb : b = e.1 <;> simp [hb, Nat.add_mul, Nat.add_comm]
    rw [List.map_congr_left hsplit, List.sum_map_add, sum_map_ite_code h, ← ih]
    simp [codeBits]

theorem huffEncode_length (x : Buffer) : (huffEncode x).length = payloadLength (freqOf x) := by
  have hbits : (codeBits (codeTable (freqOf x)) x).length = payloadBits (freqOf x) := by
    simp only [codeBits_length (codeTable_symbols_nodup (freqOf x)), payloadBits, freqOf_getD_toNat]
  rw [huffEncode, List.length_append, freqRecord_length, packBits_length, hbits, payloadLength]

/-! ### The errors of the Huffman commands -/

section
variable {scratch : Nat} {src aux : Buffer} {l : Latch} {r : Report}

theorem tableCheck_eq_error {stage : Stage} :
    tableCheck stage src = .error r ↔
      src.length < 1024 ∧ r = ⟨.hufTableTruncated, stage, sat32 src.length, 1024⟩ := by
  simp [tableCheck]

theorem opHufCodes_eq_error : opHufCodes scratch src aux l = .error r ↔ tableCheck .huffmanTree src = .error r := by
  simp [opHufCodes, bind_eq_error]

theorem opHufEnc_eq_error :
    opHufEnc scratch src aux l = .error r ↔ alloc scratch .huffmanEncoder (payloadLength (freqOf src)) = .error r := by
  simp [opHufEnc, bind_eq_error]

theorem opHufDec_eq_error :
    opHufDec scratch src aux l = .error r ↔ huffDecode scratch .huffmanDecoder src = .error r := by
  simp [opHufDec, bind_eq_error]

theorem huffDecode_of_truncated (scratch : Nat) (stage : Stage) (h : src.length < 1024) :
    huffDecode scratch stage src = .error ⟨.hufTableTruncated, stage, sat32 src.length, 1024⟩ :=
  bind_eq_error.mpr (.inl (tableCheck_eq_error.mpr ⟨h, rfl⟩))

theorem huffDecode_of_scratch (stage : Stage) (h : 1024 ≤ src.length) (hsum : scratch < (readFreqs src).sum) :
    huffDecode scratch stage src = .error ⟨.allocationFailure, stage, sat32 (readFreqs src).sum, sat32 scratch⟩ :=
  bind_eq_error.mpr (.inr ⟨(), tableCheck_eq_ok.mpr h, bind_eq_error.mpr (.inl (alloc_eq_error.mpr ⟨hsum, rfl⟩))⟩)

theorem huffDecode_of_underrun (stage : Stage) {root : HuffNode} {decoded : Nat} (h : 1024 ≤ src.length)
    (hsum : (readFreqs src).sum ≤ scratch) (hroot : buildTree (readFreqs src) = some root)
    (hemit : huffEmit root (readFreqs src).sum (unpackBits (src.drop 1024)) = .error decoded) :
    huffDecode scratch stage src =
      .error ⟨.hufBitstreamUnderrun, stage, sat32 decoded, sat32 (readFreqs src).sum⟩ := by
  refine bind_eq_error.mpr (.inr ⟨(), tableCheck_eq_ok.mpr h, bind_eq_error.mpr (.inr ⟨(), alloc_eq_ok.mpr hsum, ?_⟩)⟩)
  rw [hroot]
  simp [hemit]

end

/-! ### The tree of any table -/

/-- A whole table counts its used bytes as its nonzero entries (R96, R202). -/
theorem usedBytes_length {freq : List Nat} (h : freq.length = 256) :
    (usedBytes freq).length = (freq.filter (fun f => decide (f ≠ 0))).length := by
  have hentries : freq = allBytes.map (fun s => freq.getD s.toNat 0) := by
    refine List.ext_getElem (by simp [allBytes, h]) fun i hi _ => ?_
    simp [allBytes, hi, Nat.mod_eq_of_lt (h ▸ hi)]
  conv_rhs => rw [hentries, List.filter_map, List.length_map]
  rfl

/-- Two used bytes need an inner node (R204). -/
theorem exists_node_of_buildTree {freq : List Nat} (h : 2 ≤ (usedBytes freq).length) :
    ∃ left right f q, buildTree freq = some (.node left right f q) := by
  cases hroot : buildTree freq with
  | none => rw [buildTree_eq_none_iff.mp hroot] at h; simp at h
  | some root =>
    have hlen := (buildTree_symbols_perm hroot).length_eq
    cases root with
    | leaf sym f q => rw [← hlen] at h; simp [HuffNode.symbols] at h
    | node left right f q => exact ⟨left, right, f, q, rfl⟩

/-- One used byte gives a tree of one leaf (R204). -/
theorem exists_leaf_of_buildTree {freq : List Nat} {sym : Byte} (h : usedBytes freq = [sym]) :
    ∃ f q, buildTree freq = some (.leaf sym f q) := by
  cases hroot : buildTree freq with
  | none => rw [buildTree_eq_none_iff.mp hroot] at h; cases h
  | some root =>
    have hperm := h ▸ buildTree_symbols_perm hroot
    cases root with
    | leaf s f q =>
      obtain rfl : s = sym := by simpa [HuffNode.symbols] using hperm
      exact ⟨f, q, rfl⟩
    | node left right f q =>
      have hlen := hperm.length_eq
      have hl := left.symbols_length_pos
      have hr := right.symbols_length_pos
      simp only [HuffNode.symbols, List.length_append, List.length_singleton] at hlen
      omega

theorem getD_set_replicate_zero {n k : Nat} (hk : k < n) (c j : Nat) :
    ((List.replicate n 0).set k c).getD j 0 = if j = k then c else 0 := by
  by_cases hj : j = k
  · simp [hj, List.getD_eq_getElem?_getD, hk]
  · simp [hj, List.getD_eq_getElem?_getD, List.getElem?_set_ne (Ne.symm hj)]

theorem sum_set_replicate_zero {n k : Nat} (hk : k < n) (c : Nat) : ((List.replicate n 0).set k c).sum = c := by
  simp [List.sum_set, hk]

/-- A table with one nonzero entry uses one byte. -/
theorem usedBytes_set (sym : Byte) {c : Nat} (hc : 0 < c) :
    usedBytes ((List.replicate 256 0).set sym.toNat c) = [sym] := by
  refine List.perm_singleton.mp ((List.perm_ext_iff_of_nodup (usedBytes_nodup _) (List.nodup_singleton sym)).mpr ?_)
  intro s
  rw [mem_usedBytes, List.mem_singleton, getD_set_replicate_zero sym.isLt, ← BitVec.toNat_inj]
  split
  · next hs => exact iff_of_true hc.ne' hs
  · next hs => exact iff_of_false (not_not_intro rfl) hs

theorem usedBytes_of_sum_eq_zero {freq : List Nat} (h : freq.sum = 0) : usedBytes freq = [] := by
  refine usedBytes_eq_nil_iff.mpr fun sym => ?_
  by_cases hs : sym.toNat < freq.length
  · rw [List.getD_eq_getElem _ _ hs]
    exact List.sum_eq_zero_iff.mp h _ (List.getElem_mem hs)
  · exact List.getD_eq_default _ _ (Nat.le_of_not_lt hs)

/-! ### Running out of bits (R209) -/

/-- What a walk reads is the path to the leaf it ends at. -/
theorem exists_leafAt_of_huffWalk {n : HuffNode} {bits rest : Bits} {s : Byte} (h : huffWalk n bits = some (s, rest)) :
    ∃ c, leafAt n c = some s ∧ bits = c ++ rest := by
  induction n generalizing bits with
  | leaf sym f q =>
    cases h
    exact ⟨[], rfl, rfl⟩
  | node left right f q ihl ihr =>
    cases bits with
    | nil => cases h
    | cons bit bits =>
      cases bit with
      | false =>
        obtain ⟨c, hleaf, rfl⟩ := ihl h
        exact ⟨false :: c, hleaf, rfl⟩
      | true =>
        obtain ⟨c, hleaf, rfl⟩ := ihr h
        exact ⟨true :: c, hleaf, rfl⟩

/-- Bits that start with no code of the tree run out on the walk. -/
theorem huffWalk_eq_none {freq : List Nat} {root : HuffNode} (hroot : buildTree freq = some root) {rest : Bits}
    (h : ∀ (b : Byte) (c : Bits), codeFor (codeTable freq) b = some c → ¬ c <+: rest) : huffWalk root rest = none := by
  cases hw : huffWalk root rest with
  | none => rfl
  | some p =>
    obtain ⟨s, bits⟩ := p
    obtain ⟨c, hleaf, rfl⟩ := exists_leafAt_of_huffWalk hw
    exact absurd (List.prefix_append c bits) (h s c (codeFor_eq_some_iff.mpr ⟨root, hroot, hleaf⟩))

/-- When what follows the codes of `x` starts with no code, the loop stops after them (R209). -/
theorem huffSymbols_underrun {code : List (Byte × Bits)} {root : HuffNode} {x : Buffer} {rest : Bits}
    (h : ∀ b ∈ x, ∃ c, codeFor code b = some c ∧ leafAt root c = some b) (hstop : huffWalk root rest = none) {n : Nat}
    (hn : x.length < n) (out : Buffer) :
    huffSymbols root n (codeBits code x ++ rest) out = .error (out.length + x.length) := by
  induction x generalizing n out with
  | nil =>
    obtain ⟨m, rfl⟩ := Nat.exists_eq_add_one.mpr (Nat.zero_lt_of_lt hn)
    simp [huffSymbols, codeBits, hstop]
  | cons b bs ih =>
    obtain ⟨m, rfl⟩ := Nat.exists_eq_add_one.mpr (Nat.zero_lt_of_lt hn)
    obtain ⟨⟨c, hc, hleaf⟩, hbs⟩ := List.forall_mem_cons.mp h
    have hwalk := huffWalk_of_leafAt hleaf (codeBits code bs ++ rest)
    have hrest := ih hbs (Nat.lt_of_succ_lt_succ hn) (b :: out)
    simp only [List.length_cons] at hrest ⊢
    rw [codeBits_cons bs hc, List.append_assoc, huffSymbols, hwalk]
    exact hrest.trans (congrArg _ (by omega))

/-- The codes of a table lead to their symbols in its tree. -/
theorem leafAt_of_codes {freq : List Nat} {root : HuffNode} (hroot : buildTree freq = some root) {x : Buffer}
    (h : ∀ b ∈ x, (codeFor (codeTable freq) b).isSome = true) :
    ∀ b ∈ x, ∃ c, codeFor (codeTable freq) b = some c ∧ leafAt root c = some b := by
  intro b hb
  obtain ⟨c, hc⟩ := Option.isSome_iff_exists.mp (h b hb)
  obtain ⟨root', hroot', hleaf⟩ := codeFor_eq_some_iff.mp hc
  obtain rfl : root = root' := Option.some.inj (hroot.symm.trans hroot')
  exact ⟨c, hc, hleaf⟩

/-- Enough codes at the start of the bits are the output, whatever follows (R209). -/
theorem huffDecode_of_codes {scratch : Nat} {src x : Buffer} {rest : Bits} (stage : Stage) (htable : 1024 ≤ src.length)
    (hscratch : (readFreqs src).sum ≤ scratch) (htwo : 2 ≤ (usedBytes (readFreqs src)).length)
    (hcodes : ∀ b ∈ x, (codeFor (codeTable (readFreqs src)) b).isSome = true)
    (hbits : unpackBits (src.drop 1024) = codeBits (codeTable (readFreqs src)) x ++ rest)
    (hall : x.length = (readFreqs src).sum) : huffDecode scratch stage src = .ok x := by
  obtain ⟨left, right, f, q, hroot⟩ := exists_node_of_buildTree htwo
  refine huffDecode_eq_ok.mpr ⟨htable, hscratch, .inr ⟨_, hroot, ?_⟩⟩
  rw [hbits, ← hall]
  exact huffEmit_codeBits (leafAt_of_codes hroot hcodes) rest

/-- Fewer codes, and then bits that start with no code: HUF_DEC reports how many symbols it decoded (R209). -/
theorem huffDecode_of_few_codes {scratch : Nat} {src x : Buffer} {rest : Bits} (stage : Stage)
    (htable : 1024 ≤ src.length) (hscratch : (readFreqs src).sum ≤ scratch)
    (htwo : 2 ≤ (usedBytes (readFreqs src)).length)
    (hcodes : ∀ b ∈ x, (codeFor (codeTable (readFreqs src)) b).isSome = true)
    (hbits : unpackBits (src.drop 1024) = codeBits (codeTable (readFreqs src)) x ++ rest)
    (hfew : x.length < (readFreqs src).sum)
    (hstop : ∀ (b : Byte) (c : Bits), codeFor (codeTable (readFreqs src)) b = some c → ¬ c <+: rest) :
    huffDecode scratch stage src =
      .error ⟨.hufBitstreamUnderrun, stage, sat32 x.length, sat32 (readFreqs src).sum⟩ := by
  obtain ⟨left, right, f, q, hroot⟩ := exists_node_of_buildTree htwo
  refine huffDecode_of_underrun stage htable hscratch hroot ?_
  rw [hbits]
  refine (huffSymbols_underrun (leafAt_of_codes hroot hcodes) (huffWalk_eq_none hroot hstop) hfew []).trans ?_
  rw [List.length_nil, Nat.zero_add]

/-- With two used bytes no code is empty (R205). -/
theorem codeFor_ne_nil {freq : List Nat} (htwo : 2 ≤ (usedBytes freq).length) {b : Byte} {c : Bits}
    (h : codeFor (codeTable freq) b = some c) : c ≠ [] := by
  rintro rfl
  obtain ⟨left, right, f, q, hroot⟩ := exists_node_of_buildTree htwo
  obtain ⟨root, hroot', hleaf⟩ := codeFor_eq_some_iff.mp h
  obtain rfl := Option.some.inj (hroot.symm.trans hroot')
  cases hleaf

theorem sum_pos_of_usedBytes {freq : List Nat} (htwo : 2 ≤ (usedBytes freq).length) : 0 < freq.sum := by
  refine Nat.pos_of_ne_zero fun h0 => ?_
  rw [usedBytes_of_sum_eq_zero h0] at htwo
  simp at htwo

end Sys2Proof.Machine
end


section
/-! PROOFS. The obligations O50, O51 and O53: how the Huffman commands end. -/

namespace Sys2Proof.Machine

/-- Settles O50: the record has 36 bytes per byte value, and a code fits the 32 bytes of its entry. -/
theorem hufCodesWritesTheCodeTable : Obligations.HufCodesWritesTheCodeTable := by
  unfold Obligations.HufCodesWritesTheCodeTable
  refine fun s hsrc hdst => ⟨fun hshort => ?_, fun htable hcap => ⟨?_, codeRecord_length _, fun sym => ?_⟩⟩
  · have hcheck : tableCheck .huffmanTree s.srcBuf = .error ⟨.hufTableTruncated, .huffmanTree, s.latch.srcLen, 1024⟩ := by
      rw [tableCheck_eq_error, State.srcBuf_length, sat32_toNat]
      exact ⟨hshort, rfl⟩
    exact endsIn_errorWith_of_body rfl hsrc hdst
      ((opHufCodes_eq_error (scratch := s.cfg.scratchLen) (aux := s.auxBuf .hufCodes) (l := s.latch)).mpr hcheck)
  · refine endsIn_doneWith_of_body rfl hsrc ⟨hdst.1, (codeRecord_length _).trans_le hcap⟩ ?_
    exact (opHufCodes_eq_ok (scratch := s.cfg.scratchLen) (aux := s.auxBuf .hufCodes) (l := s.latch)).mpr
      ⟨by simpa using htable, rfl⟩
  · obtain ⟨hpresent, hlen, hzero2, hzero3, hbit⟩ := byteAt_codeEntry (codeFor_length_le (readFreqs s.srcBuf) sym)
    have hplace (k : Nat) (hk : k < 36) := byteAt_codeRecord (readFreqs s.srcBuf) sym hk
    refine ⟨(hplace 0 (by decide)).trans hpresent, ?_, (hplace 2 (by decide)).trans hzero2,
      (hplace 3 (by decide)).trans hzero3, fun j hj => ?_⟩
    · rw [hplace 1 (by decide), hlen]
    · rw [Nat.add_assoc, hplace _ (by omega), hbit j hj]

/-- Settles O51: the payload is the table's 256 words and the packed codes, whose bits the table counts. -/
theorem hufEncWritesThePayload : Obligations.HufEncWritesThePayload := by
  unfold Obligations.HufEncWritesThePayload
  refine ⟨rdLe32_toNat, fun x sym h => rdLe32_huffEncode x h, fun b sym h hsym => readFreqs_getD h hsym,
    fun b h => readFreqs_length h, drop_huffEncode, fun code b c bs h => codeBits_cons bs h, fun s hsrc hdst => ?_⟩
  have hok (hfit : payloadLength (freqOf s.srcBuf) ≤ s.cfg.scratchLen) :=
    (opHufEnc_eq_ok (aux := s.auxBuf .hufEnc) (l := s.latch)).mpr ⟨hfit, rfl⟩
  refine ⟨huffEncode_length _, fun hfit hcap => ?_, fun hfit => ?_, fun hfit hcap => ?_⟩
  · exact endsIn_doneWith_of_body rfl hsrc ⟨hdst.1, (huffEncode_length _).trans_le hcap⟩ (hok hfit)
  · exact endsIn_errorWith_of_body rfl hsrc hdst
      ((opHufEnc_eq_error (aux := s.auxBuf .hufEnc) (l := s.latch)).mpr (alloc_eq_error.mpr ⟨hfit, rfl⟩))
  · rw [← huffEncode_length] at hcap ⊢
    exact endsIn_dstTooSmall (i := .hufEnc) (res := { out := huffEncode s.srcBuf }) (regionsValid_of_ready rfl hsrc hdst)
      hsrc (hok hfit) hcap

/-- Settles O53: the used bytes decide the shape of the tree, and with two of them each code is a path of a bit or
more. -/
theorem hufDecReportsAndDegenerateTables : Obligations.HufDecReportsAndDegenerateTables := by
  unfold Obligations.HufDecReportsAndDegenerateTables
  intro s hsrc hdst
  have herror {code : ErrCode} {i0 i1 : Word}
      (h : huffDecode s.cfg.scratchLen .huffmanDecoder s.srcBuf = .error ⟨code, .huffmanDecoder, i0, i1⟩) :
      EndsIn .hufDec s (s.errorWith code .huffmanDecoder i0 i1) :=
    endsIn_errorWith_of_body rfl hsrc hdst ((opHufDec_eq_error (aux := s.auxBuf .hufDec) (l := s.latch)).mpr h)
  have hdone {x : Buffer} (hcap : x.length ≤ s.latch.dstCap.toNat)
      (h : huffDecode s.cfg.scratchLen .huffmanDecoder s.srcBuf = .ok x) : EndsIn .hufDec s (s.doneWith x) :=
    endsIn_doneWith_of_body rfl hsrc ⟨hdst.1, hcap⟩
      ((opHufDec_eq_ok (aux := s.auxBuf .hufDec) (l := s.latch)).mpr ⟨x, h, rfl⟩)
  constructor
  · intro hshort
    have h := huffDecode_of_truncated s.cfg.scratchLen .huffmanDecoder (s.srcBuf_length.trans_lt hshort)
    rw [State.srcBuf_length, sat32_toNat] at h
    exact herror h
  · intro htable
    rw [← s.srcBuf_length] at htable
    rw [← usedBytes_length (readFreqs_length htable)]
    refine ⟨fun hsum => ?_, fun hsum => ?_, fun sym c hc hscratch hcap hfreq => ?_, fun hscratch hlen htwo => ?_,
      fun x rest hscratch htwo hcodes hbits => ⟨fun hall hcap => ?_, fun hfew hstop => ?_⟩⟩
    · exact herror (huffDecode_of_scratch .huffmanDecoder htable hsum)
    · have hnone := buildTree_eq_none_iff.mpr (usedBytes_of_sum_eq_zero hsum)
      exact hdone (Nat.zero_le _) (huffDecode_eq_ok.mpr ⟨htable, hsum ▸ Nat.zero_le _, .inl ⟨hnone, rfl⟩⟩)
    · have hsum : (readFreqs s.srcBuf).sum = c := hfreq ▸ sum_set_replicate_zero sym.isLt c
      obtain ⟨f, q, hroot⟩ := exists_leaf_of_buildTree (hfreq ▸ usedBytes_set sym hc)
      refine hdone (by simpa using hcap) (huffDecode_eq_ok.mpr ⟨htable, hsum ▸ hscratch, .inr ⟨_, hroot, ?_⟩⟩)
      rw [hsum]
      rfl
    · have hbits : unpackBits (s.srcBuf.drop 1024) = codeBits (codeTable (readFreqs s.srcBuf)) [] ++ [] := by
        rw [List.drop_of_length_le (s.srcBuf_length.trans hlen).le]
        rfl
      refine herror (huffDecode_of_few_codes (x := []) .huffmanDecoder htable hscratch htwo (by simp) hbits
        (sum_pos_of_usedBytes htwo) fun b c hc hprefix => codeFor_ne_nil htwo hc (List.prefix_nil.mp hprefix))
    · exact hdone hcap (huffDecode_of_codes .huffmanDecoder htable hscratch htwo hcodes hbits hall)
    · exact herror (huffDecode_of_few_codes .huffmanDecoder htable hscratch htwo hcodes hbits hfew hstop)

end Sys2Proof.Machine
end


section
/-! SUPPORT. The pipelines stage by stage: the error of each stage (R240, R243, R245), every error a command can report,
and the backward stages on what the forward ones made (R247). -/

namespace Sys2Proof.Machine

/-! ### The forward stages -/

section
variable {scratch n : Nat} {b : Buffer}

theorem pipeForward_of_rle_scratch (hmtf : b.length ≤ scratch) (h : scratch < 2 * n) :
    pipeForward scratch n b = .error ⟨.allocationFailure, .rleEncoder, sat32 (2 * n), sat32 scratch⟩ :=
  bind_eq_error.mpr (.inr ⟨_, pipeMtfEncode_eq_ok.mpr ⟨hmtf, rfl⟩,
    bind_eq_error.mpr (.inl (alloc_eq_error.mpr ⟨h, rfl⟩))⟩)

theorem pipeForward_of_huffman_scratch (hmtf : b.length ≤ scratch) (hrle : 2 * n ≤ scratch)
    (h : scratch < payloadLength (freqOf (rleEncode (mtfEncode b)))) :
    pipeForward scratch n b = .error ⟨.allocationFailure, .huffmanEncoder,
      sat32 (payloadLength (freqOf (rleEncode (mtfEncode b)))), sat32 scratch⟩ :=
  bind_eq_error.mpr (.inr ⟨_, pipeMtfEncode_eq_ok.mpr ⟨hmtf, rfl⟩, bind_eq_error.mpr (.inr ⟨(), alloc_eq_ok.mpr hrle,
    bind_eq_error.mpr (.inl (alloc_eq_error.mpr ⟨h, rfl⟩))⟩)⟩)

/-- An error of a forward stage is PIPE_ENC's, which allocates only the input before them (R241). -/
theorem opPipeEnc_of_pipeForward {src : Buffer} {r : Report} (aux : Buffer) (l : Latch) (hsrc : src.length ≤ scratch)
    (h : pipeForward scratch src.length (bwtEncode src).1 = .error r) : opPipeEnc scratch src aux l = .error r :=
  bind_eq_error.mpr (.inr ⟨(), alloc_eq_ok.mpr hsrc, bind_eq_error.mpr (.inl h)⟩)

end

/-- What PIPE_ENC hands to the frame for the input `x` (R241). -/
def pipeEncResult (x : Buffer) : CmdResult :=
  { out := huffEncode (forwardStream x)
    primaryIndex := some (BitVec.ofNat 32 (bwtEncode x).2)
    origLen := some (BitVec.ofNat 32 x.length)
    metadata := some (metadataRecord (BitVec.ofNat 32 (bwtEncode x).2) (BitVec.ofNat 32 x.length)) }

theorem opPipeEnc_ok {scratch : Nat} {src : Buffer} (aux : Buffer) (l : Latch) (hrle : 2 * src.length ≤ scratch)
    (hpayload : payloadLength (freqOf (forwardStream src)) ≤ scratch) :
    opPipeEnc scratch src aux l = .ok (pipeEncResult src) := by
  have hn : src.length ≤ scratch := by omega
  exact opPipeEnc_eq_ok.mpr ⟨hn, (bwtEncode_length src).trans_le hn, hrle, hpayload, rfl⟩

/-! ### The backward stages -/

theorem mtfDecode_rleDecode_length (r : Buffer) : (mtfDecode (rleDecode r)).length = rleTotal r := by
  simp [mtfDecode]

section
variable {scratch : Nat} {payload r : Buffer} {p : Word}

theorem pipeBackward_of_huffDecode_error {e : Report} (h : huffDecode scratch .huffmanDecoder payload = .error e) :
    pipeBackward scratch payload p = .error e :=
  bind_eq_error.mpr (.inl h)

variable (hr : huffDecode scratch .huffmanDecoder payload = .ok r)
include hr

theorem pipeBackward_of_odd (hodd : r.length % 2 = 1) :
    pipeBackward scratch payload p = .error ⟨.rleMalformed, .rleDecoder, sat32 r.length, 0⟩ :=
  bind_eq_error.mpr (.inr ⟨r, hr, bind_eq_error.mpr (.inl (failIf_eq_error.mpr ⟨decide_eq_true hodd, rfl⟩))⟩)

variable (heven : r.length % 2 = 0)
include heven

theorem pipeBackward_of_rle_scratch (h : scratch < rleTotal r) :
    pipeBackward scratch payload p = .error ⟨.allocationFailure, .rleDecoder, sat32 (rleTotal r), sat32 scratch⟩ :=
  bind_eq_error.mpr (.inr ⟨r, hr, bind_eq_error.mpr (.inr ⟨(), rleOddCheck_eq_ok.mpr heven,
    bind_eq_error.mpr (.inl (alloc_eq_error.mpr ⟨h, rfl⟩))⟩)⟩)

variable (hfit : rleTotal r ≤ scratch)
include hfit

theorem pipeBackward_of_primary_range (hpos : 0 < rleTotal r) (hp : p.toInt < 0 ∨ (rleTotal r : Int) ≤ p.toInt) :
    pipeBackward scratch payload p = .error ⟨.primaryRange, .bwtDecoder, p, sat32 (rleTotal r)⟩ := by
  have hmtf : pipeMtfDecode scratch (rleDecode r) = .ok (mtfDecode (rleDecode r)) :=
    pipeMtfDecode_eq_ok.mpr ⟨(rleDecode_length r).trans_le hfit, rfl⟩
  have hcheck : primaryRangeCheck p (mtfDecode (rleDecode r)).length =
      .error ⟨.primaryRange, .bwtDecoder, p, sat32 (rleTotal r)⟩ := by
    rw [mtfDecode_rleDecode_length]
    simpa [primaryRangeCheck, hpos] using hp
  exact bind_eq_error.mpr (.inr ⟨r, hr, bind_eq_error.mpr (.inr ⟨(), rleOddCheck_eq_ok.mpr heven,
    bind_eq_error.mpr (.inr ⟨(), alloc_eq_ok.mpr hfit, bind_eq_error.mpr (.inr ⟨_, hmtf,
      bind_eq_error.mpr (.inl hcheck)⟩)⟩)⟩)⟩)

theorem pipeBackward_ok (hp : rleTotal r = 0 ∨ (0 ≤ p.toInt ∧ p.toInt < (rleTotal r : Int))) :
    pipeBackward scratch payload p = .ok (bwtDecode (mtfDecode (rleDecode r)) p.toNat) := by
  have hlen := mtfDecode_rleDecode_length r
  refine pipeBackward_eq_ok.mpr ⟨r, hr, heven, hfit, (rleDecode_length r).trans_le hfit, ?_, hlen.trans_le hfit, rfl⟩
  rw [hlen]
  exact fun hpos => hp.resolve_left hpos.ne'

end

/-- An error of the backward stages is PIPE_DEC's once the record is whole (R243). -/
theorem pipeDec_endsIn_errorWith_of_pipeBackward {s : State} {n : Nat} {code : ErrCode} {stage : Stage} {i0 i1 : Word}
    (hsrc : s.srcReady) (haux : s.auxReady) (hdst : s.dstRoom n) (hrecord : 8 ≤ s.latch.auxLen.toNat)
    (h : pipeBackward s.cfg.scratchLen s.srcBuf (rdLe32 (s.mem.readBuf s.latch.auxAddr.toNat 8) 0) =
      .error ⟨code, stage, i0, i1⟩) : EndsIn .pipeDec s (s.errorWith code stage i0 i1) := by
  rw [← s.rdLe32_auxBuf_pipeDec (by decide) hrecord] at h
  refine endsIn_errorWith_of_regionsValid (regionsValid_of_auxReady .pipeDec hsrc haux hdst) hsrc ?_
  exact bind_eq_error.mpr (.inr ⟨(), metadataCheck_eq_ok.mpr (by simpa using hrecord), bind_eq_error.mpr (.inl h)⟩)

/-- What the backward stages make of the forward stages' payload (R247): a primary index in range, as the encoder gives,
leaves the BWT's own round trip. -/
theorem pipeBackward_huffEncode_forwardStream {scratch : Nat} {x : Buffer} (hscratch : scratch ≤ 2 ^ 31 - 1)
    (hx : x.length ≤ scratch) (hstream : (forwardStream x).length ≤ scratch) :
    pipeBackward scratch (huffEncode (forwardStream x)) (BitVec.ofNat 32 (bwtEncode x).2) =
      .ok (bwtDecode (bwtEncode x).1 (bwtEncode x).2) := by
  have hdecode : huffDecode scratch .huffmanDecoder (huffEncode (forwardStream x)) = .ok (forwardStream x) := by
    have h := huffDecode_huffEncode .huffmanDecoder [] hstream (by omega)
    rwa [List.append_nil] at h
  have hmtf : rleDecode (forwardStream x) = mtfEncode (bwtEncode x).1 := rleDecode_rleEncode _
  have htotal : rleTotal (forwardStream x) = x.length := by
    rw [← rleDecode_length, hmtf, mtfEncode, mtfEncodeFrom_length, bwtEncode_length]
  have hindex : (bwtEncode x).2 < 2 ^ 31 ∧ (x.length = 0 ∨ (bwtEncode x).2 < x.length) := by
    by_cases hnil : x = []
    · subst hnil; exact ⟨by decide, .inl rfl⟩
    · have hlt : (bwtEncode x).2 < x.length := by
        rw [bwtEncode_of_ne_nil hnil]
        exact primaryIndexCalc_lt (suffixArray_sorts x).1 (List.length_pos_iff.mpr hnil)
      exact ⟨by omega, .inr hlt⟩
  obtain ⟨hsmall, hrange⟩ := hindex
  have hnat : (BitVec.ofNat 32 (bwtEncode x).2).toNat = (bwtEncode x).2 := Nat.mod_eq_of_lt (by omega)
  have hint : (BitVec.ofNat 32 (bwtEncode x).2).toInt = ((bwtEncode x).2 : Int) := by
    rw [BitVec.toInt_eq_toNat_of_lt (by omega), hnat]
  have hok := pipeBackward_ok (p := BitVec.ofNat 32 (bwtEncode x).2) hdecode (rleEncode_length_even _)
    (htotal.trans_le hx) (by rw [htotal, hint]; omega)
  rw [hok, hnat, hmtf, mtfDecode_mtfEncode]

/-! ### Every error a command can report -/

/-- The frame's own errors and the command's (R273). -/
theorem frameResult_error_mem {i : Instr} {s : State} {r : Report} (h : frameResult i (bodyOf i) s = .error r) :
    (r.code, r.stage) ∈ [(.addrRange, .frame), (.allocationFailure, stageOf i), (.dstTooSmall, stageOf i),
      (.dstTooSmall, .pipeline)] ++ ownErrors i := by
  rw [List.mem_append]
  rcases frameResult_eq_error.mp h with h | ⟨-, h | ⟨-, h | ⟨res, -, h⟩⟩⟩
  · obtain ⟨hcode, hstage, -⟩ := regionChecks_error h
    simp [hcode, hstage]
  · obtain ⟨-, rfl⟩ := alloc_eq_error.mp h
    simp
  · exact .inr (body_error_mem h)
  · obtain ⟨hcode, hstage⟩ := capacityChecks_error h
    rcases hstage with hstage | hstage <;> simp [hcode, hstage]

/-- The numbers of PIPE_DEC's errors, stage and code (R270, R272). -/
theorem pipeDec_error_numbers : ∀ e ∈ [(ErrCode.addrRange, Stage.frame), (.allocationFailure, stageOf .pipeDec),
      (.dstTooSmall, stageOf .pipeDec), (.dstTooSmall, .pipeline)] ++ ownErrors .pipeDec,
    e.2.num * 256 + e.1.num ∈ [0x0002, 0x0B03, 0x0B07, 0x0B08, 0x0A0B, 0x0A03, 0x0A0C, 0x070A, 0x0703, 0x0503, 0x0309,
      0x0303, 0x0B06] := by
  decide

end Sys2Proof.Machine
end


section
/-! PROOFS. The obligations O55, O56, O59 and O60: the pipelines. -/

namespace Sys2Proof.Machine

/-- Settles O59: each backward stage undoes its forward one down to the BWT, and the decoded length is the recorded
one. -/
theorem pipelineRoundTripUpToTheBwt : Obligations.PipelineRoundTripUpToTheBwt := by
  unfold Obligations.PipelineRoundTripUpToTheBwt
  intro s x hlegal hsrc haux hrecord hscratch hstream hdst hbuf p n hmeta y
  have hmax : s.cfg.scratchLen ≤ 2 ^ 31 - 1 := by
    simp only [Config.legal, Bool.and_eq_true, decide_eq_true_eq] at hlegal
    exact hlegal.2
  have hylen : y.length = x.length := (bwtDecode_length _ _).trans (bwtEncode_length x)
  refine ⟨hylen, ?_⟩
  have hp : rdLe32 (metadataRecord p n) 0 = p := rdLe32_le32 p (le32 n)
  have hn : rdLe32 (metadataRecord p n) 4 = n :=
    (rdLe32_append (le32 p) (le32 n) 0).trans (by rw [← List.append_nil (le32 n), rdLe32_le32])
  have hback : pipeBackward s.cfg.scratchLen s.srcBuf p = .ok y :=
    hbuf ▸ pipeBackward_huffEncode_forwardStream hmax hscratch hstream
  rw [← hylen] at hdst
  obtain ⟨u, hu⟩ := pipeDec_endsIn_complete hsrc haux hrecord hdst (by rw [hmeta, hp]; exact hback)
  have hlen : y.length = n.toNat := hylen.trans (Nat.mod_eq_of_lt (by omega)).symm
  rw [hmeta, hp, hn, complete_pipeDecResult_of_length_eq s p hlen] at hu
  exact ⟨u, hu⟩

/-- Settles O55: the record is committed after the payload. -/
theorem pipeEncWritesPayloadAndMetadata : Obligations.PipeEncWritesPayloadAndMetadata := by
  unfold Obligations.PipeEncWritesPayloadAndMetadata
  intro s hsrc haux hrle hpayload hdst hrecord p h
  rw [← s.srcBuf_length] at hrle
  have hn : BitVec.ofNat 32 s.srcBuf.length = s.latch.srcLen := by
    rw [State.srcBuf_length, BitVec.ofNat_toNat, BitVec.setWidth_eq]
  obtain ⟨u, hu⟩ := endsIn_complete_of_regionsValid (i := .pipeEnc) (res := pipeEncResult s.srcBuf)
    (regionsValid_of_auxReady .pipeEnc hsrc haux hdst) hsrc (opPipeEnc_ok (s.auxBuf .pipeEnc) s.latch hrle hpayload)
    ((huffEncode_length _).trans_le hdst.2) (fun _ => hrecord)
  rw [pipeEncResult, hn] at hu
  exact ⟨u, hu⟩

/-- Settles O56: the stages' allocations in their order, and the record's capacity after the payload's. -/
theorem pipeEncErrorsNameTheirStage : Obligations.PipeEncErrorsNameTheirStage := by
  unfold Obligations.PipeEncErrorsNameTheirStage
  intro s hsrc haux hdst
  have hregions := regionsValid_of_auxReady .pipeEnc hsrc haux hdst
  have hin : s.srcBuf.length ≤ s.cfg.scratchLen := s.srcBuf_length.trans_le hsrc.2
  have hbwt : (bwtEncode s.srcBuf).1.length ≤ s.cfg.scratchLen := (bwtEncode_length _).trans_le hin
  rw [← s.srcBuf_length]
  refine ⟨fun hrle => ?_, fun hrle hpayload => ?_, fun hrle hpayload hcap hshort => ?_⟩
  · exact endsIn_errorWith_of_regionsValid (i := .pipeEnc) hregions hsrc
      (opPipeEnc_of_pipeForward (s.auxBuf .pipeEnc) s.latch hin (pipeForward_of_rle_scratch hbwt hrle))
  · exact endsIn_errorWith_of_regionsValid (i := .pipeEnc) hregions hsrc
      (opPipeEnc_of_pipeForward (s.auxBuf .pipeEnc) s.latch hin (pipeForward_of_huffman_scratch hbwt hrle hpayload))
  · refine endsIn_errorWith.mpr (frameResult_eq_error.mpr (.inr ⟨hregions, .inr ⟨hsrc.2, .inr ⟨pipeEncResult s.srcBuf,
      opPipeEnc_ok (s.auxBuf .pipeEnc) s.latch hrle hpayload, capacityChecks_eq_error.mpr (.inr ⟨?_, rfl, hshort, rfl⟩)⟩⟩⟩))
    exact (huffEncode_length _).trans_le hcap

/-- Settles O60: the first failing stage is PIPE_DEC's error, and the frame and the command have no other errors. -/
theorem pipeDecErrorsNameTheirStage : Obligations.PipeDecErrorsNameTheirStage := by
  unfold Obligations.PipeDecErrorsNameTheirStage
  refine ⟨fun s hsrc haux hdst hrecord => ⟨fun e he => ?_, fun r hr => ⟨fun hodd => ?_, fun heven hfit => ?_,
    fun heven hfit => ⟨fun hpos hp => ?_, fun hp => pipeBackward_ok hr heven hfit hp⟩⟩⟩, fun s t ht he => ?_⟩
  · obtain ⟨code, stage, i0, i1⟩ := e
    obtain ⟨hstage, hcode⟩ := huffDecode_eq_error he
    refine ⟨hstage, by simpa using hcode, ?_, ?_⟩
    · exact endsIn_errorWith_of_body rfl hsrc hdst ((opHufDec_eq_error (aux := s.auxBuf .hufDec) (l := s.latch)).mpr he)
    · exact pipeDec_endsIn_errorWith_of_pipeBackward hsrc haux hdst hrecord (pipeBackward_of_huffDecode_error he)
  · exact pipeDec_endsIn_errorWith_of_pipeBackward hsrc haux hdst hrecord (pipeBackward_of_odd hr hodd)
  · exact pipeDec_endsIn_errorWith_of_pipeBackward hsrc haux hdst hrecord (pipeBackward_of_rle_scratch hr heven hfit)
  · exact pipeDec_endsIn_errorWith_of_pipeBackward hsrc haux hdst hrecord
      (pipeBackward_of_primary_range hr heven hfit hpos hp)
  · rw [exec_eq_execute] at ht
    rcases execute_cases .pipeDec (bodyOf .pipeDec) s with ⟨res, -, hx⟩ | ⟨r, hf, hx⟩
    · obtain rfl := Host.Outcome.next.inj (ht.symm.trans hx)
      simp at he
    · obtain rfl := Host.Outcome.next.inj (ht.symm.trans hx)
      rw [State.raiseError_err, errWord_toNat]
      exact pipeDec_error_numbers (r.code, r.stage) (frameResult_error_mem hf)

end Sys2Proof.Machine
end


section
/-! SUPPORT. The region checks in their order (R61, R273), and an execution seen from what it depends on and what it writes
(R90). -/

namespace Sys2Proof.Machine

theorem regionChecks_eq_error {i : Instr} {n : Nat} {l : Latch} {r : Report} :
    regionChecks i n l = .error r ↔
      (n < l.srcAddr.toNat + l.srcLen.toNat ∧ r = ⟨.addrRange, .frame, 1, l.srcLen⟩) ∨
      (l.srcAddr.toNat + l.srcLen.toNat ≤ n ∧
        ((n < l.dstAddr.toNat + l.dstCap.toNat ∧ r = ⟨.addrRange, .frame, 2, l.dstCap⟩) ∨
        (l.dstAddr.toNat + l.dstCap.toNat ≤ n ∧ (auxUse i).isSome = true ∧
          n < l.auxAddr.toNat + l.auxLen.toNat ∧ r = ⟨.addrRange, .frame, 3, l.auxLen⟩))) := by
  simp [regionChecks, bind_eq_error, regionValid, and_assoc]

/-- R90: what `exec` answers is a completion of the frame's result or the entry of its error. -/
theorem exec_cases {i : Instr} {s t : State} (h : exec i s = .next t) :
    (∃ res, frameResult i (bodyOf i) s = .ok res ∧ t = s.complete res) ∨
    (∃ r, frameResult i (bodyOf i) s = .error r ∧ t = s.raiseError r) := by
  rw [exec_eq_execute] at h
  rcases execute_cases i (bodyOf i) s with ⟨res, hf, hx⟩ | ⟨r, hf, hx⟩
  · exact .inl ⟨res, hf, Host.Outcome.next.inj (h.symm.trans hx)⟩
  · exact .inr ⟨r, hf, Host.Outcome.next.inj (h.symm.trans hx)⟩

/-! ### What an execution depends on -/

theorem Memory.readBuf_congr {m m' : Memory} {a n : Nat} (h : ∀ k, k < n → m.read (a + k) = m'.read (a + k)) :
    m.readBuf a n = m'.readBuf a n :=
  List.map_congr_left fun k hk => h k (List.mem_range.mp hk)

theorem readBuf_congr_of_inRegion {m m' : Memory} {address len : Word}
    (h : ∀ a, inRegion address len a = true → m.read a = m'.read a) :
    m.readBuf address.toNat len.toNat = m'.readBuf address.toNat len.toNat :=
  Memory.readBuf_congr fun k hk => h _ (by simp [inRegion, hk])

/-- The frame's result depends on the parameters, the latched operands and the input bytes (10_state.md section 5). -/
theorem frameResult_congr {i : Instr} {s s' : State} (hcfg : s.cfg = s'.cfg) (hlatch : s.latch = s'.latch)
    (hsrc : ∀ a, inRegion s.latch.srcAddr s.latch.srcLen a = true → s.mem.read a = s'.mem.read a)
    (haux : i = .pipeDec → ∀ a, inRegion s.latch.auxAddr s.latch.auxLen a = true → s.mem.read a = s'.mem.read a) :
    frameResult i (bodyOf i) s = frameResult i (bodyOf i) s' := by
  have hsrcBuf : s.srcBuf = s'.srcBuf := by
    rw [State.srcBuf, State.srcBuf, ← hlatch]
    exact readBuf_congr_of_inRegion hsrc
  have hauxBuf : s.auxBuf i = s'.auxBuf i := by
    rw [State.auxBuf, State.auxBuf, ← hlatch]
    split
    · next huse => exact readBuf_congr_of_inRegion (haux (by cases i <;> cases huse; rfl))
    · rfl
  rw [frameResult, frameResult, hcfg, hlatch, hsrcBuf, hauxBuf]

/-- Two states with one result of the frame end the same way. -/
theorem exec_cases_of_frameResult_eq {i : Instr} {s s' t t' : State}
    (hframe : frameResult i (bodyOf i) s = frameResult i (bodyOf i) s') (ht : exec i s = .next t)
    (ht' : exec i s' = .next t') :
    (∃ res, frameResult i (bodyOf i) s = .ok res ∧ t = s.complete res ∧ t' = s'.complete res) ∨
    (∃ r, t = s.raiseError r ∧ t' = s'.raiseError r) := by
  rcases exec_cases ht with ⟨res, hf, rfl⟩ | ⟨r, hf, rfl⟩ <;>
    rcases exec_cases ht' with ⟨res', hf', rfl⟩ | ⟨r', hf', rfl⟩
  · obtain rfl : res = res' := Except.ok.inj (hf.symm.trans (hframe.trans hf'))
    exact .inl ⟨res, hf, rfl, rfl⟩
  · cases hf.symm.trans (hframe.trans hf')
  · cases hf.symm.trans (hframe.trans hf')
  · obtain rfl : r = r' := Except.error.inj (hf.symm.trans (hframe.trans hf'))
    exact .inr ⟨r, rfl, rfl⟩

/-- A write gives the same bytes to two memories that agree on a byte. -/
theorem Memory.read_write_congr {m m' : Memory} (a : Nat) (v : Buffer) {x : Nat} (h : m.read x = m'.read x) :
    (m.write a v).read x = (m'.write a v).read x := by
  by_cases hin : a ≤ x ∧ x < a + v.length
  · rw [Memory.read_write_inside m hin.1 hin.2, Memory.read_write_inside m' hin.1 hin.2]
  · rw [Memory.read_write_outside m (by omega), Memory.read_write_outside m' (by omega), h]

theorem CmdResult.read_commit_congr (res : CmdResult) (l : Latch) {m m' : Memory} {x : Nat} (h : m.read x = m'.read x) :
    (res.commit l m).read x = (res.commit l m').read x := by
  simp only [CmdResult.commit]
  split
  · exact Memory.read_write_congr _ _ (Memory.read_write_congr _ _ h)
  · exact Memory.read_write_congr _ _ h

/-- The committed output bytes do not depend on the memory before (R66). -/
theorem CmdResult.read_commit_output (res : CmdResult) (l : Latch) (m m' : Memory) {x : Nat}
    (h1 : l.dstAddr.toNat ≤ x) (h2 : x < l.dstAddr.toNat + res.out.length) :
    (res.commit l m).read x = (res.commit l m').read x := by
  have hout : (m.write l.dstAddr.toNat res.out).read x = (m'.write l.dstAddr.toNat res.out).read x := by
    rw [Memory.read_write_inside m h1 h2, Memory.read_write_inside m' h1 h2]
  simp only [CmdResult.commit]
  split
  · exact Memory.read_write_congr _ _ hout
  · exact hout

/-- The record is the last thing committed (R67). -/
theorem CmdResult.readBuf_commit_metadata {res : CmdResult} {record : Buffer} (h : res.metadata = some record)
    (l : Latch) (m : Memory) : (res.commit l m).readBuf l.auxAddr.toNat record.length = record := by
  simp only [CmdResult.commit, h]
  exact Memory.readBuf_write_same _ _ _

/-! ### The registers after an ending -/

/-- An ending gives every register but STATUS a value of its report or result, or leaves it. -/
theorem State.raiseError_reg_congr {s s' : State} (r : Report) {q : RegName} (hq : q ≠ .status) (hcfg : s.cfg = s'.cfg)
    (h : s.reg q = s'.reg q) : (s.raiseError r).reg q = (s'.raiseError r).reg q := by
  cases q <;> simp_all [State.reg]

theorem State.complete_reg_congr {s s' : State} (res : CmdResult) {q : RegName} (hq : q ≠ .status)
    (hcfg : s.cfg = s'.cfg) (h : s.reg q = s'.reg q) : (s.complete res).reg q = (s'.complete res).reg q := by
  cases q <;> simp_all [State.reg]

/-- OVERRUN is all an ending keeps of STATUS (R90, R271). -/
theorem status_and_overrun_congr {s s' : State} (h : s.overrun = s'.overrun) :
    s.status &&& statusOverrun = s'.status &&& statusOverrun := by
  have hbit : s.status.getLsbD 4 = s'.status.getLsbD 4 := h
  rw [show statusOverrun = BitVec.twoPow 32 4 from rfl, BitVec.and_twoPow, BitVec.and_twoPow, hbit]

/-- The registers an ending does not list keep their values. -/
theorem State.reg_complete_of_notMem {s : State} {res : CmdResult} {q : RegName} (hq : q ≠ .status)
    (h : q ∉ res.regsWritten) : (s.complete res).reg q = s.reg q := by
  cases q <;> simp_all [State.reg, CmdResult.regsWritten]

theorem State.reg_raiseError_of_notMem {s : State} (r : Report) {q : RegName} (hq : q ≠ .status) (hout : s.outLen = 0)
    (h : q ∉ [RegName.err, .errInfo0, .errInfo1]) : (s.raiseError r).reg q = s.reg q := by
  cases q <;> simp_all [State.reg]

/-- Which commands write PRIMARY_INDEX and ORIG_LEN (R141, R241, R243). -/
theorem body_ok_writes {i : Instr} {scratch : Nat} {src aux : Buffer} {l : Latch} {res : CmdResult}
    (h : bodyOf i scratch src aux l = .ok res) :
    (i = .bwtEnc ∨ i = .pipeEnc ∨ i = .pipeDec → res.primaryIndex.isSome = true) ∧
    (i = .pipeEnc ∨ i = .pipeDec → res.origLen.isSome = true) := by
  cases i <;> simp only [reduceCtorEq, or_self, or_false, or_true, false_implies, true_implies, and_self] <;>
    simp only [bodyOf] at h
  case bwtEnc => obtain ⟨-, rfl⟩ := opBwtEnc_eq_ok.mp h; simp
  case pipeEnc => obtain ⟨-, -, -, -, rfl⟩ := opPipeEnc_eq_ok.mp h; simp
  case pipeDec => obtain ⟨-, x, -, rfl⟩ := opPipeDec_eq_ok.mp h; simp

/-- An ending that lists the registers it writes lists every register that changed (log 8). -/
theorem lookup_unseen_of_changed {s t : State} {written : List RegName} (hunseen : t.unseen = s.before written)
    (hkept : ∀ r : RegName, r ≠ .status → r ∉ written → t.reg r = s.reg r) {r : RegName} (hr : r ≠ .status)
    (hne : t.reg r ≠ s.reg r) : t.unseen.lookup r = some (s.reg r) := by
  have hmem : r ∈ written := by
    by_contra hnot
    exact hne (hkept r hr hnot)
  rw [hunseen, State.before_lookup s hmem]

end Sys2Proof.Machine
end


section
/-! PROOFS. The obligations O18, O21, O22, O23, O24, O25 and O39: how commands end, what they leave unchanged and what they
depend on. -/

namespace Sys2Proof.Machine

/-- Settles O18: an execution is a completion or an error entry, and each sets STATUS its own way. -/
theorem everyCommandEnds : Obligations.EveryCommandEnds := by
  unfold Obligations.EveryCommandEnds
  constructor
  · intro i s
    rw [exec_eq_execute]
    rcases execute_cases i (bodyOf i) s with ⟨res, hf, hx⟩ | ⟨r, -, hx⟩
    · obtain ⟨-, -, hbody, -, -⟩ := frameResult_eq_ok.mp hf
      obtain ⟨-, -, -, -, hwarn⟩ := body_ok_fields hbody
      refine ⟨_, hx, by simp, by simp, by simp, fun hw => ⟨?_, by simp⟩⟩
      by_contra hi
      simp [hwarn hi] at hw
    · exact ⟨_, hx, by simp, by simp, by simp, by simp⟩
  · intro s hb hturns
    have hengine : s.nextTurn = .engine := by simp [State.nextTurn, hturns, hb]
    rw [step_of_engine hengine]
    rcases engineStep_cases s.takeTurn with ⟨hidle, -⟩ | ⟨-, i, res, -, -, hx⟩ | ⟨-, i, r, -, -, hx⟩ | ⟨-, e, -, hx⟩
    · rw [State.takeTurn_busy, hb] at hidle
      cases hidle
    · exact ⟨_, hx, State.complete_busy _ _, rfl⟩
    · exact ⟨_, hx, State.raiseError_busy _ _, rfl⟩
    · exact ⟨_, hx, State.raiseError_busy _ _, rfl⟩

/-- Settles O21: the frame's checks one after the other. -/
theorem frameErrorsInOrder : Obligations.FrameErrorsInOrder := by
  unfold Obligations.FrameErrorsInOrder
  intro i s src dst aux
  have hregion {region len : Word}
      (h : regionChecks i s.cfg.memBytes s.latch = .error ⟨.addrRange, .frame, region, len⟩) :
      EndsIn i s (s.errorWith .addrRange .frame region len) :=
    endsIn_errorWith.mpr (frameResult_eq_error.mpr (.inl h))
  refine ⟨fun hsrc => ?_, fun hsrc hdst => ?_, fun hsrc hdst haux => ?_, fun hsrc hdst haux hscratch => ?_⟩
  · exact hregion (regionChecks_eq_error.mpr (.inl ⟨Nat.lt_of_not_le hsrc, rfl⟩))
  · exact hregion (regionChecks_eq_error.mpr (.inr ⟨hsrc, .inl ⟨Nat.lt_of_not_le hdst, rfl⟩⟩))
  · obtain ⟨huse, hlong⟩ := Classical.not_imp.mp haux
    exact hregion (regionChecks_eq_error.mpr
      (.inr ⟨hsrc, .inr ⟨hdst, auxUse_isSome.mpr huse, Nat.lt_of_not_le hlong, rfl⟩⟩))
  · have hvalid : RegionsValid i s.cfg.memBytes s.latch := ⟨hsrc, hdst, fun huse => haux (auxUse_isSome.mp huse)⟩
    refine endsIn_errorWith.mpr (frameResult_eq_error.mpr (.inr ⟨hvalid, .inl (alloc_eq_error.mpr ⟨hscratch, ?_⟩)⟩))
    rw [sat32_toNat]

/-- Settles O39: the two functions evaluated. -/
theorem bwtRoundTripHoldsForBananaNotForBaa : Obligations.BwtRoundTripHoldsForBananaNotForBaa := by
  unfold Obligations.BwtRoundTripHoldsForBananaNotForBaa
  decide +kernel

/-- Settles O25: the record is written after the payload, and both are computed from the input read before. -/
theorem metadataWinsWhereRegionsOverlap : Obligations.MetadataWinsWhereRegionsOverlap := by
  unfold Obligations.MetadataWinsWhereRegionsOverlap
  intro s t ht hdone
  rcases exec_cases ht with ⟨res, hf, rfl⟩ | ⟨r, -, rfl⟩
  · obtain ⟨-, -, hbody, hout, -⟩ := frameResult_eq_ok.mp hf
    have hop : opPipeEnc s.cfg.scratchLen s.srcBuf (s.auxBuf .pipeEnc) s.latch = .ok res := hbody
    obtain ⟨-, -, -, -, hres⟩ := opPipeEnc_eq_ok.mp hop
    have hmeta := pipeEnc_metadata hop
    refine ⟨CmdResult.readBuf_commit_metadata hmeta s.latch s.mem, fun k hk hk' => ?_⟩
    rw [State.complete_outLen, outLen_toNat hout] at hk
    rw [State.complete_mem, CmdResult.commit, hmeta]
    show ((s.mem.write s.latch.dstAddr.toNat res.out).write _ _).read _ = _
    rw [Memory.read_write_outside _ (by simpa using hk'), Memory.read_write_inside _ (Nat.le_add_right _ _) (by omega),
      Nat.add_sub_cancel_left, hres]
    rfl
  · simp at hdone

/-- Settles O23: the registers an ending writes are those it lists, and the bytes are the output and the record. -/
theorem commandFrame : Obligations.CommandFrame := by
  unfold Obligations.CommandFrame
  constructor
  · intro i s t ht
    rcases exec_cases ht with ⟨res, hf, rfl⟩ | ⟨r, -, rfl⟩
    · obtain ⟨-, -, hbody, hout, -⟩ := frameResult_eq_ok.mp hf
      obtain ⟨hprimary, horig, hmeta, hrecord, -⟩ := body_ok_fields hbody
      refine ⟨rfl, rfl, rfl, rfl, rfl, rfl, rfl, rfl, rfl, rfl, rfl, rfl, rfl, rfl, fun h1 h2 h3 => ?_, fun h1 h2 => ?_,
        fun _ hw => ?_, fun a hdst haux => ?_⟩
      · rw [State.complete_primaryIndex, hprimary h1 h2 h3, Option.getD_none]
      · rw [State.complete_origLen, horig h1 h2, Option.getD_none]
      · rw [State.complete_warned, Option.isSome_eq_false_iff, Option.isNone_iff_eq_none] at hw
        simp [hw]
      · rw [State.complete_outLen, outLen_toNat hout] at hdst
        refine CmdResult.read_commit_outside hdst fun v hv => ?_
        have hi : i = .pipeEnc := by
          by_contra hne
          simp [hmeta hne] at hv
        rw [hrecord v hv]
        exact haux hi
    · exact ⟨rfl, rfl, rfl, rfl, rfl, rfl, rfl, rfl, rfl, rfl, rfl, rfl, rfl, rfl, fun _ _ _ => rfl, fun _ _ => rfl,
        fun hdone => by simp at hdone, fun _ _ _ => rfl⟩
  · intro s t hb ht
    have hraise (r : Report) : (∀ e ∈ (s.raiseError r).unseen, e.2 = s.reg e.1) ∧ (s.Inv → ∀ q : RegName,
        q ≠ .status → (s.raiseError r).reg q ≠ s.reg q → (s.raiseError r).unseen.lookup q = some (s.reg q)) := by
      refine ⟨fun e he => (State.mem_before he).2, fun h q hq hne => ?_⟩
      obtain ⟨-, -, -, hout⟩ := report_zero_of_busy h hb
      exact lookup_unseen_of_changed rfl (fun q hq hnot => State.reg_raiseError_of_notMem r hq hout hnot) hq hne
    rcases engineStep_cases s with ⟨hidle, -⟩ | ⟨-, i, res, -, -, hx⟩ | ⟨-, i, r, -, -, hx⟩ | ⟨-, e, -, hx⟩
    · rw [hb] at hidle
      cases hidle
    · obtain rfl := Host.Outcome.next.inj (ht.symm.trans hx)
      exact ⟨fun e he => (State.mem_before he).2, fun _ q hq hne =>
        lookup_unseen_of_changed rfl (fun q hq hnot => State.reg_complete_of_notMem hq hnot) hq hne⟩
    · obtain rfl := Host.Outcome.next.inj (ht.symm.trans hx)
      exact hraise r
    · obtain rfl := Host.Outcome.next.inj (ht.symm.trans hx)
      exact hraise _

/-- Settles O24: both states get one result of the frame, and an ending writes nothing else. -/
theorem outcomeDependsOnInputsOnly : Obligations.OutcomeDependsOnInputsOnly := by
  unfold Obligations.OutcomeDependsOnInputsOnly
  intro i s s' t t' hcfg hlatch hsrc haux ht ht'
  have hframe := frameResult_congr hcfg hlatch hsrc haux
  rcases exec_cases_of_frameResult_eq hframe ht ht' with ⟨res, hf, rfl, rfl⟩ | ⟨r, rfl, rfl⟩
  · obtain ⟨-, -, hbody, hout, -⟩ := frameResult_eq_ok.mp hf
    obtain ⟨hprimary, horig⟩ := body_ok_writes hbody
    refine ⟨by simp, by simp, by simp, rfl, fun hw => ?_, fun _ hi => ?_, fun _ hi => ?_, fun a h1 h2 => ?_,
      fun _ hi => ?_, fun ho => ?_, fun q hq h => State.complete_reg_congr res hq hcfg h, fun a h => ?_⟩
    · have hsome : res.warn.isSome = true := by simpa using hw
      obtain ⟨w, hw⟩ := Option.isSome_iff_exists.mp hsome
      simp [hw]
    · obtain ⟨p, hp⟩ := Option.isSome_iff_exists.mp (hprimary hi)
      simp [hp]
    · obtain ⟨n, hn⟩ := Option.isSome_iff_exists.mp (horig hi)
      simp [hn]
    · rw [State.complete_outLen, outLen_toNat hout] at h2
      rw [State.complete_mem, State.complete_mem, ← hlatch]
      exact CmdResult.read_commit_output res s.latch s.mem s'.mem h1 h2
    · subst hi
      have hop : opPipeEnc s.cfg.scratchLen s.srcBuf (s.auxBuf .pipeEnc) s.latch = .ok res := hbody
      rw [State.complete_mem, State.complete_mem, ← hlatch]
      exact (CmdResult.readBuf_commit_metadata (pipeEnc_metadata hop) s.latch s.mem).trans
        (CmdResult.readBuf_commit_metadata (pipeEnc_metadata hop) s.latch s'.mem).symm
    · rw [State.complete_status, State.complete_status, statusOnDone, statusOnDone, status_and_overrun_congr ho]
    · rw [State.complete_mem, State.complete_mem, ← hlatch]
      exact CmdResult.read_commit_congr res s.latch h
  · have hout (a : Nat) (h1 : s.latch.dstAddr.toNat ≤ a) : ¬ a < s.latch.dstAddr.toNat + (0 : Word).toNat := by
      simpa using h1
    exact ⟨by simp, by simp, by simp, rfl, fun _ => ⟨rfl, rfl, rfl⟩, by simp, by simp,
      fun a h1 h2 => absurd h2 (hout a h1), by simp,
      fun ho => congrArg (statusError ||| ·) (status_and_overrun_congr ho),
      fun q hq h => State.raiseError_reg_congr r hq hcfg h, fun a h => h⟩

/-- Settles O22: every command but RLE_ENC leaves the test of its output to the frame. -/
theorem outputTooLargeEndsWithDstTooSmall : Obligations.OutputTooLargeEndsWithDstTooSmall := by
  unfold Obligations.OutputTooLargeEndsWithDstTooSmall
  intro s hsrc hdst
  have hn : s.srcBuf.length ≤ s.cfg.scratchLen := s.srcBuf_length.trans_le hsrc.2
  have hends (i : Instr) {res : CmdResult} {len : Nat} (haux : auxUse i = none) (hlen : res.out.length = len)
      (hsmall : s.latch.dstCap.toNat < len)
      (hbody : bodyOf i s.cfg.scratchLen s.srcBuf (s.auxBuf i) s.latch = .ok res) :
      EndsIn i s (s.errorWith .dstTooSmall (stageOf i) s.latch.dstCap (sat32 len)) := by
    subst hlen
    exact endsIn_dstTooSmall (regionsValid_of_ready haux hsrc hdst) hsrc hbody hsmall
  refine ⟨fun hsmall => ?_, fun hsmall => ?_, fun hsmall hp hp' => ?_, fun heven hfit hsmall => ?_,
    fun htable hsmall => ?_, fun hfit hsmall => ?_, fun x hx hsmall => ?_, fun haux hrle hpayload hsmall => ?_,
    fun x haux hrecord hx hsmall => ?_⟩
  · exact hends .saBuild rfl (by rw [saRecord_length, suffixArray_length, s.srcBuf_length]) hsmall
      ((opSaBuild_eq_ok (aux := s.auxBuf .saBuild) (l := s.latch)).mpr ⟨hn, rfl⟩)
  · have hne : s.srcBuf ≠ [] := List.ne_nil_of_length_pos (by rw [s.srcBuf_length]; omega)
    rw [← sat32_toNat s.latch.srcLen]
    have hbwt := (opBwtEnc_eq_ok (aux := s.auxBuf .bwtEnc) (l := s.latch)).mpr ⟨hn, rfl⟩
    refine ⟨hends .bwtEnc rfl (by simp [bwtEncode_length]) hsmall hbwt,
      hends .mtfEnc (res := { out := mtfEncode s.srcBuf }) rfl (by simp [mtfEncode]) hsmall ?_,
      hends .mtfDec (res := { out := mtfDecode s.srcBuf }) rfl (by simp [mtfDecode]) hsmall ?_⟩
    · exact (opMtfEnc_eq_ok (aux := s.auxBuf .mtfEnc) (l := s.latch)).mpr ⟨hne, hn, rfl⟩
    · exact (opMtfDec_eq_ok (aux := s.auxBuf .mtfDec) (l := s.latch)).mpr ⟨hne, hn, rfl⟩
  · have hend := hends .bwtDec rfl ((bwtDecode_length _ _).trans s.srcBuf_length) hsmall
      ((opBwtDec_eq_ok (aux := s.auxBuf .bwtDec)).mpr ⟨fun _ => ⟨hp, by rwa [s.srcBuf_length]⟩, hn, rfl⟩)
    rwa [sat32_toNat] at hend
  · exact hends .rleDec rfl (rleDecode_length _) hsmall
      ((opRleDec_eq_ok (aux := s.auxBuf .rleDec) (l := s.latch)).mpr ⟨by rwa [s.srcBuf_length], hfit, rfl⟩)
  · exact hends .hufCodes rfl (codeRecord_length _) hsmall ((opHufCodes_eq_ok (scratch := s.cfg.scratchLen)
      (aux := s.auxBuf .hufCodes) (l := s.latch)).mpr ⟨by rwa [s.srcBuf_length], rfl⟩)
  · exact hends .hufEnc rfl (huffEncode_length _) hsmall
      ((opHufEnc_eq_ok (aux := s.auxBuf .hufEnc) (l := s.latch)).mpr ⟨hfit, rfl⟩)
  · exact hends .hufDec rfl rfl hsmall ((opHufDec_eq_ok (aux := s.auxBuf .hufDec) (l := s.latch)).mpr ⟨x, hx, rfl⟩)
  · rw [← huffEncode_length] at hsmall ⊢
    exact endsIn_dstTooSmall (res := pipeEncResult s.srcBuf) (regionsValid_of_auxReady .pipeEnc hsrc haux hdst) hsrc
      (opPipeEnc_ok (s.auxBuf .pipeEnc) s.latch (by rwa [s.srcBuf_length]) hpayload) hsmall
  · rw [← s.rdLe32_auxBuf_pipeDec (by decide) hrecord] at hx
    exact endsIn_dstTooSmall (regionsValid_of_auxReady .pipeDec hsrc haux hdst) hsrc
      (opPipeDec_of_pipeBackward s.latch (by simpa using hrecord) hx) hsmall

end Sys2Proof.Machine
end
